-- ==== Sys2Proof/Word.lean ====
section
/-! DEFINITION. The fixed widths of the block: the byte that crosses the bus (R10), the 16-bit register value, scratch
address and count (R9), the 48-bit host command word (R96) and the 24-bit response word (R97). -/

namespace Sys2Proof

/-- Eight bits: what one byte slot of the bus carries, and the `OP` and `A` fields of a command word (R10, R96). -/
abbrev Byte := BitVec 8

/-- Sixteen bits: a chip register's value, a scratch address, a count, the `B` and `C` fields, `RDATA` (R9, R96, R97). -/
abbrev Half := BitVec 16

/-- The host command word `CW` (R96). -/
abbrev CmdWord := BitVec 48

/-- The response word `RW` (R97). -/
abbrev RespWord := BitVec 24

end Sys2Proof
end

