-- ==== Sys2Proof/Config.lean ====
section
/-! DEFINITION. What is fixed for an instance of the block: the constants of R6, the open parameters of R7 with the
constraints of R8, the binding `BIND_GK` of 93_implementation_defined.md Part 2; the vocabulary of lines, levels and
bus answers (R11, R12); and the free values: the answers of the environment beyond the scripted ones (R12, U1). -/

namespace Sys2Proof

/-! ## Lines, levels, speeds and answers (R5, R11, R12) -/

/-- Logical level of a select line (R5, R22). -/
inductive Level where
  | released
  | asserted
  deriving DecidableEq, Repr, Inhabited

/-- The two select lines: `CMD` is command-select, `DAT` is data-select (R11). -/
inductive Line where
  | cmd
  | dat
  deriving DecidableEq, Repr, Inhabited

/-- The two clock configurations of the bus (R5, R26). -/
inductive Speed where
  | slow
  | fast
  deriving DecidableEq, Repr, Inhabited

/-- The kind of an exchange: `C`, issued in command mode, or `D`, issued in data mode (R11). -/
inductive Kind where
  | command
  | data
  deriving DecidableEq, Repr, Inhabited

/-- The environment's answer to a `PinDrive` (R11, R12). -/
inductive PinAnswer where
  | ok
  | pinFault
  deriving DecidableEq, Repr, Inhabited

/-- The environment's answer to a `PinSample` (R11, R12). It never faults (D10). -/
inductive Sample where
  | ready
  | notReady
  deriving DecidableEq, Repr, Inhabited

/-- The environment's answer to an `SpiXfer` (R11, R12): a transaction failure, or the bytes received. -/
inductive XferAnswer where
  | busFault
  | data (rx : List Byte)
  deriving DecidableEq, Repr, Inhabited

/-- Electrical level of a line: only the two platform parameters of R7 speak of it (R5 puts it below the model). -/
inductive Electrical where
  | low
  | high
  deriving DecidableEq, Repr, Inhabited

/-- Bit order inside a byte on the bus: the platform parameter `SPI_BIT_ORDER` (R7, R65), below the level of the model. -/
inductive BitOrder where
  | msbFirst
  | lsbFirst
  deriving DecidableEq, Repr, Inhabited

/-! ## Constants the source fixes (R6) -/

/-- `POLL_INTERVAL_MS` (R6): the delay between two data-ready samples. -/
def Config.pollIntervalMs : Nat := 1

/-- `READY_POLL_BOUND` (R6): the most samples of one internal ready-wait. -/
def Config.readyPollBound : Nat := 2000

/-- `SELFTEST_BAD_LIMIT` (R6): the bad-step count that ends the sweep early. -/
def Config.selfTestBadLimit : Nat := 20

/-- `DEFAULT_CHUNK` (R6): the default `chunk_size` of a stream write. -/
def Config.defaultChunk : Half := 32

/-- `FILLER_UNIT_BYTES` (R6): the bytes of one filler unit. -/
def Config.fillerUnitBytes : Nat := 2

/-- `STOP_RETRY_BOUND` (R6): the iterations of the stop loop. -/
def Config.stopRetryBound : Nat := 200

/-- `VOL_MAX` (R6): the largest (loudest) volume. -/
def Config.volMax : Nat := 100

/-- `BAL_MIN` (R6). -/
def Config.balMin : Int := -100

/-- `BAL_MAX` (R6). -/
def Config.balMax : Int := 100

/-- `HW_LOUDEST` (R6). -/
def Config.hwLoudest : Byte := 0x00

/-- `HW_QUIETEST` (R6). -/
def Config.hwQuietest : Byte := 0xFE

/-- `SM_RESET` (R6, R35): the reset bit of the chip's mode register. -/
def Config.smReset : Nat := 2

/-- `SM_CANCEL` (R6, R35): the cancel bit of the chip's mode register. -/
def Config.smCancel : Nat := 3

/-- `SM_SDINEW` (R6, R35): a named bit position, whose meaning the source does not give; set in both mode values (D22). -/
def Config.smSdiNew : Nat := 11

/-- `SM_LINE1` (R6, R35): a named bit position that no operation uses. -/
def Config.smLine1 : Nat := 14

/-- `STATUS_VERSION_LO` (R6, R36): the lowest bit of the 4-bit version field; `STATUS_VERSION_HI` is 7. -/
def Config.statusVersionLo : Nat := 4

/-- `STATUS_VERSION_HI` (R6, R36). -/
def Config.statusVersionHi : Nat := 7

/-- `STATUS_ABSENT_A` (R6, R36). -/
def Config.statusAbsentA : Half := 0x0000

/-- `STATUS_ABSENT_B` (R6, R36). -/
def Config.statusAbsentB : Half := 0xFFFF

/-! ## Open parameters (R7) and their constraints (R8) -/

/-- The parameters the source needs and gives no value for (R7), under the spec's names. `volReset` and `balReset` are
what construction leaves in `VOL` and `BAL` (R45). The last six are platform parameters below the model (R65, D27). -/
structure Params where
  opRead            : Byte
  opWrite           : Byte
  raMode            : Byte
  raStatus          : Byte
  raClock           : Byte
  raAudioRate       : Byte
  raVolume          : Byte
  raScratchAddr     : Byte
  raScratchData     : Byte
  readFillByte      : Byte
  saEndFill         : Half
  saGpioDir         : Half
  saGpioData        : Half
  gpioDirValue      : Half
  gpioDataValue     : Half
  clockBoostValue   : Half
  stepSlow          : Nat
  stepFast          : Nat
  sweepLimit        : Nat
  flushLarge        : Half
  flushSmall        : Half
  modeCancelValue   : Half
  modeSoftResetValue : Half
  tResetAssertMs    : Nat
  tResetReleaseMs   : Nat
  tMp3SwitchMs      : Nat
  runFastSelfTest   : Bool
  volReset          : Nat
  balReset          : Int
  csActiveLevel     : Electrical
  dreqReadyLevel    : Electrical
  spiMode           : Fin 4
  spiBitOrder       : BitOrder
  fSlowHz           : Nat
  fFastHz           : Nat
  deriving DecidableEq, Repr

/-- The constraints every binding must meet (R8), and the ranges R7 gives `VOL_RESET` and `BAL_RESET`. -/
abbrev Params.Ok (p : Params) : Prop :=
  p.opRead ≠ p.opWrite ∧
  [p.raMode, p.raStatus, p.raClock, p.raAudioRate, p.raVolume, p.raScratchAddr, p.raScratchData].Nodup ∧
  1 ≤ p.stepSlow ∧ 1 ≤ p.stepFast ∧ 1 ≤ p.sweepLimit ∧
  p.modeCancelValue.getLsbD Config.smCancel = true ∧
  p.modeSoftResetValue.getLsbD Config.smReset = true ∧
  p.volReset ≤ Config.volMax ∧ Config.balMin ≤ p.balReset ∧ p.balReset ≤ Config.balMax

/-- A binding of the open parameters that meets R8 (U13: "the model's configuration carries R8 as a hypothesis"). -/
structure Config extends Params where
  ok : toParams.Ok
  deriving DecidableEq, Repr

/-- `BIND_GK` (R7 column GK; 93_implementation_defined.md Part 2), with the decided `SWEEP_LIMIT` 0x10000 (D13, GK6).
PRESUMED: every value is general knowledge of the chip family (log entry 1). `VOL_RESET`, for which no value is known,
is 10, the value the spec's own vectors assume (95_test_vectors.md section 3): DESIGN CHOICE (log entry 2). The two mode
values are composed as D22 composes them, 0x0808 and 0x0804. -/
def Config.bindGK : Config where
  opRead := 0x03
  opWrite := 0x02
  raMode := 0x00
  raStatus := 0x01
  raClock := 0x03
  raAudioRate := 0x05
  raVolume := 0x0B
  raScratchAddr := 0x07
  raScratchData := 0x06
  readFillByte := 0xFF
  saEndFill := 0x1E06
  saGpioDir := 0xC017
  saGpioData := 0xC019
  gpioDirValue := 0x0003
  gpioDataValue := 0x0000
  clockBoostValue := 0x6000
  stepSlow := 300
  stepFast := 3
  sweepLimit := 0x10000
  flushLarge := 2052
  flushSmall := 32
  modeCancelValue := (1 <<< Config.smSdiNew) ||| (1 <<< Config.smCancel)
  modeSoftResetValue := (1 <<< Config.smSdiNew) ||| (1 <<< Config.smReset)
  tResetAssertMs := 500
  tResetReleaseMs := 500
  tMp3SwitchMs := 100
  runFastSelfTest := true
  volReset := 10
  balReset := 0
  csActiveLevel := .low
  dreqReadyLevel := .high
  spiMode := 0
  spiBitOrder := .msbFirst
  fSlowHz := 200000
  fFastHz := 4000000
  ok := by decide

/-- The electrical level a logical level of a select line stands for (R22, R23: `CS_ACTIVE_LEVEL`). -/
def Config.electricalOf (c : Config) : Level → Electrical
  | .asserted => c.csActiveLevel
  | .released => match c.csActiveLevel with
    | .low => .high
    | .high => .low

/-- What a sample reads at an electrical level of the data-ready line (R25, R142: `DREQ_READY_LEVEL`). -/
def Config.sampleOf (c : Config) (e : Electrical) : Sample :=
  if e = c.dreqReadyLevel then .ready else .notReady

/-- The bus clock rate a speed stands for (R7: `F_SLOW_HZ`, `F_FAST_HZ`). No rule reads it (R305). -/
def Config.busHz (c : Config) : Speed → Nat
  | .slow => c.fSlowHz
  | .fast => c.fFastHz

/-! ## Free values: the environment's answers (R12, R43, R76; U1)

A draw beyond the scripted answers of the state is a free value: a constant with no body, applied to the number of
draws taken so far. Nothing in Lean can evaluate it, so a claim holds for every answer (log entry 4). -/

/-- The answer to a `PinDrive` that the state's script does not give (U1). -/
opaque Config.freePinAnswer : Nat → PinAnswer

/-- The answer to a `PinSample` that the state's script does not give (U1, U14). -/
opaque Config.freeSample : Nat → Sample

/-- The answer to an `SpiXfer` that the state's script does not give (U1). -/
opaque Config.freeXferAnswer : Nat → XferAnswer

/-- The received byte in slot `k` of draw `n` where the answer gives no byte for that slot (U1: "any `rx` of the right
length"). -/
opaque Config.freeRxByte : (n k : Nat) → Byte

end Sys2Proof
end

