-- ==== Sys2Proof/Syntax.lean ====
section
/-! DEFINITION. The instructions of the block: one constructor per row of spec/opcode_table.json, the 21 host commands of
R98 and the four wire frames of R90 to R94, with the assembler text and aliases of R108 and R109; and the packets that
carry them (48-bit command words and wire frames). -/

namespace Sys2Proof

/-- The seven chip registers a command can name (R34, R99). -/
inductive ChipReg where
  | mode
  | status
  | clock
  | audioRate
  | volume
  | scratchAddr
  | scratchData
  deriving DecidableEq, Repr, Inhabited

/-- The caller's intent of a self-test (R15, R101). -/
inductive Probe where
  | slowProbe
  | fastProbe
  deriving DecidableEq, Repr, Inhabited

/-- The instructions. Operands are those of R98 in the order of R108; a field that R98 fixes at zero is no operand. -/
inductive Instr where
  /-- `SELECT_COMMAND` (R131). -/
  | selectCommand
  /-- `DESELECT_COMMAND` (R132). -/
  | deselectCommand
  /-- `SELECT_DATA` (R133). -/
  | selectData
  /-- `DESELECT_DATA` (R134). -/
  | deselectData
  /-- `AWAIT_READY max_polls` (R141). -/
  | awaitReady (maxPolls : Half)
  /-- `READ_REGISTER reg` (R151). -/
  | readRegister (reg : ChipReg)
  /-- `WRITE_REGISTER speed, reg, value` (R152). -/
  | writeRegister (speed : Speed) (reg : ChipReg) (value : Half)
  /-- `SCRATCH_WRITE address, data` (R153). -/
  | scratchWrite (address data : Half)
  /-- `SCRATCH_READ address` (R154). -/
  | scratchRead (address : Half)
  /-- `SELF_TEST probe` (R170). -/
  | selfTest (probe : Probe)
  /-- `WRITE_STREAM L, chunk_size` (R180). -/
  | writeStream (len chunkSize : Half)
  /-- `FLUSH_WITH_FILLERS length` (R182). -/
  | flushWithFillers (len : Half)
  /-- `STOP` (R183). -/
  | stop
  /-- `SET_VOLUME v` (R205). -/
  | setVolume (v : Byte)
  /-- `SET_BALANCE b` (R206): `b` is the 16-bit two's-complement operand. -/
  | setBalance (b : Half)
  /-- `GET_VOLUME` (R207). -/
  | getVolume
  /-- `BEGIN` (R221). -/
  | begin
  /-- `SWITCH_TO_MP3_MODE` (R225). -/
  | switchToMp3Mode
  /-- `SOFT_RESET` (R224). -/
  | softReset
  /-- `IS_CHIP_CONNECTED` (R226). -/
  | isChipConnected
  /-- `GET_CHIP_VERSION` (R227). -/
  | getChipVersion
  /-- `WIRE_READ_FRAME` (R91): the transaction of one register read frame. -/
  | wireReadFrame (reg : ChipReg)
  /-- `WIRE_WRITE_FRAME` (R92): the transaction of one register write frame. -/
  | wireWriteFrame (reg : ChipReg) (value : Half)
  /-- `WIRE_DATA_CHUNK` (R93): the transaction of one chunk of payload bytes. -/
  | wireDataChunk (bytes : List Byte)
  /-- `WIRE_FILLER_UNIT` (R94): the transaction of one 2-byte filler unit. -/
  | wireFillerUnit (fill : Half)
  deriving DecidableEq, Repr

/-- The mnemonic of the row (spec/opcode_table.json). -/
def Instr.mnemonic : Instr → String
  | .selectCommand => "SELECT_COMMAND"
  | .deselectCommand => "DESELECT_COMMAND"
  | .selectData => "SELECT_DATA"
  | .deselectData => "DESELECT_DATA"
  | .awaitReady _ => "AWAIT_READY"
  | .readRegister _ => "READ_REGISTER"
  | .writeRegister _ _ _ => "WRITE_REGISTER"
  | .scratchWrite _ _ => "SCRATCH_WRITE"
  | .scratchRead _ => "SCRATCH_READ"
  | .selfTest _ => "SELF_TEST"
  | .writeStream _ _ => "WRITE_STREAM"
  | .flushWithFillers _ => "FLUSH_WITH_FILLERS"
  | .stop => "STOP"
  | .setVolume _ => "SET_VOLUME"
  | .setBalance _ => "SET_BALANCE"
  | .getVolume => "GET_VOLUME"
  | .begin => "BEGIN"
  | .switchToMp3Mode => "SWITCH_TO_MP3_MODE"
  | .softReset => "SOFT_RESET"
  | .isChipConnected => "IS_CHIP_CONNECTED"
  | .getChipVersion => "GET_CHIP_VERSION"
  | .wireReadFrame _ => "WIRE_READ_FRAME"
  | .wireWriteFrame _ _ => "WIRE_WRITE_FRAME"
  | .wireDataChunk _ => "WIRE_DATA_CHUNK"
  | .wireFillerUnit _ => "WIRE_FILLER_UNIT"

/-- A register's name in assembler text (R108). -/
def ChipReg.asm : ChipReg → String
  | .mode => "MODE"
  | .status => "STATUS"
  | .clock => "CLOCK"
  | .audioRate => "AUDIO_RATE"
  | .volume => "VOLUME"
  | .scratchAddr => "SCRATCH_ADDR"
  | .scratchData => "SCRATCH_DATA"

/-- A speed's name in assembler text (R108). -/
def Speed.asm : Speed → String
  | .slow => "Slow"
  | .fast => "Fast"

/-- A probe's name in assembler text (R108). -/
def Probe.asm : Probe → String
  | .slowProbe => "SlowProbe"
  | .fastProbe => "FastProbe"

/-- The operands in assembler text, in the order of R108, numbers in decimal; a wire frame has no assembler text. -/
def Instr.operandsAsm : Instr → List String
  | .awaitReady n => [toString n.toNat]
  | .readRegister r => [r.asm]
  | .writeRegister sp r v => [sp.asm, r.asm, toString v.toNat]
  | .scratchWrite a d => [toString a.toNat, toString d.toNat]
  | .scratchRead a => [toString a.toNat]
  | .selfTest p => [p.asm]
  | .writeStream l c => [toString l.toNat, toString c.toNat]
  | .flushWithFillers n => [toString n.toNat]
  | .setVolume v => [toString v.toNat]
  | .setBalance b => [toString b.toInt]
  | .selectCommand | .deselectCommand | .selectData | .deselectData | .stop | .getVolume | .begin
  | .switchToMp3Mode | .softReset | .isChipConnected | .getChipVersion
  | .wireReadFrame _ | .wireWriteFrame _ _ | .wireDataChunk _ | .wireFillerUnit _ => []

/-- A command in assembler text (R108): the mnemonic, then the operands separated by commas. -/
def Instr.asm (i : Instr) : String :=
  match i.operandsAsm with
  | [] => i.mnemonic
  | ops => i.mnemonic ++ " " ++ String.intercalate ", " ops

/-- `PLAY_CHUNK L, chunk_size` is `WRITE_STREAM L, chunk_size` (R109). -/
abbrev Instr.playChunk (len chunkSize : Half) : Instr := .writeStream len chunkSize

/-- `STOP_SONG` is `STOP` (R109). -/
abbrev Instr.stopSong : Instr := .stop

/-- `WRITE_STREAM L` is `WRITE_STREAM L, 32` (R109: `DEFAULT_CHUNK`). -/
abbrev Instr.writeStreamDefault (len : Half) : Instr := .writeStream len Config.defaultChunk

/-- `AWAIT_READY` is `AWAIT_READY 2000` (R109: `READY_POLL_BOUND`). -/
abbrev Instr.awaitReadyDefault : Instr := .awaitReady (BitVec.ofNat 16 Config.readyPollBound)

/-- The bytes of one wire frame, by the formats of the opcode table: WIRE32 (R91, R92), WIRE16 (R94), WIRE_VAR (R93). Of a
frame of fixed length the first byte is the most significant. -/
inductive Frame where
  | bytes4 (w : BitVec 32)
  | bytes2 (w : Half)
  | chunk (bytes : List Byte)
  deriving DecidableEq, Repr

/-- What carries one instruction: a host command word (format CW48), or a wire frame, which is the bus engine's own work
unit and never a host's (R137; log entry 5). -/
inductive Packet where
  | command (w : CmdWord)
  | frame (f : Frame)
  deriving DecidableEq, Repr

end Sys2Proof
end

