-- ==== Sys2Proof/WellFormed.lean ====
section
/-! DEFINITION. The operand values an encoding admits (R106, R93): everything else that R98 demands of an operand is in
its type (a selector 0..6 is a `ChipReg`, a speed bit a `Speed`, a probe bit a `Probe`). -/

namespace Sys2Proof

/-- `chunk_size` is not zero (R98 extra condition, R106). -/
def chunkSizeOk (chunkSize : Half) : Bool := chunkSize != 0

/-- A data chunk holds between 1 and 65535 bytes: `1 ≤ n ≤ chunk_size` with a 16-bit `chunk_size` (R93, R102). -/
def chunkBytesOk (bytes : List Byte) : Bool := !bytes.isEmpty && decide (bytes.length ≤ 65535)

/-- The instruction's operands are ones its encoding can carry. -/
def Instr.wf : Instr → Bool
  | .writeStream _ chunkSize => chunkSizeOk chunkSize
  | .wireDataChunk bytes => chunkBytesOk bytes
  | .selectCommand => true
  | .deselectCommand => true
  | .selectData => true
  | .deselectData => true
  | .awaitReady _ => true
  | .readRegister _ => true
  | .writeRegister _ _ _ => true
  | .scratchWrite _ _ => true
  | .scratchRead _ => true
  | .selfTest _ => true
  | .flushWithFillers _ => true
  | .stop => true
  | .setVolume _ => true
  | .setBalance _ => true
  | .getVolume => true
  | .begin => true
  | .switchToMp3Mode => true
  | .softReset => true
  | .isChipConnected => true
  | .getChipVersion => true
  | .wireReadFrame _ => true
  | .wireWriteFrame _ _ => true
  | .wireFillerUnit _ => true

/-- The well-formed instructions. -/
abbrev WellFormed (i : Instr) : Prop := i.wf = true

end Sys2Proof
end

