-- ==== Sys2Proof/Decode.lean ====
section
/-! DEFINITION. The decoder of the 48-bit host command word (R96 to R106) and of the wire frames (R90 to R95): total,
every word either selects exactly one command or is illegal by name. After it the encoder, from the same tables. -/

namespace Sys2Proof

/-! ## Fields and operands -/

/-- `OP = CW[47:40]` (R96). -/
def fieldOp (w : CmdWord) : Byte := w.extractLsb' 40 8

/-- `A = CW[39:32]` (R96). -/
def fieldA (w : CmdWord) : Byte := w.extractLsb' 32 8

/-- `B = CW[31:16]` (R96). -/
def fieldB (w : CmdWord) : Half := w.extractLsb' 16 16

/-- `C = CW[15:0]` (R96). -/
def fieldC (w : CmdWord) : Half := w.extractLsb' 0 16

/-- A register's selector, its position in the source's list (R99). -/
def selectorOf : ChipReg → Byte
  | .mode => 0
  | .status => 1
  | .clock => 2
  | .audioRate => 3
  | .volume => 4
  | .scratchAddr => 5
  | .scratchData => 6

/-- The register a selector names; `sel ≥ 7` names none (R99, R106). -/
def regOfSelector (sel : Byte) : Option ChipReg :=
  [ChipReg.mode, .status, .clock, .audioRate, .volume, .scratchAddr, .scratchData].find?
    (fun r => selectorOf r == sel)

/-- `speed = CW[16]`: 0 is `Slow`, 1 is `Fast` (R100). -/
def speedOfBit (b : Bool) : Speed := if b then .fast else .slow

/-- The speed's bit (R100). -/
def bitOfSpeed : Speed → Byte
  | .slow => 0
  | .fast => 1

/-- `probe = CW[32]`: 0 is `SlowProbe`, 1 is `FastProbe` (R101). -/
def probeOfBit (b : Bool) : Probe := if b then .fastProbe else .slowProbe

/-- The probe's bit (R101). -/
def bitOfProbe : Probe → Byte
  | .slowProbe => 0
  | .fastProbe => 1

/-- The low byte of `C`, the volume operand (R103). -/
def volumeOperand (w : CmdWord) : Byte := w.extractLsb' 0 8

/-- `RA(sel)`: the wire address of a chip register (R34, R99). -/
def wireAddress (c : Config) : ChipReg → Byte
  | .mode => c.raMode
  | .status => c.raStatus
  | .clock => c.raClock
  | .audioRate => c.raAudioRate
  | .volume => c.raVolume
  | .scratchAddr => c.raScratchAddr
  | .scratchData => c.raScratchData

/-- The register at a wire address, if the address is one of the seven named ones (R61). -/
def regOfWireAddress (c : Config) (a : Byte) : Option ChipReg :=
  [ChipReg.mode, .status, .clock, .audioRate, .volume, .scratchAddr, .scratchData].find?
    (fun r => wireAddress c r == a)

/-! ## Byte order (R64): the more significant byte goes first -/

/-- `v[15:8]`. -/
def hiByte (v : Half) : Byte := v.extractLsb' 8 8

/-- `v[7:0]`. -/
def loByte (v : Half) : Byte := v.extractLsb' 0 8

/-- `hi ++ lo` (R10). -/
def joinBytes (hi lo : Byte) : Half := hi ++ lo

/-! ## The decoder -/

/-- Why a packet selects no instruction (R106; for a frame packet R90 to R93). All are answered `IllegalCommand` (R256). -/
inductive Illegal where
  /-- `OP` is not one of the 21 listed values. -/
  | unknownOp
  /-- A must-be-zero bit is set (R105). -/
  | mustBeZero
  /-- `sel ≥ 7` in `READ_REGISTER` or `WRITE_REGISTER`. -/
  | badSelector
  /-- `chunk_size = 0` in `WRITE_STREAM`. -/
  | zeroChunk
  /-- Four bytes that are neither a register read frame nor a register write frame (R91, R92). -/
  | notARegisterFrame
  /-- A data chunk with no byte, or with more than a 16-bit count allows (R93). -/
  | badChunkLength
  deriving DecidableEq, Repr

/-- One row of R98 once `OP` has chosen it: the word selects the row when `w & mask = match`. -/
def matchRow (w mask fixed : CmdWord) (i : Instr) : Except Illegal Instr :=
  if w &&& mask = fixed then .ok i else .error .mustBeZero

/-- The opcode map (R98), with the extra conditions `A ≤ 6` and `C ≠ 0`. -/
def decodeCommand (w : CmdWord) : Except Illegal Instr :=
  match (fieldOp w).toNat with
  | 0x10 => matchRow w 0xFFFFFFFFFFFF 0x100000000000 .selectCommand
  | 0x11 => matchRow w 0xFFFFFFFFFFFF 0x110000000000 .deselectCommand
  | 0x12 => matchRow w 0xFFFFFFFFFFFF 0x120000000000 .selectData
  | 0x13 => matchRow w 0xFFFFFFFFFFFF 0x130000000000 .deselectData
  | 0x20 => matchRow w 0xFFFFFFFF0000 0x200000000000 (.awaitReady (fieldC w))
  | 0x30 =>
    match regOfSelector (fieldA w) with
    | some r => matchRow w 0xFF00FFFFFFFF 0x300000000000 (.readRegister r)
    | none => .error .badSelector
  | 0x31 =>
    match regOfSelector (fieldA w) with
    | some r => matchRow w 0xFF00FFFE0000 0x310000000000 (.writeRegister (speedOfBit (w.getLsbD 16)) r (fieldC w))
    | none => .error .badSelector
  | 0x32 => matchRow w 0xFFFF00000000 0x320000000000 (.scratchWrite (fieldB w) (fieldC w))
  | 0x33 => matchRow w 0xFFFF0000FFFF 0x330000000000 (.scratchRead (fieldB w))
  | 0x40 => matchRow w 0xFFFEFFFFFFFF 0x400000000000 (.selfTest (probeOfBit (w.getLsbD 32)))
  | 0x50 =>
    if fieldC w = 0 then .error .zeroChunk
    else matchRow w 0xFFFF00000000 0x500000000000 (.writeStream (fieldB w) (fieldC w))
  | 0x51 => matchRow w 0xFFFF0000FFFF 0x510000000000 (.flushWithFillers (fieldB w))
  | 0x52 => matchRow w 0xFFFFFFFFFFFF 0x520000000000 .stop
  | 0x60 => matchRow w 0xFFFFFFFFFF00 0x600000000000 (.setVolume (volumeOperand w))
  | 0x61 => matchRow w 0xFFFFFFFF0000 0x610000000000 (.setBalance (fieldC w))
  | 0x62 => matchRow w 0xFFFFFFFFFFFF 0x620000000000 .getVolume
  | 0x70 => matchRow w 0xFFFFFFFFFFFF 0x700000000000 .begin
  | 0x71 => matchRow w 0xFFFFFFFFFFFF 0x710000000000 .switchToMp3Mode
  | 0x72 => matchRow w 0xFFFFFFFFFFFF 0x720000000000 .softReset
  | 0x73 => matchRow w 0xFFFFFFFFFFFF 0x730000000000 .isChipConnected
  | 0x74 => matchRow w 0xFFFFFFFFFFFF 0x740000000000 .getChipVersion
  | _ => .error .unknownOp

/-- A four-byte command-mode frame, read by its first byte (R90, R91, R92, R95). -/
def decodeFrame32 (c : Config) (w : BitVec 32) : Except Illegal Instr :=
  match regOfWireAddress c (w.extractLsb' 16 8) with
  | none => .error .notARegisterFrame
  | some r =>
    if w.extractLsb' 24 8 = c.opRead ∧ w.extractLsb' 8 8 = c.readFillByte ∧ w.extractLsb' 0 8 = c.readFillByte then
      .ok (.wireReadFrame r)
    else if w.extractLsb' 24 8 = c.opWrite then .ok (.wireWriteFrame r (w.extractLsb' 0 16))
    else .error .notARegisterFrame

/-- The wire frame that some bytes are (R90). -/
def decodeFrame (c : Config) : Frame → Except Illegal Instr
  | .bytes4 w => decodeFrame32 c w
  | .bytes2 w => .ok (.wireFillerUnit w)
  | .chunk bytes => if chunkBytesOk bytes then .ok (.wireDataChunk bytes) else .error .badChunkLength

/-- The decoder, total on every packet (R106). -/
def decode (c : Config) : Packet → Except Illegal Instr
  | .command w => decodeCommand w
  | .frame f => decodeFrame c f

/-! ## The encoder -/

/-- The command word with these four fields (R96). -/
def packWord (op a : Byte) (b c : Half) : CmdWord := op ++ a ++ b ++ c

/-- The register read frame as one 32-bit number, first byte most significant (R91). -/
def readFrameWord (c : Config) (r : ChipReg) : BitVec 32 :=
  c.opRead ++ wireAddress c r ++ c.readFillByte ++ c.readFillByte

/-- The register write frame as one 32-bit number, first byte most significant (R92). -/
def writeFrameWord (c : Config) (r : ChipReg) (v : Half) : BitVec 32 :=
  c.opWrite ++ wireAddress c r ++ v

/-- The packet of an instruction (R98; R91 to R94). -/
def encode (c : Config) : Instr → Packet
  | .selectCommand => .command (packWord 0x10 0 0 0)
  | .deselectCommand => .command (packWord 0x11 0 0 0)
  | .selectData => .command (packWord 0x12 0 0 0)
  | .deselectData => .command (packWord 0x13 0 0 0)
  | .awaitReady n => .command (packWord 0x20 0 0 n)
  | .readRegister r => .command (packWord 0x30 (selectorOf r) 0 0)
  | .writeRegister sp r v => .command (packWord 0x31 (selectorOf r) ((bitOfSpeed sp).setWidth 16) v)
  | .scratchWrite a d => .command (packWord 0x32 0 a d)
  | .scratchRead a => .command (packWord 0x33 0 a 0)
  | .selfTest p => .command (packWord 0x40 (bitOfProbe p) 0 0)
  | .writeStream l n => .command (packWord 0x50 0 l n)
  | .flushWithFillers n => .command (packWord 0x51 0 n 0)
  | .stop => .command (packWord 0x52 0 0 0)
  | .setVolume v => .command (packWord 0x60 0 0 (v.setWidth 16))
  | .setBalance b => .command (packWord 0x61 0 0 b)
  | .getVolume => .command (packWord 0x62 0 0 0)
  | .begin => .command (packWord 0x70 0 0 0)
  | .switchToMp3Mode => .command (packWord 0x71 0 0 0)
  | .softReset => .command (packWord 0x72 0 0 0)
  | .isChipConnected => .command (packWord 0x73 0 0 0)
  | .getChipVersion => .command (packWord 0x74 0 0 0)
  | .wireReadFrame r => .frame (.bytes4 (readFrameWord c r))
  | .wireWriteFrame r v => .frame (.bytes4 (writeFrameWord c r v))
  | .wireDataChunk bytes => .frame (.chunk bytes)
  | .wireFillerUnit v => .frame (.bytes2 v)

/-! ## The host's view of an opcode-table word -/

/-- The packet whose bits are `w`, by the table's formats: CW48, WIRE32, WIRE16, and WIRE_VAR with one byte. A frame's
pattern of bits is read as one number, its first byte most significant. -/
def packetOfTableWord (nbits w : Nat) : Option Packet :=
  match nbits with
  | 48 => some (.command (BitVec.ofNat 48 w))
  | 32 => some (.frame (.bytes4 (BitVec.ofNat 32 w)))
  | 16 => some (.frame (.bytes2 (BitVec.ofNat 16 w)))
  | 8 => some (.frame (.chunk [BitVec.ofNat 8 w]))
  | _ => none

/-- The instruction the decoder reads from a word of the opcode table. A wire frame's opcode and address bytes are those
of `BIND_GK`, the binding of the reset state. -/
def decodeTableWord (nbits w : Nat) : Option Instr :=
  match packetOfTableWord nbits w with
  | some p => (decode Config.bindGK p).toOption
  | none => none

end Sys2Proof
end

