-- ==== Sys2Proof/Machine/Memory.lean ====
section
/-! DEFINITION. The one byte-addressed memory of the spec: the host payload buffer `PB` of 65536 bytes (R60, R63), as a
list of cells in one canonical form. The block reads it and never writes it; the host writes it between commands. -/

namespace Sys2Proof.Machine

/-- The payload buffer: (index, byte) pairs, indexes strictly rising, no byte equal to `Memory.blank`. -/
abbrev Memory := List Host.Cell

/-- The size of `PB` (R9, R63). -/
def Memory.size : Nat := 65536

/-- What an index the host has not written reads as. DESIGN CHOICE, unsafe: the spec gives `PB` no contents (log entry 6). -/
def Memory.blank : Byte := 0x00

/-- The byte at an index. -/
def Memory.read : Memory → Nat → Byte
  | [], _ => Memory.blank
  | (a, b) :: rest, i => if a = i then b else Memory.read rest i

/-- The cells without index `i`. -/
def Memory.erase : Memory → Nat → Memory
  | [], _ => []
  | (a, b) :: rest, i => if a = i then rest else (a, b) :: Memory.erase rest i

/-- The cells with index `i` holding `v`, in rising order. -/
def Memory.insert : Memory → Nat → Byte → Memory
  | [], i, v => [(i, v)]
  | (a, b) :: rest, i, v =>
    if i < a then (i, v) :: (a, b) :: rest
    else if i = a then (i, v) :: rest
    else (a, b) :: Memory.insert rest i v

/-- The buffer after the host wrote `v` at index `i`, in canonical form. -/
def Memory.write (m : Memory) (i : Nat) (v : Byte) : Memory :=
  if v = Memory.blank then m.erase i else m.insert i v

/-- The buffer's bytes `[a, a+1, …, a+n-1]` (R11: `MemRead(a, n)`, lowest index first). -/
def Memory.slice (m : Memory) (a n : Nat) : List Byte := (List.range n).map (fun k => m.read (a + k))

/-- The canonical form from index `lo` on: indexes rising, inside the buffer, no blank byte listed. -/
def Memory.wfFrom : Nat → Memory → Bool
  | _, [] => true
  | lo, (a, b) :: rest => decide (lo ≤ a) && decide (a < Memory.size) && b != Memory.blank && Memory.wfFrom (a + 1) rest

/-- The canonical form: equal buffers are equal lists. -/
def Memory.wf (m : Memory) : Bool := Memory.wfFrom 0 m

end Sys2Proof.Machine
end

