-- ==== Sys2Proof/Machine/State.lean ====
section
/-! DEFINITION. The state of the machine as plain data: the nine block registers of R20, the host's payload buffer, and the
model's own fields (the binding of the open parameters, the host's requests, the environment's answers, the trace of R13
and the last response word), with the reset state of R45. -/

namespace Sys2Proof.Machine

/-- The seven lifecycle states (R30, R220). -/
inductive Lifecycle where
  | poweredOff
  | resetting
  | awaitingReady
  | slowSelfTest
  | clockBoosted
  | fastSelfTest
  | ready
  deriving DecidableEq, Repr

/-- Bus mode, a function of the two select latches (R24). -/
inductive BusMode where
  | idle
  | command
  | data
  | resetSignal
  deriving DecidableEq, Repr

/-- The outcome codes of the response word (R250). -/
inductive Status where
  | ok
  | pinFault
  | busFault
  | dataTimeout
  | selfTestFailed
  | chipAbsent
  | illegalState
  | illegalCommand
  deriving DecidableEq, Repr

/-- A response word by its two fields (R97). -/
structure Response where
  status : Status
  rdata  : Half
  deriving DecidableEq, Repr

/-- One event of the trace (R11, R13): `P(line, level, answer)`, `S(answer)`, `D(ms)`, `X(speed, kind, tx, answer)`. -/
inductive Event where
  | pin (line : Line) (level : Level) (answer : PinAnswer)
  | sample (answer : Sample)
  | delay (ms : Nat)
  | xfer (speed : Speed) (kind : Kind) (tx : List Byte) (answer : XferAnswer)
  deriving DecidableEq, Repr

/-- What waits for the block, one at a time (R71, R295). A host issues command words and nothing else (R96, R137), and writes
bytes of `PB` between two commands (R63, R74). A frame is work of the bus engine that no host presents (log entry 5). -/
inductive Request where
  /-- The host issues a command word. -/
  | issue (w : CmdWord)
  /-- The host writes one byte of `PB`. -/
  | writePayload (index : Half) (value : Byte)
  /-- The bus engine is given one wire frame as a transaction of its own. -/
  | frame (f : Frame)
  deriving DecidableEq, Repr

/-- The environment's answers (R12): one script per primitive, oldest first; a draw beyond a script is a free value. `drawn`
counts the draws taken, so that each free value is a fresh one. The model's own, not the spec's. -/
structure Env where
  pins    : List PinAnswer
  samples : List Sample
  xfers   : List XferAnswer
  drawn   : Nat
  deriving DecidableEq, Repr

/-- The machine's state. `csc` to `fastOk` are the block registers of R20. `pb` is the host's (R44, R63). `cfg` is the
instance's configuration, which no step changes (R44). `requests` and `env` are inputs, `trace` (newest event first) and
`response` outputs (R13, R33, R44). -/
@[ext]
structure State where
  cfg      : Config
  csc      : Level
  csd      : Level
  spd      : Speed
  vol      : Nat
  bal      : Int
  fill     : Option Half
  lc       : Lifecycle
  slowOk   : Bool
  fastOk   : Bool
  pb       : Memory
  requests : List Request
  env      : Env
  trace    : List Event
  response : Option Response
  deriving DecidableEq, Repr

/-- Why a step could stop with a fault: no condition stops the block (R264: "No condition stops the block, locks it, or
changes how later commands behave"), so there is no constructor and nobody raises one. Safe. -/
inductive Fault where
  deriving DecidableEq, Repr

/-- Why a step could have no meaning. The block's own refusals (`IllegalCommand`, `IllegalState`, R14) are responses of a
next state, not refusals of the model. -/
inductive Refusal where
  /-- An arm of `exec` without its meaning would raise it; no arm does. Safe. -/
  | notModelled (mnemonic : String)
  deriving DecidableEq, Repr

/-- The block just after construction with a given binding (R45, R290): no event, nothing sampled, nothing sent. -/
def State.construct (c : Config) : State where
  cfg := c
  csc := .released
  csd := .released
  spd := .slow
  vol := c.volReset
  bal := c.balReset
  fill := none
  lc := .poweredOff
  slowOk := false
  fastOk := false
  pb := []
  requests := []
  env := { pins := [], samples := [], xfers := [], drawn := 0 }
  trace := []
  response := none

/-- The machine right after reset: construction (R290) with the binding `BIND_GK` (log entries 1 and 2). -/
def State.reset : State := State.construct Config.bindGK

end Sys2Proof.Machine
end

