-- ==== Sys2Proof/Machine/Operands.lean ====
section
/-! DEFINITION. Operand assembly: the bytes of the wire frames (R91, R92, R94), the value of a read frame's response (R91),
the volume and balance operands (R103, R104) and the index written by a sweep step (R170). -/

namespace Sys2Proof.Machine

/-- The bytes of a register read frame (R91). -/
def readFrame (c : Config) (r : ChipReg) : List Byte :=
  [c.opRead, wireAddress c r, c.readFillByte, c.readFillByte]

/-- The bytes of a register write frame (R92). -/
def writeFrame (c : Config) (r : ChipReg) (v : Half) : List Byte :=
  [c.opWrite, wireAddress c r, hiByte v, loByte v]

/-- The bytes of one filler unit, more significant byte first (R94): `FILLER_UNIT_BYTES` of them (R6). -/
def fillerUnit (fill : Half) : List Byte :=
  (List.range Config.fillerUnitBytes).map (fun k => fill.extractLsb' (8 * (Config.fillerUnitBytes - 1 - k)) 8)

/-- The value of a read frame's four received bytes: `rx[2] ++ rx[3]` (R91). An exchange of four bytes receives exactly
four (R11), so the other cases are never met. -/
def readValue : List Byte → Half
  | _ :: _ :: hi :: lo :: _ => joinBytes hi lo
  | _ => 0

/-- The volume operand as an integer 0..255 (R103). -/
def volumeOf (v : Byte) : Nat := v.toNat

/-- The balance operand as a signed integer −32768..32767 (R104). -/
def balanceOf (b : Half) : Int := b.toInt

/-- A 16-bit count as an integer (R102). -/
def countOf (n : Half) : Nat := n.toNat

/-- The low 16 bits of the sweep index, which go on the wire (R170, R209). -/
def sweepValue (i : Nat) : Half := BitVec.ofNat 16 i

end Sys2Proof.Machine
end

