-- ==== Sys2Proof/Machine/Flags.lean ====
section
/-! DEFINITION. The block has no condition-code register (R33). What stands in its place: the outcome codes of the response
word (R97, R250), the encoding of `LC` (R30), the two outcome flags as `BEGIN` reports them (R31, R221), and the tests on
chip-register values (`SM_CANCEL` R183, `VERSION` R227, the absence patterns R226, the bad step R171). -/

namespace Sys2Proof.Machine

/-- The `STATUS` code (R250). -/
def Status.code : Status → Byte
  | .ok => 0x00
  | .pinFault => 0x01
  | .busFault => 0x02
  | .dataTimeout => 0x03
  | .selfTestFailed => 0x04
  | .chipAbsent => 0x05
  | .illegalState => 0x0E
  | .illegalCommand => 0x0F

/-- The 24-bit response word: `STATUS` in bits 23:16, `RDATA` in bits 15:0 (R97). -/
def Response.word (r : Response) : RespWord := r.status.code ++ r.rdata

/-- The encoding of `LC`, 3 bits (R30). -/
def Lifecycle.code : Lifecycle → BitVec 3
  | .poweredOff => 0
  | .resetting => 1
  | .awaitingReady => 2
  | .slowSelfTest => 3
  | .clockBoosted => 4
  | .fastSelfTest => 5
  | .ready => 6

/-- `BEGIN`'s result: bit 0 is `SLOWOK`, bit 1 is `FASTOK`, the others 0 (R221). -/
def bringUpFlags (slowOk fastOk : Bool) : Half :=
  (BitVec.ofBool fastOk ++ BitVec.ofBool slowOk).setWidth 16

/-- Whether the cancel bit of a `MODE` value is set (R35, R183). -/
def cancelSet (m : Half) : Bool := m.getLsbD Config.smCancel

/-- The version field of a `STATUS` value, zero-extended (R36, R227). -/
def versionOf (s : Half) : Half :=
  (s.extractLsb' Config.statusVersionLo (Config.statusVersionHi - Config.statusVersionLo + 1)).setWidth 16

/-- Whether a `STATUS` value means "not connected" (R36, R226). -/
def statusAbsent (s : Half) : Bool := s == Config.statusAbsentA || s == Config.statusAbsentB

/-- A bad step: a readback differs from the written value, or the two readbacks differ (R171). -/
def badStep (written r1 r2 : Half) : Bool := r1 != written || r2 != written || r1 != r2

/-- `STOP`'s result: 0 for a clean stop, 1 for a forced stop (R183). -/
def forcedFlag (forced : Bool) : Half := if forced then 1 else 0

end Sys2Proof.Machine
end

