-- ==== Sys2Proof/Machine/Ops.lean ====
section
/-! DEFINITION. The shared operations: the bus mode (R24), the hardware primitives against the environment's answers (R11,
R12), ending a command (R11, R14), the one abort every fault takes (R260, R261) and the refusal (R256, R257), and how
procedures are put in sequence (R260 b). -/

namespace Sys2Proof.Machine

/-! ## Bus mode -/

/-- The bus mode of two latch values (R24). -/
def busMode : Level → Level → BusMode
  | .released, .released => .idle
  | .asserted, .released => .command
  | .released, .asserted => .data
  | .asserted, .asserted => .resetSignal

/-- The bus mode (R24). -/
def State.mode (s : State) : BusMode := busMode s.csc s.csd

/-- The bus mode an exchange of a kind is sent in (R24, R90). -/
def modeOfKind : Kind → BusMode
  | .command => .command
  | .data => .data

/-! ## The environment's answers (R12) -/

/-- The next answer to a `PinDrive`, scripted or free. -/
def Env.nextPin (e : Env) : PinAnswer × Env :=
  match e.pins with
  | a :: rest => (a, { e with pins := rest, drawn := e.drawn + 1 })
  | [] => (Config.freePinAnswer e.drawn, { e with drawn := e.drawn + 1 })

/-- The next answer to a `PinSample`, scripted or free. -/
def Env.nextSample (e : Env) : Sample × Env :=
  match e.samples with
  | a :: rest => (a, { e with samples := rest, drawn := e.drawn + 1 })
  | [] => (Config.freeSample e.drawn, { e with drawn := e.drawn + 1 })

/-- Exactly `n` received bytes (R11: "a list `rx` of exactly `len(tx)` bytes"): bytes beyond are cut, and a slot for which
the answer has no byte receives a free byte. -/
def fitRx (n draw : Nat) (rx : List Byte) : List Byte :=
  rx.take n ++ (List.range (n - rx.length)).map (fun k => Config.freeRxByte draw (rx.length + k))

/-- The answer to an exchange of `n` bytes, its received bytes made exactly `n`. -/
def fitAnswer (n draw : Nat) : XferAnswer → XferAnswer
  | .busFault => .busFault
  | .data rx => .data (fitRx n draw rx)

/-- The next answer to an `SpiXfer` of `n` bytes, scripted or free. -/
def Env.nextXfer (e : Env) (n : Nat) : XferAnswer × Env :=
  match e.xfers with
  | a :: rest => (fitAnswer n e.drawn a, { e with xfers := rest, drawn := e.drawn + 1 })
  | [] => (fitAnswer n e.drawn (Config.freeXferAnswer e.drawn), { e with drawn := e.drawn + 1 })

/-! ## The primitives (R11) -/

/-- The trace with one more event (R13). -/
def State.record (s : State) (e : Event) : State := { s with trace := e :: s.trace }

/-- The events recorded so far, oldest first (R13). -/
def State.events (s : State) : List Event := s.trace.reverse

/-- The latch of one line set to a level (R22, R23). -/
def State.setLatch (s : State) : Line → Level → State
  | .cmd, l => { s with csc := l }
  | .dat, l => { s with csd := l }

/-- `PinDrive(line, level)` (R11): the environment answers, the event is recorded, and on `ok` the latch takes the level;
on `PinFault` it keeps its value (R22, R23). -/
def pinDrive (line : Line) (level : Level) (s : State) : PinAnswer × State :=
  match s.env.nextPin with
  | (.ok, e) => (.ok, (State.record { s with env := e } (.pin line level .ok)).setLatch line level)
  | (.pinFault, e) => (.pinFault, State.record { s with env := e } (.pin line level .pinFault))

/-- `PinSample()` (R11): one fresh sample of the data-ready line (R25, R142). -/
def pinSample (s : State) : Sample × State :=
  match s.env.nextSample with
  | (a, e) => (a, State.record { s with env := e } (.sample a))

/-- `Delay(ms)` (R11, R305): an event and nothing else. -/
def delay (ms : Nat) (s : State) : State := s.record (.delay ms)

/-- `SpiXfer(speed, kind, tx)` (R11): one exchange of `tx.length` bytes in each direction. -/
def spiXfer (speed : Speed) (kind : Kind) (tx : List Byte) (s : State) : XferAnswer × State :=
  match s.env.nextXfer tx.length with
  | (a, e) => (a, State.record { s with env := e } (.xfer speed kind tx a))

/-- `MemRead(a, n)` (R11, R63): `n` bytes of `PB` from index `a`, lowest first. -/
def memRead (s : State) (a n : Nat) : List Byte := s.pb.slice a n

/-! ## Procedures in sequence -/

/-- The three faults a procedure can raise (R250: class abort). -/
inductive AbortReason where
  | pinFault
  | busFault
  | dataTimeout
  deriving DecidableEq, Repr

/-- How a procedure ends (R11, R14): normally with a value, or with a fault and its `info`. -/
inductive Result (α : Type) where
  | ok (a : α) (s : State)
  | raised (f : AbortReason) (info : Half) (s : State)
  deriving Repr

/-- What follows a procedure that ended normally; a fault goes through without any further step (R260 b). -/
def Result.andThen {α β : Type} (r : Result α) (k : α → State → Result β) : Result β :=
  match r with
  | .ok a s => k a s
  | .raised f info s => .raised f info s

/-- The state a procedure leaves, however it ended. -/
def Result.state {α : Type} : Result α → State
  | .ok _ s => s
  | .raised _ _ s => s

/-! ## Ending a command: completion, abort, refusal (R14) -/

/-- The status an abort reports (R250). -/
def AbortReason.status : AbortReason → Status
  | .pinFault => .pinFault
  | .busFault => .busFault
  | .dataTimeout => .dataTimeout

/-- The response word the command answers with (R97, R14). -/
def respond (st : Status) (rdata : Half) (s : State) : State := { s with response := some ⟨st, rdata⟩ }

/-- Taking a fault, for every command and every fault alike (R260: the block's "trap entry"): the status is the fault's
code, the data its `info`; nothing is saved, no register changes, and the block waits for the next command (R261, R262). -/
def takeAbort (f : AbortReason) (info : Half) (s : State) : State := respond f.status info s

/-- The refusal (R11, R14): no event, no register change. -/
def refuse (st : Status) (s : State) : State := respond st 0 s

/-- The end of a command whose procedure ended so: its response, or the abort. -/
def Result.finish : Result Response → State
  | .ok r s => respond r.status r.rdata s
  | .raised f info s => takeAbort f info s

/-- `return v` of a command: `STATUS = OK` (R11). -/
def okResponse (v : Half) : Response := ⟨.ok, v⟩

/-- A procedure whose value is the command's data. -/
def Result.answer (r : Result Half) : Result Response := r.andThen (fun v s => .ok (okResponse v) s)

/-- A procedure without a value: the command's data is 0 (R11). -/
def Result.done (r : Result Unit) : Result Response := r.andThen (fun _ s => .ok (okResponse 0) s)

/-- The admission check of every composite command: refused with `IllegalState` unless the bus mode is `Idle` (R257). -/
def whenIdle (k : State → Result Response) (s : State) : State :=
  if s.mode = .idle then (k s).finish else refuse .illegalState s

/-- The admission check of the commands that send fillers: bus mode `Idle` and `FILL ≠ none` (R257). -/
def whenIdleFilled (k : Half → State → Result Response) (s : State) : State :=
  match s.fill with
  | some v => whenIdle (k v) s
  | none => refuse .illegalState s

/-- Every instruction answers a next state: a refusal of the block is a response, not a stop (R14, R264). -/
def answered (s : State) : Host.Outcome State Fault Refusal := .next s

end Sys2Proof.Machine
end

