-- ==== Sys2Proof/Machine/PinGate.lean ====
section
/-! DEFINITION. The Pin Gate (40_pin_gate.md): the four procedures of R130 and the commands `SELECT_COMMAND`,
`DESELECT_COMMAND`, `SELECT_DATA`, `DESELECT_DATA` (R131 to R134). -/

namespace Sys2Proof.Machine

/-- A Pin Gate procedure (R130, R135): drive one line; `PinFault` is raised, the latch then keeps its value. -/
def drive (line : Line) (level : Level) (s : State) : Result Unit :=
  match pinDrive line level s with
  | (.ok, s') => .ok () s'
  | (.pinFault, s') => .raised .pinFault 0 s'

/-- `select_command()` (R130). -/
def selectCommand (s : State) : Result Unit := drive .cmd .asserted s

/-- `deselect_command()` (R130). -/
def deselectCommand (s : State) : Result Unit := drive .cmd .released s

/-- `select_data()` (R130). -/
def selectData (s : State) : Result Unit := drive .dat .asserted s

/-- `deselect_data()` (R130). -/
def deselectData (s : State) : Result Unit := drive .dat .released s

/-- `try deselect_command()` / `try deselect_data()` (R11, R263): the release of an exit path, its own fault discarded. -/
def tryRelease (line : Line) (s : State) : State := (pinDrive line .released s).2

/-- `SELECT_COMMAND` (R131): refused while the data-select latch is asserted. -/
def execSelectCommand (s : State) : Host.Outcome State Fault Refusal :=
  answered (if s.csd = .asserted then refuse .illegalState s else (selectCommand s).done.finish)

/-- `DESELECT_COMMAND` (R132): never refused. -/
def execDeselectCommand (s : State) : Host.Outcome State Fault Refusal :=
  answered (deselectCommand s).done.finish

/-- `SELECT_DATA` (R133): refused while the command-select latch is asserted. -/
def execSelectData (s : State) : Host.Outcome State Fault Refusal :=
  answered (if s.csc = .asserted then refuse .illegalState s else (selectData s).done.finish)

/-- `DESELECT_DATA` (R134): never refused. -/
def execDeselectData (s : State) : Host.Outcome State Fault Refusal :=
  answered (deselectData s).done.finish

end Sys2Proof.Machine
end

