-- ==== Sys2Proof/Machine/DataReady.lean ====
section
/-! DEFINITION. The Data-Ready Monitor (41_data_ready.md): the bounded ready-wait of R140 and the command `AWAIT_READY`
(R141). -/

namespace Sys2Proof.Machine

/-- The two results of a ready-wait (R140). -/
inductive WaitResult where
  | success
  | timeout
  deriving DecidableEq, Repr

/-- `await_ready(max_polls)` (R140): sample, then delay, at most `max_polls` times; here with the polls that are left. -/
def awaitReady : Nat → State → WaitResult × State
  | 0, s => (.timeout, s)
  | left + 1, s =>
    match pinSample s with
    | (.ready, s') => (.success, s')
    | (.notReady, s') => awaitReady left (delay Config.pollIntervalMs s')

/-- A ready-wait whose timeout is a `DataTimeout` of the running command (R144, R253), raised after the exit path. -/
def awaitOrRaise (bound : Nat) (info : Half) (exitPath : State → State) (s : State) : Result Unit :=
  match awaitReady bound s with
  | (.success, s') => .ok () s'
  | (.timeout, s') => .raised .dataTimeout info (exitPath s')

/-- `AWAIT_READY max_polls` (R141): never refused. -/
def execAwaitReady (maxPolls : Half) (s : State) : Host.Outcome State Fault Refusal :=
  answered (awaitOrRaise (countOf maxPolls) 0 id s).done.finish

end Sys2Proof.Machine
end

