-- ==== Sys2Proof/Machine/RegisterAccess.lean ====
section
/-! DEFINITION. The Register Access Protocol (42_register_access.md): the register transaction with its exit paths (R155),
`read_register`, `write_register`, the scratch helpers, and the commands `READ_REGISTER`, `WRITE_REGISTER`,
`SCRATCH_WRITE`, `SCRATCH_READ` (R151 to R154). -/

namespace Sys2Proof.Machine

/-- One exchange whose failure is a `BusFault` of the running command (R252), raised after the exit path. -/
def xferOrRaise (speed : Speed) (kind : Kind) (tx : List Byte) (info : Half) (exitPath : State → State) (s : State) :
    Result (List Byte) :=
  match spiXfer speed kind tx s with
  | (.data rx, s') => .ok rx s'
  | (.busFault, s') => .raised .busFault info (exitPath s')

/-- The shape R151 and R152 share: select, one exchange, ready-wait, deselect, with the four stops of R155. -/
def registerTransaction (speed : Speed) (tx : List Byte) (s : State) : Result (List Byte) :=
  (selectCommand s).andThen fun _ s =>
  (xferOrRaise speed .command tx 0 (tryRelease .cmd) s).andThen fun rx s =>
  (awaitOrRaise Config.readyPollBound 0 (tryRelease .cmd) s).andThen fun _ s =>
  (deselectCommand s).andThen fun _ s => .ok rx s

/-- `read_register(sel)` (R151), at `SPD` (R156). -/
def readRegister (r : ChipReg) (s : State) : Result Half :=
  (registerTransaction s.spd (readFrame s.cfg r) s).andThen fun rx s => .ok (readValue rx) s

/-- `write_register(speed, sel, value)` (R152). -/
def writeRegister (speed : Speed) (r : ChipReg) (v : Half) (s : State) : Result Unit :=
  (registerTransaction speed (writeFrame s.cfg r v) s).andThen fun _ s => .ok () s

/-- `scratch_write(address, data)` (R153): pointer first, then the data register, both at `SPD`. -/
def scratchWrite (address data : Half) (s : State) : Result Unit :=
  (writeRegister s.spd .scratchAddr address s).andThen fun _ s => writeRegister s.spd .scratchData data s

/-- `scratch_read(address)` (R154): pointer first, then a read of the data register. -/
def scratchRead (address : Half) (s : State) : Result Half :=
  (writeRegister s.spd .scratchAddr address s).andThen fun _ s => readRegister .scratchData s

/-- `READ_REGISTER reg` (R151). -/
def execReadRegister (r : ChipReg) (s : State) : Host.Outcome State Fault Refusal :=
  answered (whenIdle (fun s => (readRegister r s).answer) s)

/-- `WRITE_REGISTER speed, reg, value` (R152). -/
def execWriteRegister (speed : Speed) (r : ChipReg) (v : Half) (s : State) : Host.Outcome State Fault Refusal :=
  answered (whenIdle (fun s => (writeRegister speed r v s).done) s)

/-- `SCRATCH_WRITE address, data` (R153). -/
def execScratchWrite (address data : Half) (s : State) : Host.Outcome State Fault Refusal :=
  answered (whenIdle (fun s => (scratchWrite address data s).done) s)

/-- `SCRATCH_READ address` (R154). -/
def execScratchRead (address : Half) (s : State) : Host.Outcome State Fault Refusal :=
  answered (whenIdle (fun s => (scratchRead address s).answer) s)

end Sys2Proof.Machine
end

