-- ==== Sys2Proof/Machine/SelfTest.lean ====
section
/-! DEFINITION. The Self-Test Routine (43_self_test.md): the sweep of R170 to R173 and the command `SELF_TEST`. -/

namespace Sys2Proof.Machine

/-- The sweep step a probe chooses (R170). -/
def stepOf (c : Config) : Probe → Nat
  | .slowProbe => c.stepSlow
  | .fastProbe => c.stepFast

/-- One step of the sweep at index `i`: write, then read back twice; answers whether the step is bad (R170, R171). -/
def sweepStep (i : Nat) (s : State) : Result Bool :=
  (writeRegister s.spd .volume (sweepValue i) s).andThen fun _ s =>
  (readRegister .volume s).andThen fun r1 s =>
  (readRegister .volume s).andThen fun r2 s => .ok (badStep (sweepValue i) r1 r2) s

/-- The sweep from index `i` with `cnt` bad steps so far (R170, R172): it ends when `i` reaches the limit or `cnt` reaches
`SELFTEST_BAD_LIMIT`. The first argument bounds the steps; with `step ≥ 1` (R8) the limit itself is enough. -/
def sweep (step limit : Nat) : Nat → Nat → Nat → State → Result Nat
  | 0, _, cnt, s => .ok cnt s
  | fuel + 1, i, cnt, s =>
    if i < limit ∧ cnt < Config.selfTestBadLimit then
      (sweepStep i s).andThen fun bad s => sweep step limit fuel (i + step) (if bad then cnt + 1 else cnt) s
    else .ok cnt s

/-- `self_test(probe)` (R170): the entry check (R173), then the sweep from 0; answers the bad-step count and pass. -/
def selfTest (probe : Probe) (s : State) : Result (Bool × Nat) :=
  match pinSample s with
  | (.notReady, s') => .ok (false, 0) s'
  | (.ready, s') =>
    (sweep (stepOf s.cfg probe) s.cfg.sweepLimit s.cfg.sweepLimit 0 0 s').andThen fun cnt s => .ok (cnt == 0, cnt) s

/-- The response of `SELF_TEST`: `OK, 0` on pass, else the advisory `SelfTestFailed` with the count (R170, R254). -/
def selfTestResponse (pass : Bool) (cnt : Nat) : Response :=
  if pass then okResponse 0 else ⟨.selfTestFailed, BitVec.ofNat 16 cnt⟩

/-- `SELF_TEST probe` (R170): it touches no block register (D28). -/
def execSelfTest (probe : Probe) (s : State) : Host.Outcome State Fault Refusal :=
  answered (whenIdle (fun s => (selfTest probe s).andThen fun r s => .ok (selfTestResponse r.1 r.2) s) s)

end Sys2Proof.Machine
end

