-- ==== Sys2Proof/Machine/Streaming.lean ====
section
/-! DEFINITION. The Streaming Writer (44_streaming.md): `write_stream`, `flush_with_fillers` and `stop`, and the commands
`WRITE_STREAM`, `FLUSH_WITH_FILLERS`, `STOP` (R180 to R184). -/

namespace Sys2Proof.Machine

/-- One unit sent in data mode: a ready-wait, then one exchange at `SPD`; either fault releases data-select first
(R180, R182, R184). -/
def sendUnit (tx : List Byte) (info : Half) (s : State) : Result Unit :=
  (awaitOrRaise Config.readyPollBound info (tryRelease .dat) s).andThen fun _ s =>
  (xferOrRaise s.spd .data tx info (tryRelease .dat) s).andThen fun _ s => .ok () s

/-- `n <- min(chunk_size, L − cur)` (R180). -/
def chunkLength (len chunk cur : Nat) : Nat := min chunk (len - cur)

/-- The loop of `write_stream` from cursor `cur` (R180). The first argument bounds the chunks: with `chunk ≥ 1` (R106) the
length itself is enough. -/
def streamLoop (len chunk : Nat) : Nat → Nat → State → Result Unit
  | 0, _, s => .ok () s
  | fuel + 1, cur, s =>
    if cur < len then
      (sendUnit (memRead s cur (chunkLength len chunk cur)) (BitVec.ofNat 16 cur) s).andThen fun _ s =>
        streamLoop len chunk fuel (cur + chunkLength len chunk cur) s
    else .ok () s

/-- `write_stream(L, chunk_size)` (R180): data mode is entered once and left once. -/
def writeStream (len chunk : Nat) (s : State) : Result Unit :=
  (selectData s).andThen fun _ s =>
  (streamLoop len chunk len 0 s).andThen fun _ s => deselectData s

/-- The loop of `flush_with_fillers`, with the units that are left (R182). -/
def fillerLoop (fill : Half) : Nat → State → Result Unit
  | 0, s => .ok () s
  | left + 1, s => (sendUnit (fillerUnit fill) 0 s).andThen fun _ s => fillerLoop fill left s

/-- `flush_with_fillers(length)` with the latched filler value (R182). -/
def flushWithFillers (fill : Half) (len : Nat) (s : State) : Result Unit :=
  (selectData s).andThen fun _ s =>
  (fillerLoop fill len s).andThen fun _ s => deselectData s

/-- The polling loop of `stop`, with the iterations that are left: a small flush, then a read of `MODE`; answers whether
the stop was forced (R183). -/
def stopLoop (fill : Half) : Nat → State → Result Bool
  | 0, s => .ok true s
  | left + 1, s =>
    (flushWithFillers fill (countOf s.cfg.flushSmall) s).andThen fun _ s =>
    (readRegister .mode s).andThen fun m s => if cancelSet m then stopLoop fill left s else .ok false s

/-- `stop()` (R183): the large flush, the cancel write, then the polling loop. -/
def stopSequence (fill : Half) (s : State) : Result Bool :=
  (flushWithFillers fill (countOf s.cfg.flushLarge) s).andThen fun _ s =>
  (writeRegister s.spd .mode s.cfg.modeCancelValue s).andThen fun _ s =>
  stopLoop fill Config.stopRetryBound s

/-- `WRITE_STREAM L, chunk_size` (R180); `chunk_size = 0` is illegal (R106), which the decoder answers first. -/
def execWriteStream (len chunkSize : Half) (s : State) : Host.Outcome State Fault Refusal :=
  answered (
    if chunkSizeOk chunkSize then whenIdle (fun s => (writeStream (countOf len) (countOf chunkSize) s).done) s
    else refuse .illegalCommand s)

/-- `FLUSH_WITH_FILLERS length` (R182). -/
def execFlushWithFillers (len : Half) (s : State) : Host.Outcome State Fault Refusal :=
  answered (whenIdleFilled (fun fill s => (flushWithFillers fill (countOf len) s).done) s)

/-- `STOP` (R183): the data is 0 for a clean stop, 1 for a forced one. -/
def execStop (s : State) : Host.Outcome State Fault Refusal :=
  answered (whenIdleFilled (fun fill s =>
    (stopSequence fill s).andThen fun forced s => .ok (okResponse (forcedFlag forced)) s) s)

end Sys2Proof.Machine
end

