-- ==== Sys2Proof/Machine/VolumeBalance.lean ====
section
/-! DEFINITION. The Volume/Balance Model (45_volume_balance.md): the arithmetic of R200 to R204 and the commands
`SET_VOLUME`, `SET_BALANCE`, `GET_VOLUME` (R205 to R207). -/

namespace Sys2Proof.Machine

/-- `clamp_vol` (R200): saturates, never wraps. -/
def clampVol (v : Nat) : Nat := min v Config.volMax

/-- `clamp_bal` (R201): saturates, never wraps. -/
def clampBal (b : Int) : Int := max Config.balMin (min Config.balMax b)

/-- The left channel's input: reduced by a positive balance, saturating at 0 (R202). -/
def leftInput (v : Nat) (b : Int) : Nat := if b > 0 then (max 0 ((v : Int) - b)).toNat else v

/-- The right channel's input: boosted by a negative balance, saturating at `VOL_MAX` (R202). -/
def rightInput (v : Nat) (b : Int) : Nat := if b < 0 then min Config.volMax (v + b.natAbs) else v

/-- The width of the hardware range, `HW_LOUDEST` to `HW_QUIETEST` (R6, R39). -/
def hwSpan : Nat := Config.hwQuietest.toNat - Config.hwLoudest.toNat

/-- `hw(x)` (R203): the inverted map of 0 to `VOL_MAX` onto `HW_QUIETEST` to `HW_LOUDEST`, ties upward. -/
def hwByte (x : Nat) : Byte :=
  BitVec.ofNat 8 (Config.hwLoudest.toNat + ((Config.volMax - x) * hwSpan + Config.volMax / 2) / Config.volMax)

/-- `volume_model(v, b)` (R204, R107): the left byte in bits 15:8, the right byte in bits 7:0. -/
def volumeModel (v : Nat) (b : Int) : Half := joinBytes (hwByte (leftInput v b)) (hwByte (rightInput v b))

/-- `SET_VOLUME v` (R205): `VOL` first, then the register write at `SPD`. -/
def execSetVolume (v : Byte) (s : State) : Host.Outcome State Fault Refusal :=
  answered (whenIdle (fun s =>
    let s := { s with vol := clampVol (volumeOf v) }
    (writeRegister s.spd .volume (volumeModel s.vol s.bal) s).done) s)

/-- `SET_BALANCE b` (R206): stores only, never refused, cannot fault. -/
def execSetBalance (b : Half) (s : State) : Host.Outcome State Fault Refusal :=
  answered (Result.ok (okResponse 0) { s with bal := clampBal (balanceOf b) }).finish

/-- `GET_VOLUME` (R207): the stored volume, zero-extended. -/
def execGetVolume (s : State) : Host.Outcome State Fault Refusal :=
  answered (Result.ok (okResponse (BitVec.ofNat 16 s.vol)) s).finish

end Sys2Proof.Machine
end

