-- ==== Sys2Proof/Machine/Lifecycle.lean ====
section
/-! DEFINITION. The Lifecycle Controller (46_lifecycle.md): reset signalling (R222), bring-up (R221, R223), soft reset
(R224), and the commands `BEGIN`, `SWITCH_TO_MP3_MODE`, `SOFT_RESET`, `IS_CHIP_CONNECTED`, `GET_CHIP_VERSION`. -/

namespace Sys2Proof.Machine

/-- A Pin Gate drive inside reset signalling: its fault first releases the other line (R222). -/
def driveElseRelease (line : Line) (level : Level) (other : Line) (s : State) : Result Unit :=
  match pinDrive line level s with
  | (.ok, s') => .ok () s'
  | (.pinFault, s') => .raised .pinFault 0 (tryRelease other s')

/-- `reset_signalling()` (R222): both selects asserted with no bus traffic, hold, release, hold. -/
def resetSignalling (s : State) : Result Unit :=
  (selectData s).andThen fun _ s =>
  (driveElseRelease .cmd .asserted .dat s).andThen fun _ s =>
  (driveElseRelease .dat .released .cmd (delay s.cfg.tResetAssertMs s)).andThen fun _ s =>
  (deselectCommand s).andThen fun _ s => .ok () (delay s.cfg.tResetReleaseMs s)

/-- What `BEGIN` assigns at entry (R221, R228): the results of an earlier bring-up are invalidated. -/
def beginEntry (s : State) : State :=
  { s with slowOk := false, fastOk := false, fill := none, spd := .slow, lc := .resetting }

/-- The fast part of `BEGIN` after the clock write (R221): the fast self-test, when the binding runs it. -/
def fastStage (s : State) : Result Unit :=
  let s := { s with spd := .fast, lc := .clockBoosted }
  if s.cfg.runFastSelfTest then
    (selfTest .fastProbe { s with lc := .fastSelfTest }).andThen fun r s => .ok () { s with fastOk := r.1 }
  else .ok () s

/-- The clock boost and fast part, only after a passed slow self-test (R221, R223). -/
def boostStage (pass : Bool) (s : State) : Result Unit :=
  if pass then (writeRegister .slow .clock s.cfg.clockBoostValue s).andThen fun _ s => fastStage s
  else .ok () s

/-- The final probe: `FILL` is latched and `LC` becomes `Ready` (R221, R29). -/
def finalProbe (s : State) : Result Unit :=
  (scratchRead s.cfg.saEndFill s).andThen fun v s => .ok () { s with fill := some v, lc := .ready }

/-- `BEGIN`'s sequence (R221). The result of the `AwaitingReady` wait is ignored. -/
def bringUp (s : State) : Result Half :=
  (resetSignalling (beginEntry s)).andThen fun _ s =>
  (selfTest .slowProbe
    { (awaitReady Config.readyPollBound { s with lc := .awaitingReady }).2 with lc := .slowSelfTest }).andThen fun r s =>
  (boostStage r.1 { s with slowOk := r.1 }).andThen fun _ s =>
  (finalProbe s).andThen fun _ s => .ok (bringUpFlags s.slowOk s.fastOk) s

/-- `soft_reset()` (R224): the mode-register write, then a ready-wait with both lines released. -/
def softReset (s : State) : Result Unit :=
  (writeRegister s.spd .mode s.cfg.modeSoftResetValue s).andThen fun _ s =>
  awaitOrRaise Config.readyPollBound 0 id s

/-- `BEGIN` (R221): never refused. -/
def execBegin (s : State) : Host.Outcome State Fault Refusal := answered (bringUp s).answer.finish

/-- `SWITCH_TO_MP3_MODE` (R225): two scratch writes, a delay, a soft reset. -/
def execSwitchToMp3Mode (s : State) : Host.Outcome State Fault Refusal :=
  answered (whenIdle (fun s =>
    ((scratchWrite s.cfg.saGpioDir s.cfg.gpioDirValue s).andThen fun _ s =>
     (scratchWrite s.cfg.saGpioData s.cfg.gpioDataValue s).andThen fun _ s =>
     softReset (delay s.cfg.tMp3SwitchMs s)).done) s)

/-- `SOFT_RESET` (R224). -/
def execSoftReset (s : State) : Host.Outcome State Fault Refusal :=
  answered (whenIdle (fun s => (softReset s).done) s)

/-- The answer of `IS_CHIP_CONNECTED` for a status value: `OK, 1`, or the advisory `ChipAbsent, 0` (R226, R255). -/
def connectedResponse (status : Half) : Response :=
  if statusAbsent status then ⟨.chipAbsent, 0⟩ else okResponse 1

/-- `IS_CHIP_CONNECTED` (R226). -/
def execIsChipConnected (s : State) : Host.Outcome State Fault Refusal :=
  answered (whenIdle (fun s => (readRegister .status s).andThen fun v s => .ok (connectedResponse v) s) s)

/-- `GET_CHIP_VERSION` (R227): no absence check is made. -/
def execGetChipVersion (s : State) : Host.Outcome State Fault Refusal :=
  answered (whenIdle (fun s => (readRegister .status s).andThen fun v s => .ok (okResponse (versionOf v)) s) s)

end Sys2Proof.Machine
end

