-- ==== Sys2Proof/Machine/WireFrames.lean ====
section
/-! DEFINITION. The four wire frames as instructions of the bus engine (R90 to R94): the transaction that carries one frame
(R15, R68), from `Idle` to `Idle`, at `SPD`. No host command word selects one, and none sends a byte while a line is held by
hand (R137); see log entry 5. -/

namespace Sys2Proof.Machine

/-- One unit in a select bracket of its own (R15: "bounded by mode-on/mode-off brackets"): data-select, the unit after its
ready-wait, the release. -/
def dataTransaction (tx : List Byte) (s : State) : Result Unit :=
  (selectData s).andThen fun _ s => (sendUnit tx 0 s).andThen fun _ s => deselectData s

/-- `WIRE_READ_FRAME` (R91): the answer's last two bytes are the value. -/
def execWireReadFrame (r : ChipReg) (s : State) : Host.Outcome State Fault Refusal :=
  answered (whenIdle (fun s =>
    (registerTransaction s.spd (readFrame s.cfg r) s).andThen fun rx s => .ok (okResponse (readValue rx)) s) s)

/-- `WIRE_WRITE_FRAME` (R92): the received bytes are ignored. -/
def execWireWriteFrame (r : ChipReg) (v : Half) (s : State) : Host.Outcome State Fault Refusal :=
  answered (whenIdle (fun s =>
    (registerTransaction s.spd (writeFrame s.cfg r v) s).andThen fun _ s => .ok (okResponse 0) s) s)

/-- `WIRE_DATA_CHUNK` (R93): the bytes as they are, the received bytes ignored; a chunk of no byte, or of more than a
16-bit count allows, is no frame. -/
def execWireDataChunk (bytes : List Byte) (s : State) : Host.Outcome State Fault Refusal :=
  answered (
    if chunkBytesOk bytes then whenIdle (fun s => (dataTransaction bytes s).done) s
    else refuse .illegalCommand s)

/-- `WIRE_FILLER_UNIT` (R94): the two bytes of `FILL`; a unit that is not the latched filler value is refused. -/
def execWireFillerUnit (fill : Half) (s : State) : Host.Outcome State Fault Refusal :=
  answered (
    if s.fill = some fill then whenIdle (fun s => (dataTransaction (fillerUnit fill) s).done) s
    else refuse .illegalState s)

end Sys2Proof.Machine
end

