-- ==== Sys2Proof/Machine/Dispatch.lean ====
section
/-! DEFINITION. The meaning of every instruction, one arm per constructor. -/

namespace Sys2Proof.Machine

/-- The outcome of executing one instruction. -/
def exec (i : Instr) (s : State) : Host.Outcome State Fault Refusal :=
  match i with
  | .selectCommand => Sys2Proof.Machine.execSelectCommand s
  | .deselectCommand => Sys2Proof.Machine.execDeselectCommand s
  | .selectData => Sys2Proof.Machine.execSelectData s
  | .deselectData => Sys2Proof.Machine.execDeselectData s
  | .awaitReady maxPolls => Sys2Proof.Machine.execAwaitReady maxPolls s
  | .readRegister reg => Sys2Proof.Machine.execReadRegister reg s
  | .writeRegister speed reg value => Sys2Proof.Machine.execWriteRegister speed reg value s
  | .scratchWrite address data => Sys2Proof.Machine.execScratchWrite address data s
  | .scratchRead address => Sys2Proof.Machine.execScratchRead address s
  | .selfTest probe => Sys2Proof.Machine.execSelfTest probe s
  | .writeStream len chunkSize => Sys2Proof.Machine.execWriteStream len chunkSize s
  | .flushWithFillers len => Sys2Proof.Machine.execFlushWithFillers len s
  | .stop => Sys2Proof.Machine.execStop s
  | .setVolume v => Sys2Proof.Machine.execSetVolume v s
  | .setBalance b => Sys2Proof.Machine.execSetBalance b s
  | .getVolume => Sys2Proof.Machine.execGetVolume s
  | .begin => Sys2Proof.Machine.execBegin s
  | .switchToMp3Mode => Sys2Proof.Machine.execSwitchToMp3Mode s
  | .softReset => Sys2Proof.Machine.execSoftReset s
  | .isChipConnected => Sys2Proof.Machine.execIsChipConnected s
  | .getChipVersion => Sys2Proof.Machine.execGetChipVersion s
  | .wireReadFrame reg => Sys2Proof.Machine.execWireReadFrame reg s
  | .wireWriteFrame reg value => Sys2Proof.Machine.execWireWriteFrame reg value s
  | .wireDataChunk bytes => Sys2Proof.Machine.execWireDataChunk bytes s
  | .wireFillerUnit fill => Sys2Proof.Machine.execWireFillerUnit fill s

end Sys2Proof.Machine
end

