-- ==== Sys2Proof/Machine/Requests.lean ====
section
/-! DEFINITION. Taking the next request (R71, R262, R295): what step calls, so that a repair can mend it here. -/

namespace Sys2Proof.Machine

/-- The state in which the first request has been taken. -/
def State.take (s : State) : State := { s with requests := s.requests.tail }

/-- A packet that selects no instruction is refused with `IllegalCommand`, before any check of the state (R256, R259). -/
def refuseIllegal (s : State) : State := refuse .illegalCommand s

/-- Carrying out a packet: the check of its form comes first (R259). -/
def runPacket (p : Packet) (s : State) : Host.Outcome State Fault Refusal :=
  match decode s.cfg p with
  | .ok i => exec i s
  | .error _ => .next (refuseIllegal s)

/-- The host writes one byte of `PB` between commands (R63, R74). -/
def hostWritePayload (index : Half) (value : Byte) (s : State) : State :=
  { s with pb := s.pb.write index.toNat value }

/-- How a packet waits for the block: a command word is issued by the host, a frame is the bus engine's (R137). -/
def requestOf : Packet → Request
  | .command w => .issue w
  | .frame f => .frame f

end Sys2Proof.Machine
end

