-- ==== Sys2Proof/Machine/Step.lean ====
section
/-! DEFINITION. One step: the block takes the next request and carries it out whole (R71, R74: a command word is latched
whole and runs to its end); with no request it waits (R45). -/

namespace Sys2Proof.Machine

/-- One step of the machine. -/
def step (s : State) : Host.Outcome State Fault Refusal :=
  match s.requests with
  | [] => .next s
  | .writePayload index value :: _ => .next (hostWritePayload index value s.take)
  | .issue w :: _ => runPacket (.command w) s.take
  | .frame f :: _ => runPacket (.frame f) s.take

/-- The state with one word of the opcode table presented as the next request (log entry 3). -/
def State.withFetchWord (s : State) (nbits w : Nat) : State :=
  match packetOfTableWord nbits w with
  | some p => { s with requests := requestOf p :: s.requests }
  | none => s

end Sys2Proof.Machine
end

