-- ==== Sys2Proof/Safety.lean ====
section
/-! DEFINITION. What counts as a safe run, in the terms the claims use: scripted answers and the events they give, the
registers a command keeps, the register ranges, the bring-up stages, and the framing of bus traffic by the select latches
(R24). No step reads anything here. -/

namespace Sys2Proof.Machine

/-! ## Answers and the events they give

A claim about one command under given answers is written over ONE list of events, oldest first: `s.answering evs` is the
state whose environment answers as those events say, `s.after evs` the state in which they have happened. -/

/-- Bus mode `Idle`: both latches released (R24). -/
def State.Idle (s : State) : Prop := s.csc = .released ∧ s.csd = .released

/-- The answers to `PinDrive` in a list of events. -/
def pinAnswers (evs : List Event) : List PinAnswer :=
  evs.filterMap fun
    | .pin _ _ a => some a
    | .sample _ => none
    | .delay _ => none
    | .xfer _ _ _ _ => none

/-- The answers to `PinSample` in a list of events. -/
def sampleAnswers (evs : List Event) : List Sample :=
  evs.filterMap fun
    | .sample a => some a
    | .pin _ _ _ => none
    | .delay _ => none
    | .xfer _ _ _ _ => none

/-- The answers to `SpiXfer` in a list of events. -/
def xferAnswers (evs : List Event) : List XferAnswer :=
  evs.filterMap fun
    | .xfer _ _ _ a => some a
    | .pin _ _ _ => none
    | .sample _ => none
    | .delay _ => none

/-- The state in which the environment's next answers are those of these events, before whatever it would answer anyway
(R12). -/
def State.answering (s : State) (evs : List Event) : State :=
  { s with env :=
    { pins := pinAnswers evs ++ s.env.pins
      samples := sampleAnswers evs ++ s.env.samples
      xfers := xferAnswers evs ++ s.env.xfers
      drawn := s.env.drawn } }

/-- Whether an event took an answer of the environment: all but a delay (R11, R12). -/
def Event.isDraw : Event → Bool
  | .delay _ => false
  | .pin _ _ _ => true
  | .sample _ => true
  | .xfer _ _ _ _ => true

/-- The state after these events and nothing else: the trace has grown by them and their draws are taken. -/
def State.after (s : State) (evs : List Event) : State :=
  { s with
    trace := evs.reverse ++ s.trace
    env := { s.env with drawn := s.env.drawn + (evs.filter Event.isDraw).length } }

/-- `n` times `S=0 D(1)`: the events of a ready-wait of `n` polls that times out (R140). -/
def timeoutEvents : Nat → List Event
  | 0 => []
  | n + 1 => .sample .notReady :: .delay 1 :: timeoutEvents n

/-- The events of a ready-wait that succeeds on its sample number `k + 1` (R140). -/
def waitEvents (k : Nat) : List Event := timeoutEvents k ++ [.sample .ready]

/-- The events of one completed register transaction (R151, R152): select, frame, ready-wait, deselect. -/
def registerEvents (speed : Speed) (tx rx : List Byte) (k : Nat) : List Event :=
  .pin .cmd .asserted .ok :: .xfer speed .command tx (.data rx) :: (waitEvents k ++ [.pin .cmd .released .ok])

/-- The events of one unit sent in data mode (R180, R182): ready-wait, exchange. -/
def unitEvents (speed : Speed) (tx rx : List Byte) (k : Nat) : List Event :=
  waitEvents k ++ [.xfer speed .data tx (.data rx)]

/-- The environment's part of one completed transaction or unit: the bytes it answers, and how many samples read
`NotReady` before the one that read `Ready`. -/
structure Turn where
  rx : List Byte
  k  : Nat
  deriving DecidableEq, Repr, Inhabited

/-- The answer has as many bytes as were sent (R11), and the wait succeeds within the bound (R143). -/
def Turn.Ok (t : Turn) (n : Nat) : Prop := t.rx.length = n ∧ t.k < 2000

/-- The four stops of a register transaction (R155), with the environment's part in each. -/
inductive RegisterStop where
  /-- The select is answered `PinFault`. -/
  | atSelect
  /-- The exchange is answered `BusFault`; the deselect of the exit path is answered `a`. -/
  | atExchange (a : PinAnswer)
  /-- The ready-wait times out; the deselect of the exit path is answered `a`. -/
  | atWait (rx : List Byte) (a : PinAnswer)
  /-- The deselect on the normal path is answered `PinFault`. -/
  | atRelease (rx : List Byte) (k : Nat)
  deriving DecidableEq, Repr

/-- Answers of the right length, waits within the bound. -/
def RegisterStop.Ok : RegisterStop → Prop
  | .atSelect => True
  | .atExchange _ => True
  | .atWait rx _ => rx.length = 4
  | .atRelease rx k => rx.length = 4 ∧ k < 2000

/-- The events of a register transaction that stops (R155, column "Exit path run"). -/
def RegisterStop.events (speed : Speed) (tx : List Byte) : RegisterStop → List Event
  | .atSelect => [.pin .cmd .asserted .pinFault]
  | .atExchange a => [.pin .cmd .asserted .ok, .xfer speed .command tx .busFault, .pin .cmd .released a]
  | .atWait rx a =>
    .pin .cmd .asserted .ok :: .xfer speed .command tx (.data rx) :: (timeoutEvents 2000 ++ [.pin .cmd .released a])
  | .atRelease rx k =>
    .pin .cmd .asserted .ok :: .xfer speed .command tx (.data rx) :: (waitEvents k ++ [.pin .cmd .released .pinFault])

/-- The latch a release leaves: `Released` if it was answered `ok`, else still `Asserted` (R22, R155, R263). -/
def latchAfterRelease : PinAnswer → Level
  | .ok => .released
  | .pinFault => .asserted

/-- `CSC` afterwards (R155, last column). -/
def RegisterStop.csc : RegisterStop → Level
  | .atSelect => .released
  | .atExchange a => latchAfterRelease a
  | .atWait _ a => latchAfterRelease a
  | .atRelease _ _ => .asserted

/-- The fault raised (R155, column "Fault raised"). -/
def RegisterStop.status : RegisterStop → Status
  | .atSelect => .pinFault
  | .atExchange _ => .busFault
  | .atWait _ _ => .dataTimeout
  | .atRelease _ _ => .pinFault

/-- The two stops of a unit sent in data mode (R180, R182). -/
inductive UnitStop where
  /-- The ready-wait times out; the deselect of the exit path is answered `a`. -/
  | atWait (a : PinAnswer)
  /-- The exchange is answered `BusFault` after a wait; the deselect of the exit path is answered `a`. -/
  | atExchange (k : Nat) (a : PinAnswer)
  deriving DecidableEq, Repr

/-- The wait before a failed exchange is within the bound. -/
def UnitStop.Ok : UnitStop → Prop
  | .atWait _ => True
  | .atExchange k _ => k < 2000

/-- The events of a unit that stops. -/
def UnitStop.events (speed : Speed) (tx : List Byte) : UnitStop → List Event
  | .atWait a => timeoutEvents 2000 ++ [.pin .dat .released a]
  | .atExchange k a => waitEvents k ++ [.xfer speed .data tx .busFault, .pin .dat .released a]

/-- `CSD` afterwards. -/
def UnitStop.csd : UnitStop → Level
  | .atWait a => latchAfterRelease a
  | .atExchange _ a => latchAfterRelease a

/-- The fault raised. -/
def UnitStop.status : UnitStop → Status
  | .atWait _ => .dataTimeout
  | .atExchange _ _ => .busFault

/-- The events of the first `n` of a numbered family, in order. -/
def eventsUpTo (n : Nat) (f : Nat → List Event) : List Event := (List.range n).flatMap f

/-! ## The self-test under given answers -/

/-- The environment's part of one sweep step (R170): the write and the two reads. -/
structure StepTurns where
  write : Turn
  read1 : Turn
  read2 : Turn
  deriving DecidableEq, Repr, Inhabited

/-- Every transaction of the step completes. -/
def StepTurns.Ok (a : StepTurns) : Prop := a.write.Ok 4 ∧ a.read1.Ok 4 ∧ a.read2.Ok 4

/-- The events of one completed sweep step at index `i` (R170). -/
def stepEvents (c : Config) (speed : Speed) (i : Nat) (a : StepTurns) : List Event :=
  registerEvents speed (writeFrame c .volume (sweepValue i)) a.write.rx a.write.k ++
  (registerEvents speed (readFrame c .volume) a.read1.rx a.read1.k ++
   registerEvents speed (readFrame c .volume) a.read2.rx a.read2.k)

/-- Whether a step is bad: a readback differs from the written value, or the readbacks differ (R171). -/
def StepTurns.bad (a : StepTurns) (i : Nat) : Bool :=
  !(readValue a.read1.rx == sweepValue i && readValue a.read2.rx == sweepValue i)

/-- The bad steps among the first `n` steps of a sweep with step size `step` (R170, R171). -/
def badCount (step : Nat) (a : Nat → StepTurns) (n : Nat) : Nat :=
  ((List.range n).filter (fun j => (a j).bad (j * step))).length

/-- The number of steps of a sweep that is not ended early: `ceil(SWEEP_LIMIT / step)` (R172). -/
def fullSweep (c : Config) (probe : Probe) : Nat := (c.sweepLimit + stepOf c probe - 1) / stepOf c probe

/-- The sweep under the answers `a` has exactly `n` steps: it is full, or step `n` was the 20th bad one; no step before
was (R172). -/
def SweepLength (c : Config) (probe : Probe) (a : Nat → StepTurns) (n : Nat) : Prop :=
  (∀ j < n, (a j).Ok) ∧ n ≤ fullSweep c probe ∧ (∀ j < n, badCount (stepOf c probe) a j < 20) ∧
  (n = fullSweep c probe ∨ badCount (stepOf c probe) a n = 20)

/-- The events of the first `n` steps of a sweep. -/
def sweepEvents (c : Config) (speed : Speed) (probe : Probe) (a : Nat → StepTurns) (n : Nat) : List Event :=
  eventsUpTo n (fun j => stepEvents c speed (j * stepOf c probe) (a j))

/-- The stops of one sweep step (R175): at its write, at its first read, at its second read. -/
inductive StepStop where
  | atWrite (st : RegisterStop)
  | atRead1 (w : Turn) (st : RegisterStop)
  | atRead2 (w r1 : Turn) (st : RegisterStop)
  deriving DecidableEq, Repr

/-- The transactions of the step before the stop complete. -/
def StepStop.Ok : StepStop → Prop
  | .atWrite st => st.Ok
  | .atRead1 w st => w.Ok 4 ∧ st.Ok
  | .atRead2 w r1 st => w.Ok 4 ∧ r1.Ok 4 ∧ st.Ok

/-- The register transaction's stop. -/
def StepStop.stop : StepStop → RegisterStop
  | .atWrite st => st
  | .atRead1 _ st => st
  | .atRead2 _ _ st => st

/-- The events of a sweep step at index `i` that stops. -/
def StepStop.events (c : Config) (speed : Speed) (i : Nat) : StepStop → List Event
  | .atWrite st => st.events speed (writeFrame c .volume (sweepValue i))
  | .atRead1 w st =>
    registerEvents speed (writeFrame c .volume (sweepValue i)) w.rx w.k ++ st.events speed (readFrame c .volume)
  | .atRead2 w r1 st =>
    registerEvents speed (writeFrame c .volume (sweepValue i)) w.rx w.k ++
    (registerEvents speed (readFrame c .volume) r1.rx r1.k ++ st.events speed (readFrame c .volume))

/-- A self-test that stops in step `n` under the answers `a` for the steps before (R175). -/
structure TestStop where
  a  : Nat → StepTurns
  n  : Nat
  st : StepStop

/-- The answers let the sweep come as far as step `n`. -/
def TestStop.Ok (c : Config) (probe : Probe) (x : TestStop) : Prop :=
  (∀ j < x.n, (x.a j).Ok) ∧ x.n < fullSweep c probe ∧ (∀ j ≤ x.n, badCount (stepOf c probe) x.a j < 20) ∧ x.st.Ok

/-- The events of a self-test that stops. -/
def TestStop.events (c : Config) (speed : Speed) (probe : Probe) (x : TestStop) : List Event :=
  .sample .ready :: (sweepEvents c speed probe x.a x.n ++ x.st.events c speed (x.n * stepOf c probe))

/-- One self-test (R170): the line not ready at entry (R173), or a sweep of `n` steps under the answers `a`. -/
inductive TestRun where
  | notReady
  | swept (a : Nat → StepTurns) (n : Nat)

/-- The answers of a sweep give it exactly its `n` steps. -/
def TestRun.Ok (c : Config) (probe : Probe) : TestRun → Prop
  | .notReady => True
  | .swept a n => SweepLength c probe a n

/-- The events of a self-test, the entry sample first (R170, R173). -/
def TestRun.events (c : Config) (speed : Speed) (probe : Probe) : TestRun → List Event
  | .notReady => [.sample .notReady]
  | .swept a n => .sample .ready :: sweepEvents c speed probe a n

/-- Pass: a ready line at entry and zero bad steps (R170, R173). -/
def TestRun.pass (c : Config) (probe : Probe) : TestRun → Bool
  | .notReady => false
  | .swept a n => badCount (stepOf c probe) a n == 0

/-! ## Data-mode traffic under given answers -/

/-- The events of a completed burst in data mode: one select bracket around `n` units with these payloads (R180, R182). -/
def burstEvents (speed : Speed) (payload : Nat → List Byte) (n : Nat) (t : Nat → Turn) : List Event :=
  .pin .dat .asserted .ok ::
    (eventsUpTo n (fun j => unitEvents speed (payload j) (t j).rx (t j).k) ++ [.pin .dat .released .ok])

/-- Every one of the first `n` units completes. -/
def UnitsOk (payload : Nat → List Byte) (n : Nat) (t : Nat → Turn) : Prop := ∀ j < n, (t j).Ok (payload j).length

/-- The stops of a burst (R180, R182): at the select, at unit `j` after the units before it, at the release of the normal
path. -/
inductive BurstStop where
  | atSelect
  | atUnit (t : Nat → Turn) (j : Nat) (st : UnitStop)
  | atRelease (t : Nat → Turn)

/-- The answers let the burst come as far as the stop. -/
def BurstStop.Ok (payload : Nat → List Byte) (n : Nat) : BurstStop → Prop
  | .atSelect => True
  | .atUnit t j st => j < n ∧ UnitsOk payload j t ∧ st.Ok
  | .atRelease t => UnitsOk payload n t

/-- The events of a burst that stops. -/
def BurstStop.events (speed : Speed) (payload : Nat → List Byte) (n : Nat) : BurstStop → List Event
  | .atSelect => [.pin .dat .asserted .pinFault]
  | .atUnit t j st =>
    .pin .dat .asserted .ok ::
      (eventsUpTo j (fun j => unitEvents speed (payload j) (t j).rx (t j).k) ++ st.events speed (payload j))
  | .atRelease t =>
    .pin .dat .asserted .ok ::
      (eventsUpTo n (fun j => unitEvents speed (payload j) (t j).rx (t j).k) ++ [.pin .dat .released .pinFault])

/-- `CSD` afterwards (R155's rule for the select latches, R261). -/
def BurstStop.csd : BurstStop → Level
  | .atSelect => .released
  | .atUnit _ _ st => st.csd
  | .atRelease _ => .asserted

/-- The fault raised. -/
def BurstStop.status : BurstStop → Status
  | .atSelect => .pinFault
  | .atUnit _ _ st => st.status
  | .atRelease _ => .pinFault

/-- The units sent in exchanges that completed, where the fault reports it (R180: `RDATA = cur` on `DataTimeout` and
`BusFault`). -/
def BurstStop.unitsSent : BurstStop → Nat
  | .atSelect => 0
  | .atUnit _ j _ => j
  | .atRelease _ => 0

/-- The payloads of a flush: the filler unit, every time (R182). -/
def fillerPayload (fill : Half) : Nat → List Byte := fun _ => fillerUnit fill

/-- The number of chunks of a stream of `len` bytes: `ceil(L / C)` (R181, R209). -/
def chunkCount (len chunk : Nat) : Nat := (len + chunk - 1) / chunk

/-- The bytes of chunk `j`: `PB[j·C .. min((j+1)·C, L) − 1]` (R181). -/
def chunkBytes (pb : Memory) (len chunk j : Nat) : List Byte :=
  (List.range (min ((j + 1) * chunk) len - j * chunk)).map (fun k => pb.read (j * chunk + k))

/-- The environment's part of a `STOP` (R183): the units of the large flush, the cancel write, and for each iteration the
units of the small flush and the read of `MODE`. -/
structure StopRun where
  large : Nat → Turn
  write : Turn
  small : Nat → Nat → Turn
  read  : Nat → Turn

/-- Every transaction and unit of the first `n` iterations completes. -/
def StopRun.Ok (c : Config) (r : StopRun) (n : Nat) : Prop :=
  (∀ j < c.flushLarge.toNat, (r.large j).Ok 2) ∧ r.write.Ok 4 ∧
  (∀ i < n, (∀ j < c.flushSmall.toNat, (r.small i j).Ok 2) ∧ (r.read i).Ok 4)

/-- Whether the read of iteration `i` still has the cancel bit, bit 3, set (R35, R183). -/
def StopRun.held (r : StopRun) (i : Nat) : Bool := (readValue (r.read i).rx).getLsbD 3

/-- The events of a `STOP` up to and with the cancel write (R183). -/
def StopRun.headEvents (c : Config) (speed : Speed) (fill : Half) (r : StopRun) : List Event :=
  burstEvents speed (fillerPayload fill) c.flushLarge.toNat r.large ++
  registerEvents speed (writeFrame c .mode c.modeCancelValue) r.write.rx r.write.k

/-- The events of a `STOP` with `n` iterations (R183). -/
def StopRun.events (c : Config) (speed : Speed) (fill : Half) (r : StopRun) (n : Nat) : List Event :=
  r.headEvents c speed fill ++
  eventsUpTo n (fun i => burstEvents speed (fillerPayload fill) c.flushSmall.toNat (r.small i) ++
    registerEvents speed (readFrame c .mode) (r.read i).rx (r.read i).k)

/-! ## Bring-up under given answers -/

/-- The events of completed reset signalling (R222). -/
def resetEvents (c : Config) : List Event :=
  [.pin .dat .asserted .ok, .pin .cmd .asserted .ok, .delay c.tResetAssertMs,
   .pin .dat .released .ok, .pin .cmd .released .ok, .delay c.tResetReleaseMs]

/-- The stops of reset signalling (R222), with the answer to the release of the exit path. -/
inductive ResetStop where
  | atDataSelect
  | atCommandSelect (a : PinAnswer)
  | atDataRelease (a : PinAnswer)
  | atCommandRelease
  deriving DecidableEq, Repr

/-- The events of reset signalling that stops (R222). -/
def ResetStop.events (c : Config) : ResetStop → List Event
  | .atDataSelect => [.pin .dat .asserted .pinFault]
  | .atCommandSelect a => [.pin .dat .asserted .ok, .pin .cmd .asserted .pinFault, .pin .dat .released a]
  | .atDataRelease a =>
    [.pin .dat .asserted .ok, .pin .cmd .asserted .ok, .delay c.tResetAssertMs, .pin .dat .released .pinFault,
     .pin .cmd .released a]
  | .atCommandRelease =>
    [.pin .dat .asserted .ok, .pin .cmd .asserted .ok, .delay c.tResetAssertMs, .pin .dat .released .ok,
     .pin .cmd .released .pinFault]

/-- `CSC` afterwards: a failed assert leaves the latch as it was, a failed release leaves it asserted (R22, R261). -/
def ResetStop.csc (old : Level) : ResetStop → Level
  | .atDataSelect => old
  | .atCommandSelect _ => old
  | .atDataRelease a => latchAfterRelease a
  | .atCommandRelease => .asserted

/-- `CSD` afterwards (R23, R261). -/
def ResetStop.csd (old : Level) : ResetStop → Level
  | .atDataSelect => old
  | .atCommandSelect a => latchAfterRelease a
  | .atDataRelease _ => .asserted
  | .atCommandRelease => .released

/-- The ready-wait of stage `AwaitingReady`, whose result is ignored (R221): success on sample `k + 1`, or timeout. -/
def awaitingEvents : Option Nat → List Event
  | some k => waitEvents k
  | none => timeoutEvents 2000

/-- The wait is one `await_ready(2000)` can make. -/
def AwaitingOk : Option Nat → Prop
  | some k => k < 2000
  | none => True

/-- The environment's part of the final probe (R221): the pointer write and the read of the data register. -/
structure ProbeTurns where
  write : Turn
  read  : Turn
  deriving DecidableEq, Repr

/-- Both transactions complete. -/
def ProbeTurns.Ok (p : ProbeTurns) : Prop := p.write.Ok 4 ∧ p.read.Ok 4

/-- The events of the final probe (R221, R154). -/
def ProbeTurns.events (c : Config) (speed : Speed) (p : ProbeTurns) : List Event :=
  registerEvents speed (writeFrame c .scratchAddr c.saEndFill) p.write.rx p.write.k ++
  registerEvents speed (readFrame c .scratchData) p.read.rx p.read.k

/-- The events of `BEGIN` up to the end of the slow self-test (R221). -/
def slowPhaseEvents (c : Config) (w : Option Nat) (slow : TestRun) : List Event :=
  resetEvents c ++ (awaitingEvents w ++ slow.events c .slow .slowProbe)

/-- The five register writes of `SWITCH_TO_MP3_MODE`, in order (R225): two scratch writes of two each, the mode write. -/
def mp3Frame (c : Config) : Nat → List Byte
  | 0 => writeFrame c .scratchAddr c.saGpioDir
  | 1 => writeFrame c .scratchData c.gpioDirValue
  | 2 => writeFrame c .scratchAddr c.saGpioData
  | 3 => writeFrame c .scratchData c.gpioDataValue
  | _ => writeFrame c .mode c.modeSoftResetValue

/-- The delay that stands before the fifth write (R225). -/
def mp3Delay (c : Config) (j : Nat) : List Event := if j = 4 then [.delay c.tMp3SwitchMs] else []

/-- The events of the first `n` of the five writes (R225). -/
def mp3Events (c : Config) (speed : Speed) (t : Nat → Turn) (n : Nat) : List Event :=
  eventsUpTo n (fun j => mp3Delay c j ++ registerEvents speed (mp3Frame c j) (t j).rx (t j).k)

/-! ## The opcode map of R98 as data -/

/-- The extra condition of a row (R98). -/
inductive ExtraCondition where
  | none
  | selectorAtMost6
  | chunkNotZero
  deriving DecidableEq, Repr

/-- One row of the opcode map (R98). -/
structure OpcodeRow where
  mnemonic : String
  mask     : CmdWord
  fixed    : CmdWord
  extra    : ExtraCondition
  deriving DecidableEq, Repr

/-- A word selects the row when `w & mask = match` and the row's extra condition holds (R98). -/
def OpcodeRow.selects (r : OpcodeRow) (w : CmdWord) : Bool :=
  w &&& r.mask == r.fixed &&
  (match r.extra with
    | .none => true
    | .selectorAtMost6 => decide ((w.extractLsb' 32 8).toNat ≤ 6)
    | .chunkNotZero => w.extractLsb' 0 16 != 0)

/-- The 21 rows (R98). -/
def opcodeMap : List OpcodeRow :=
  [⟨"SELECT_COMMAND", 0xFFFFFFFFFFFF, 0x100000000000, .none⟩,
   ⟨"DESELECT_COMMAND", 0xFFFFFFFFFFFF, 0x110000000000, .none⟩,
   ⟨"SELECT_DATA", 0xFFFFFFFFFFFF, 0x120000000000, .none⟩,
   ⟨"DESELECT_DATA", 0xFFFFFFFFFFFF, 0x130000000000, .none⟩,
   ⟨"AWAIT_READY", 0xFFFFFFFF0000, 0x200000000000, .none⟩,
   ⟨"READ_REGISTER", 0xFF00FFFFFFFF, 0x300000000000, .selectorAtMost6⟩,
   ⟨"WRITE_REGISTER", 0xFF00FFFE0000, 0x310000000000, .selectorAtMost6⟩,
   ⟨"SCRATCH_WRITE", 0xFFFF00000000, 0x320000000000, .none⟩,
   ⟨"SCRATCH_READ", 0xFFFF0000FFFF, 0x330000000000, .none⟩,
   ⟨"SELF_TEST", 0xFFFEFFFFFFFF, 0x400000000000, .none⟩,
   ⟨"WRITE_STREAM", 0xFFFF00000000, 0x500000000000, .chunkNotZero⟩,
   ⟨"FLUSH_WITH_FILLERS", 0xFFFF0000FFFF, 0x510000000000, .none⟩,
   ⟨"STOP", 0xFFFFFFFFFFFF, 0x520000000000, .none⟩,
   ⟨"SET_VOLUME", 0xFFFFFFFFFF00, 0x600000000000, .none⟩,
   ⟨"SET_BALANCE", 0xFFFFFFFF0000, 0x610000000000, .none⟩,
   ⟨"GET_VOLUME", 0xFFFFFFFFFFFF, 0x620000000000, .none⟩,
   ⟨"BEGIN", 0xFFFFFFFFFFFF, 0x700000000000, .none⟩,
   ⟨"SWITCH_TO_MP3_MODE", 0xFFFFFFFFFFFF, 0x710000000000, .none⟩,
   ⟨"SOFT_RESET", 0xFFFFFFFFFFFF, 0x720000000000, .none⟩,
   ⟨"IS_CHIP_CONNECTED", 0xFFFFFFFFFFFF, 0x730000000000, .none⟩,
   ⟨"GET_CHIP_VERSION", 0xFFFFFFFFFFFF, 0x740000000000, .none⟩]

/-! ## Traces seen as data -/

/-- The payloads of the exchanges of a kind, in order (R181). -/
def payloads (kind : Kind) (evs : List Event) : List (List Byte) :=
  evs.filterMap fun
    | .xfer _ k tx _ => if k = kind then some tx else none
    | .pin _ _ _ => none
    | .sample _ => none
    | .delay _ => none

/-- Every exchange of kind `D` comes right after a sample that read `Ready` (R72, R181); `fresh` says whether the event
before the list was one. -/
def readyBeforeData : (fresh : Bool) → List Event → Bool
  | _, [] => true
  | fresh, .xfer _ .data _ _ :: rest => fresh && readyBeforeData false rest
  | _, .xfer _ .command _ _ :: rest => readyBeforeData false rest
  | _, .sample .ready :: rest => readyBeforeData true rest
  | _, .sample .notReady :: rest => readyBeforeData false rest
  | _, .delay _ :: rest => readyBeforeData false rest
  | _, .pin _ _ _ :: rest => readyBeforeData false rest

/-- Whether an event is an exchange on the bus. -/
def Event.isXfer : Event → Bool
  | .xfer _ _ _ _ => true
  | .pin _ _ _ => false
  | .sample _ => false
  | .delay _ => false

/-- Whether an event is a line that could not be driven. -/
def Event.isPinFault : Event → Bool
  | .pin _ _ .pinFault => true
  | .pin _ _ .ok => false
  | .sample _ => false
  | .delay _ => false
  | .xfer _ _ _ _ => false

/-! ## What a command keeps -/

/-- The block registers of R20 except the two select latches are the same. -/
def SameRegisters (s t : State) : Prop :=
  t.spd = s.spd ∧ t.vol = s.vol ∧ t.bal = s.bal ∧ t.fill = s.fill ∧ t.lc = s.lc ∧ t.slowOk = s.slowOk ∧ t.fastOk = s.fastOk

/-- What no command writes: the configuration (R44), the payload buffer (R63) and the host's requests; and the events
already recorded stay, the new ones coming after them (R71). -/
def SameSurroundings (s t : State) : Prop :=
  t.cfg = s.cfg ∧ t.pb = s.pb ∧ t.requests = s.requests ∧ ∃ evs, t.events = s.events ++ evs

end Sys2Proof.Machine

namespace Sys2Proof

/-- The commands that assign a block register other than a select latch (R261). -/
def Instr.assignsRegisters : Instr → Bool
  | .setVolume _ => true
  | .setBalance _ => true
  | .begin => true
  | .selectCommand => false
  | .deselectCommand => false
  | .selectData => false
  | .deselectData => false
  | .awaitReady _ => false
  | .readRegister _ => false
  | .writeRegister _ _ _ => false
  | .scratchWrite _ _ => false
  | .scratchRead _ => false
  | .selfTest _ => false
  | .writeStream _ _ => false
  | .flushWithFillers _ => false
  | .stop => false
  | .getVolume => false
  | .switchToMp3Mode => false
  | .softReset => false
  | .isChipConnected => false
  | .getChipVersion => false
  | .wireReadFrame _ => false
  | .wireWriteFrame _ _ => false
  | .wireDataChunk _ => false
  | .wireFillerUnit _ => false

/-- The composite instructions: those admitted in bus mode `Idle` only (R257), which pair every select themselves (R136). The
wire frames are among them by the model's choice (log entry 5). -/
def Instr.composite : Instr → Bool
  | .readRegister _ => true
  | .writeRegister _ _ _ => true
  | .scratchWrite _ _ => true
  | .scratchRead _ => true
  | .selfTest _ => true
  | .writeStream _ _ => true
  | .flushWithFillers _ => true
  | .stop => true
  | .setVolume _ => true
  | .switchToMp3Mode => true
  | .softReset => true
  | .isChipConnected => true
  | .getChipVersion => true
  | .wireReadFrame _ => true
  | .wireWriteFrame _ _ => true
  | .wireDataChunk _ => true
  | .wireFillerUnit _ => true
  | .selectCommand => false
  | .deselectCommand => false
  | .selectData => false
  | .deselectData => false
  | .awaitReady _ => false
  | .setBalance _ => false
  | .getVolume => false
  | .begin => false

end Sys2Proof

namespace Sys2Proof.Machine

/-! ## Invariants -/

/-- The stored volume and balance are in their ranges (R27, R28). -/
def RangesOk (s : State) : Prop := s.vol ≤ 100 ∧ -100 ≤ s.bal ∧ s.bal ≤ 100

/-- What the registers `BEGIN` writes hold between commands, stage by stage (R220, R221, R261): `FILL` is latched exactly
in `Ready`, `AwaitingReady` is never a resting stage, the bus is fast exactly after the clock write. -/
def StageOk (s : State) : Prop :=
  match s.lc with
  | .poweredOff => s.spd = .slow ∧ s.slowOk = false ∧ s.fastOk = false ∧ s.fill = none
  | .resetting => s.spd = .slow ∧ s.slowOk = false ∧ s.fastOk = false ∧ s.fill = none
  | .awaitingReady => False
  | .slowSelfTest => s.spd = .slow ∧ s.fastOk = false ∧ s.fill = none
  | .clockBoosted =>
    s.spd = .fast ∧ s.slowOk = true ∧ s.fastOk = false ∧ s.fill = none ∧ s.cfg.runFastSelfTest = false
  | .fastSelfTest => s.spd = .fast ∧ s.slowOk = true ∧ s.fill = none ∧ s.cfg.runFastSelfTest = true
  | .ready =>
    s.fill ≠ none ∧ (s.spd = .fast ↔ s.slowOk = true) ∧
    (s.fastOk = true → s.slowOk = true ∧ s.cfg.runFastSelfTest = true)

/-- Both latches are asserted only in stage `Resetting` (R24, fourth row). -/
def BothOnlyResetting (s : State) : Prop := s.csc = .asserted → s.csd = .asserted → s.lc = .resetting

/-- The levels of the command-select and data-select latches that the drives of a trace (newest first) leave, from both
released (R22, R23, R45). -/
def latchesOf : List Event → Level × Level
  | [] => (.released, .released)
  | .pin .cmd l .ok :: es => (l, (latchesOf es).2)
  | .pin .dat l .ok :: es => ((latchesOf es).1, l)
  | .pin _ _ .pinFault :: es => latchesOf es
  | .sample _ :: es => latchesOf es
  | .delay _ :: es => latchesOf es
  | .xfer _ _ _ _ :: es => latchesOf es

/-- Every exchange of a trace (newest first) was made in the bus mode of its kind (R24): kind `C` with command-select alone
asserted, kind `D` with data-select alone asserted. -/
def Framed : List Event → Prop
  | [] => True
  | .xfer _ kind _ _ :: es => busMode (latchesOf es).1 (latchesOf es).2 = modeOfKind kind ∧ Framed es
  | .pin _ _ _ :: es => Framed es
  | .sample _ :: es => Framed es
  | .delay _ :: es => Framed es

/-- The trace is framed, and the latches are what its drives leave (R22, R23, R24). -/
def TrafficOk (s : State) : Prop := latchesOf s.trace = (s.csc, s.csd) ∧ Framed s.trace

end Sys2Proof.Machine
end

