-- ==== Sys2Proof/Certificates/Slice0/Obligations.lean ====
section
/-! DEFINITION. The statements for the provers, from the numbered rules of spec/. A statement under given answers says the
whole next state: what is not named in it is unchanged (the frame), the trace has grown by exactly the events named, and
the answers named were all taken. -/

open Sys2Proof Sys2Proof.Machine

/-! ## Encoding (30_encoding.md) -/

/-- A few command words written out from R98, and the command each stands for (R99 to R104).
The words are the spec's own choice (D1, D3). -/
def Obligations.SampleWordsDecode : Prop :=
  ∀ c : Config,
    decode c (.command 0x300100000000) = .ok (.readRegister .status) ∧
    decode c (.command 0x310400011234) = .ok (.writeRegister .fast .volume 0x1234) ∧
    decode c (.command 0x3200C0170003) = .ok (.scratchWrite 0xC017 3) ∧
    decode c (.command 0x400100000000) = .ok (.selfTest .fastProbe) ∧
    decode c (.command 0x500000640020) = .ok (.writeStream 100 32) ∧
    decode c (.command 0x61000000FF6A) = .ok (.setBalance 0xFF6A) ∧
    decode c (.command 0x700000000000) = .ok .begin

/-- Decoding the packet of a well-formed instruction gives it back, for all commands and wire frames, every operand at
every value and every binding that meets R8 (R91 to R104).
The command words are the spec's own choice (D1, D3), the frames' split and filler too (D4, D5, D16). -/
def Obligations.DecodeOfEncode : Prop :=
  ∀ (c : Config) (i : Instr), WellFormed i → decode c (encode c i) = .ok i

/-- A legal command word has one spelling: every bit R98 marks zero is zero, so the word is its command's encoding and the
command is well-formed (R105, R106).
Must-be-zero fields are the spec's own choice (D1, D12). -/
def Obligations.LegalWordIsItsEncoding : Prop :=
  ∀ (c : Config) (w : CmdWord) (i : Instr),
    decode c (.command w) = .ok i → WellFormed i ∧ encode c i = .command w

/-- The decoder is the opcode map of R98: a word selects a row exactly when it decodes, and to the row's mnemonic.
The map is the spec's own choice (D1). -/
def Obligations.DecoderIsTheOpcodeMap : Prop :=
  ∀ (c : Config) (w : CmdWord) (m : String),
    (∃ row ∈ opcodeMap, row.selects w = true ∧ row.mnemonic = m) ↔
    (∃ i, decode c (.command w) = .ok i ∧ i.mnemonic = m)

/-- A word that no row of R98 selects is refused: `IllegalCommand, 0`, no event, no register change, in every bus mode,
before any check of the state (R106, R256, R259).
The refusal is the spec's own choice (D12). -/
def Obligations.IllegalWordRefused : Prop :=
  ∀ (s : State) (w : CmdWord) (rest : List Request),
    s.requests = .issue w :: rest → (∀ row ∈ opcodeMap, row.selects w = false) →
    step s = .next { s with requests := rest, response := some ⟨.illegalCommand, 0⟩ }

/-! ## The step -/

/-- When the next request is a command word that decodes to an instruction, the step is that instruction's meaning in the
state with the request taken (R71, R74); the same for a wire frame that the bus engine is given.
That packets wait as requests is the model's choice (log entries 3 and 5). -/
def Obligations.StepRunsDecoded : Prop :=
  ∀ (s : State) (rest : List Request) (i : Instr),
    (∀ w : CmdWord, s.requests = .issue w :: rest → decode s.cfg (.command w) = .ok i →
      step s = exec i { s with requests := rest }) ∧
    (∀ f : Frame, s.requests = .frame f :: rest → decode s.cfg (.frame f) = .ok i →
      step s = exec i { s with requests := rest })

/-- With no request the block waits, unchanged (R45: "after construction the block waits for a host command"); a byte the
host writes into `PB` between commands changes that byte alone (R63), where the buffer has its canonical form, which every
step keeps (`StepKeepsPayloadCanonical`).
The request list is the model's choice (log entries 3 and 8); `PB` itself is the spec's own (D15, D26). -/
def Obligations.StepWithoutCommand : Prop :=
  (∀ s : State, s.requests = [] → step s = .next s) ∧
  (∀ (s : State) (i : Half) (b : Byte) (rest : List Request), s.pb.wf = true → s.requests = .writePayload i b :: rest →
    ∃ pb, step s = .next { s with requests := rest, pb := pb } ∧
      ∀ a, pb.read a = if a = i.toNat then b else s.pb.read a)

/-! ## Construction (10_state.md, 70_reset_and_hazards.md) -/

/-- What construction leaves, for every binding of the open parameters (R45, R290): no event, `LC = PoweredOff`, latches
`Released`, `SPD = Slow`, `VOL = VOL_RESET`, `BAL = BAL_RESET`, `FILL = none`, both flags 0.
The latch values, `SPD`, `FILL` and the flags are the spec's own choice (D20). -/
def Obligations.ConstructionValues : Prop :=
  ∀ c : Config, ∃ s, State.construct c = s ∧ s.cfg = c ∧ s.trace = [] ∧ s.requests = [] ∧
    s.lc = .poweredOff ∧ s.lc.code = 0 ∧ s.csc = .released ∧ s.csd = .released ∧ s.mode = .idle ∧ s.spd = .slow ∧
    s.vol = c.volReset ∧ s.vol ≤ 100 ∧ s.bal = c.balReset ∧ -100 ≤ s.bal ∧ s.bal ≤ 100 ∧
    s.fill = none ∧ s.slowOk = false ∧ s.fastOk = false

/-! ## Pin Gate (40_pin_gate.md) -/

/-- `SELECT_COMMAND` (R131): refused while data-select is asserted, else it drives the line and nothing else; on `PinFault`
the latch keeps its value.
The refusal is the spec's own choice (D11). -/
def Obligations.SelectCommandMeaning : Prop :=
  ∀ s : State,
    (s.csd = .asserted → exec .selectCommand s = .next { s with response := some ⟨.illegalState, 0⟩ }) ∧
    (s.csd = .released →
      exec .selectCommand (s.answering [.pin .cmd .asserted .ok]) =
        .next { s.after [.pin .cmd .asserted .ok] with csc := .asserted, response := some ⟨.ok, 0⟩ } ∧
      exec .selectCommand (s.answering [.pin .cmd .asserted .pinFault]) =
        .next { s.after [.pin .cmd .asserted .pinFault] with response := some ⟨.pinFault, 0⟩ })

/-- `SELECT_DATA` (R133): as `SELECT_COMMAND` with the lines exchanged.
The refusal is the spec's own choice (D11). -/
def Obligations.SelectDataMeaning : Prop :=
  ∀ s : State,
    (s.csc = .asserted → exec .selectData s = .next { s with response := some ⟨.illegalState, 0⟩ }) ∧
    (s.csc = .released →
      exec .selectData (s.answering [.pin .dat .asserted .ok]) =
        .next { s.after [.pin .dat .asserted .ok] with csd := .asserted, response := some ⟨.ok, 0⟩ } ∧
      exec .selectData (s.answering [.pin .dat .asserted .pinFault]) =
        .next { s.after [.pin .dat .asserted .pinFault] with response := some ⟨.pinFault, 0⟩ })

/-- `DESELECT_COMMAND` and `DESELECT_DATA` (R132, R134), with their words: accepted in every bus mode, one drive of the one
line, which releases the latch or, on `PinFault`, leaves it. -/
def Obligations.DeselectMeanings : Prop :=
  ∀ s : State,
    encode s.cfg .deselectCommand = .command 0x110000000000 ∧ encode s.cfg .deselectData = .command 0x130000000000 ∧
    (exec .deselectCommand (s.answering [.pin .cmd .released .ok]) =
      .next { s.after [.pin .cmd .released .ok] with csc := .released, response := some ⟨.ok, 0⟩ }) ∧
    (exec .deselectCommand (s.answering [.pin .cmd .released .pinFault]) =
      .next { s.after [.pin .cmd .released .pinFault] with response := some ⟨.pinFault, 0⟩ }) ∧
    (exec .deselectData (s.answering [.pin .dat .released .ok]) =
      .next { s.after [.pin .dat .released .ok] with csd := .released, response := some ⟨.ok, 0⟩ }) ∧
    (exec .deselectData (s.answering [.pin .dat .released .pinFault]) =
      .next { s.after [.pin .dat .released .pinFault] with response := some ⟨.pinFault, 0⟩ })

/-! ## Data-ready (41_data_ready.md) -/

/-- `AWAIT_READY` (R140, R141), in every bus mode and with every bound: a line that reads `Ready` on sample `k + 1` ends the
wait with `k + 1` samples and `k` delays; one that never does within the bound ends it with `DataTimeout`.
The loop's shape is the spec's own choice (D7). -/
def Obligations.AwaitReadyMeaning : Prop :=
  ∀ (s : State) (n : Half),
    (∀ k < n.toNat, exec (.awaitReady n) (s.answering (waitEvents k)) =
      .next { s.after (waitEvents k) with response := some ⟨.ok, 0⟩ }) ∧
    exec (.awaitReady n) (s.answering (timeoutEvents n.toNat)) =
      .next { s.after (timeoutEvents n.toNat) with response := some ⟨.dataTimeout, 0⟩ }

/-- The bound (R143), whatever the line answers: at most `n` samples and `n` delays and nothing else, and `Timeout` only
after `n` samples that all read `NotReady`. -/
def Obligations.AwaitReadyBound : Prop :=
  ∀ (s t : State) (n : Half), exec (.awaitReady n) s = .next t →
    ∃ k ≤ n.toNat,
      (k < n.toNat ∧ t.events = s.events ++ waitEvents k ∧ t.response = some ⟨.ok, 0⟩) ∨
      (k = n.toNat ∧ t.events = s.events ++ timeoutEvents k ∧ t.response = some ⟨.dataTimeout, 0⟩)

/-! ## Register access (42_register_access.md) -/

/-- `READ_REGISTER` (R151), with its word and the bytes of its frame: a selector from 7 on is no command; refused unless
`Idle`; the value is the last two bytes received, high byte first; the four stops of the rule. -/
def Obligations.ReadRegisterMeaning : Prop :=
  ∀ (s : State) (r : ChipReg),
    let tx := [s.cfg.opRead, wireAddress s.cfg r, s.cfg.readFillByte, s.cfg.readFillByte]
    encode s.cfg (.readRegister r) = .command (packWord 0x30 (selectorOf r) 0 0) ∧
    (∀ sel : Byte, 7 ≤ sel.toNat → ∀ i, decode s.cfg (.command (packWord 0x30 sel 0 0)) ≠ .ok i) ∧
    (¬ s.Idle → exec (.readRegister r) s = .next { s with response := some ⟨.illegalState, 0⟩ }) ∧
    (s.Idle →
      (∀ (b0 b1 hi lo : Byte) (k : Nat), k < 2000 →
        exec (.readRegister r) (s.answering (registerEvents s.spd tx [b0, b1, hi, lo] k)) =
          .next { s.after (registerEvents s.spd tx [b0, b1, hi, lo] k) with response := some ⟨.ok, hi ++ lo⟩ }) ∧
      (∀ st : RegisterStop, st.Ok →
        exec (.readRegister r) (s.answering (st.events s.spd tx)) =
          .next { s.after (st.events s.spd tx) with csc := st.csc, response := some ⟨st.status, 0⟩ }))

/-- `WRITE_REGISTER` (R152), with its word and the bytes of its frame, at the operand's speed: a selector from 7 on or a `B`
above 1 is no command; `SPD` is unchanged; the four stops of the rule. -/
def Obligations.WriteRegisterMeaning : Prop :=
  ∀ (s : State) (sp : Speed) (r : ChipReg) (v : Half),
    let tx := [s.cfg.opWrite, wireAddress s.cfg r, v.extractLsb' 8 8, v.extractLsb' 0 8]
    encode s.cfg (.writeRegister sp r v) =
      .command (packWord 0x31 (selectorOf r) (match sp with | .slow => 0 | .fast => 1) v) ∧
    (∀ (sel : Byte) (b : Half), 7 ≤ sel.toNat ∨ 1 < b.toNat → ∀ i, decode s.cfg (.command (packWord 0x31 sel b v)) ≠ .ok i) ∧
    (¬ s.Idle → exec (.writeRegister sp r v) s = .next { s with response := some ⟨.illegalState, 0⟩ }) ∧
    (s.Idle →
      (∀ t : Turn, t.Ok 4 →
        exec (.writeRegister sp r v) (s.answering (registerEvents sp tx t.rx t.k)) =
          .next { s.after (registerEvents sp tx t.rx t.k) with response := some ⟨.ok, 0⟩ }) ∧
      (∀ st : RegisterStop, st.Ok →
        exec (.writeRegister sp r v) (s.answering (st.events sp tx)) =
          .next { s.after (st.events sp tx) with csc := st.csc, response := some ⟨st.status, 0⟩ }))

/-- `SCRATCH_WRITE` (R153), with its word: the pointer write, then the data write, both at `SPD`; a fault of the first ends
the command before the second; a fault of the second leaves the pointer written. -/
def Obligations.ScratchWriteMeaning : Prop :=
  ∀ (s : State) (a d : Half),
    let tx1 := writeFrame s.cfg .scratchAddr a
    let tx2 := writeFrame s.cfg .scratchData d
    encode s.cfg (.scratchWrite a d) = .command (packWord 0x32 0 a d) ∧
    (¬ s.Idle → exec (.scratchWrite a d) s = .next { s with response := some ⟨.illegalState, 0⟩ }) ∧
    (s.Idle →
      (∀ t1 t2 : Turn, t1.Ok 4 → t2.Ok 4 →
        let evs := registerEvents s.spd tx1 t1.rx t1.k ++ registerEvents s.spd tx2 t2.rx t2.k
        exec (.scratchWrite a d) (s.answering evs) = .next { s.after evs with response := some ⟨.ok, 0⟩ }) ∧
      (∀ st : RegisterStop, st.Ok →
        exec (.scratchWrite a d) (s.answering (st.events s.spd tx1)) =
          .next { s.after (st.events s.spd tx1) with csc := st.csc, response := some ⟨st.status, 0⟩ }) ∧
      (∀ (t1 : Turn) (st : RegisterStop), t1.Ok 4 → st.Ok →
        let evs := registerEvents s.spd tx1 t1.rx t1.k ++ st.events s.spd tx2
        exec (.scratchWrite a d) (s.answering evs) =
          .next { s.after evs with csc := st.csc, response := some ⟨st.status, 0⟩ }))

/-- `SCRATCH_READ` (R154), with its word: the pointer write, then a read of the data register, whose value is the answer;
the stops of either. -/
def Obligations.ScratchReadMeaning : Prop :=
  ∀ (s : State) (a : Half),
    let tx1 := writeFrame s.cfg .scratchAddr a
    let tx2 := readFrame s.cfg .scratchData
    encode s.cfg (.scratchRead a) = .command (packWord 0x33 0 a 0) ∧
    (¬ s.Idle → exec (.scratchRead a) s = .next { s with response := some ⟨.illegalState, 0⟩ }) ∧
    (s.Idle →
      (∀ (t1 : Turn) (b0 b1 hi lo : Byte) (k : Nat), t1.Ok 4 → k < 2000 →
        let evs := registerEvents s.spd tx1 t1.rx t1.k ++ registerEvents s.spd tx2 [b0, b1, hi, lo] k
        exec (.scratchRead a) (s.answering evs) = .next { s.after evs with response := some ⟨.ok, hi ++ lo⟩ }) ∧
      (∀ st : RegisterStop, st.Ok →
        exec (.scratchRead a) (s.answering (st.events s.spd tx1)) =
          .next { s.after (st.events s.spd tx1) with csc := st.csc, response := some ⟨st.status, 0⟩ }) ∧
      (∀ (t1 : Turn) (st : RegisterStop), t1.Ok 4 → st.Ok →
        let evs := registerEvents s.spd tx1 t1.rx t1.k ++ st.events s.spd tx2
        exec (.scratchRead a) (s.answering evs) =
          .next { s.after evs with csc := st.csc, response := some ⟨st.status, 0⟩ }))

/-! ## Self-test (43_self_test.md) -/

/-- `SELF_TEST` with the line ready at entry (R170 to R172): under any answers that complete its transactions it runs the
steps of R172, each a write and two reads, and answers `OK, 0` for no bad step, else `SelfTestFailed` with the count; no
block register changes.
The sweep's start, end and speed are the spec's own choice (D13); the status codes too (D2). -/
def Obligations.SelfTestSweepMeaning : Prop :=
  ∀ (s : State) (probe : Probe) (a : Nat → StepTurns) (n : Nat), s.Idle → SweepLength s.cfg probe a n →
    let evs := .sample .ready :: sweepEvents s.cfg s.spd probe a n
    let cnt := badCount (stepOf s.cfg probe) a n
    exec (.selfTest probe) (s.answering evs) =
      .next { s.after evs with
        response := some (if cnt = 0 then ⟨.ok, 0⟩ else ⟨.selfTestFailed, BitVec.ofNat 16 cnt⟩) }

/-- The entry check (R173): one sample, on `NotReady` the answer `SelfTestFailed, 0`, with neither a select line nor the bus
touched.
The status is the spec's own choice (D14). -/
def Obligations.SelfTestNotReadyFailsFast : Prop :=
  ∀ (s : State) (probe : Probe), s.Idle →
    exec (.selfTest probe) (s.answering [.sample .notReady]) =
      .next { s.after [.sample .notReady] with response := some ⟨.selfTestFailed, 0⟩ }

/-- A fault of any of the three register operations of any step ends `SELF_TEST` at once with that fault and `RDATA = 0`
(R175).
That faults propagate is the spec's own choice (D13), their exit paths too (D9). -/
def Obligations.SelfTestFaultPropagates : Prop :=
  ∀ (s : State) (probe : Probe) (x : TestStop), s.Idle → x.Ok s.cfg probe →
    exec (.selfTest probe) (s.answering (x.events s.cfg s.spd probe)) =
      .next { s.after (x.events s.cfg s.spd probe) with
        csc := x.st.stop.csc, response := some ⟨x.st.stop.status, 0⟩ }

/-- Whatever the environment answers (R172, R173): a passed sweep has made the three transactions of every step of the full
sweep; a failed one reports at most 20, and less than 20 only after the full sweep, or 0 with no transaction at all.
The number of steps rests on the spec's own choice (D13). -/
def Obligations.SelfTestCountBound : Prop :=
  ∀ (s t : State) (probe : Probe) (d : Half), exec (.selfTest probe) s = .next t →
    ∃ evs, t.events = s.events ++ evs ∧
      (t.response = some ⟨.ok, d⟩ → d = 0 ∧ (payloads .command evs).length = 3 * fullSweep s.cfg probe) ∧
      (t.response = some ⟨.selfTestFailed, d⟩ →
        d.toNat ≤ 20 ∧ (payloads .command evs).length ≤ 3 * fullSweep s.cfg probe ∧
        (d = 0 → evs = [.sample .notReady]) ∧
        (d ≠ 0 → d.toNat < 20 → (payloads .command evs).length = 3 * fullSweep s.cfg probe) ∧
        (d.toNat = 20 → 60 ≤ (payloads .command evs).length))

/-! ## Streaming (44_streaming.md) -/

/-- `WRITE_STREAM` (R180): one select bracket, each chunk after its own ready-wait; the stops, with the bytes already sent as
`RDATA`; refused unless `Idle`; `chunk_size = 0` is illegal.
`PB` and the data of an abort are the spec's own choice (D15); that the meaning itself, and not only the decoder, answers
`IllegalCommand` to a zero chunk is the model's (log entry 12). -/
def Obligations.WriteStreamMeaning : Prop :=
  ∀ (s : State) (len chunk : Half),
    let p := chunkBytes s.pb len.toNat chunk.toNat
    let n := chunkCount len.toNat chunk.toNat
    (chunk = 0 → exec (.writeStream len chunk) s = .next { s with response := some ⟨.illegalCommand, 0⟩ }) ∧
    (chunk ≠ 0 → ¬ s.Idle → exec (.writeStream len chunk) s = .next { s with response := some ⟨.illegalState, 0⟩ }) ∧
    (chunk ≠ 0 → s.Idle →
      (∀ t, UnitsOk p n t →
        exec (.writeStream len chunk) (s.answering (burstEvents s.spd p n t)) =
          .next { s.after (burstEvents s.spd p n t) with response := some ⟨.ok, 0⟩ }) ∧
      (∀ st : BurstStop, st.Ok p n →
        exec (.writeStream len chunk) (s.answering (st.events s.spd p n)) =
          .next { s.after (st.events s.spd p n) with
            csd := st.csd, response := some ⟨st.status, BitVec.ofNat 16 (st.unitsSent * chunk.toNat)⟩ }))

/-- The chunk law (R181), whatever the environment answers: a completed `WRITE_STREAM L, C` makes exactly `ceil(L / C)`
exchanges of kind `D` and none of kind `C`, chunk `m` carries `PB[m·C .. min((m+1)·C, L) − 1]`, the bytes sent are
`PB[0 .. L − 1]` in order, and every exchange comes right after a sample that read `Ready`. -/
def Obligations.StreamChunkLaw : Prop :=
  ∀ (s t : State) (len chunk : Half), exec (.writeStream len chunk) s = .next t → t.response = some ⟨.ok, 0⟩ →
    ∃ evs, t.events = s.events ++ evs ∧
      payloads .data evs =
        (List.range (chunkCount len.toNat chunk.toNat)).map (chunkBytes s.pb len.toNat chunk.toNat) ∧
      (payloads .data evs).flatten = (List.range len.toNat).map s.pb.read ∧
      payloads .command evs = [] ∧ readyBeforeData false evs = true

/-- `FLUSH_WITH_FILLERS` (R182): `length` units `FILL[15:8], FILL[7:0]` in one bracket, each after its own ready-wait; the
stops; refused unless `Idle` with `FILL` latched.
The unit, its byte order and the refusal are the spec's own choice (D16). -/
def Obligations.FlushMeaning : Prop :=
  ∀ (s : State) (len : Half),
    (s.fill = none → exec (.flushWithFillers len) s = .next { s with response := some ⟨.illegalState, 0⟩ }) ∧
    (¬ s.Idle → exec (.flushWithFillers len) s = .next { s with response := some ⟨.illegalState, 0⟩ }) ∧
    (∀ v : Half, s.Idle → s.fill = some v →
      let p : Nat → List Byte := fun _ => [v.extractLsb' 8 8, v.extractLsb' 0 8]
      (∀ t, UnitsOk p len.toNat t →
        exec (.flushWithFillers len) (s.answering (burstEvents s.spd p len.toNat t)) =
          .next { s.after (burstEvents s.spd p len.toNat t) with response := some ⟨.ok, 0⟩ }) ∧
      (∀ st : BurstStop, st.Ok p len.toNat →
        exec (.flushWithFillers len) (s.answering (st.events s.spd p len.toNat)) =
          .next { s.after (st.events s.spd p len.toNat) with csd := st.csd, response := some ⟨st.status, 0⟩ }))

/-- `STOP` that completes (R183): a clean stop on iteration `n` (from 0), where the cancel bit is first read clear, and a
forced stop after 200 iterations that all read it set.
The order inside an iteration and the result are the spec's own choice (D17). -/
def Obligations.StopCleanAndForced : Prop :=
  ∀ (s : State) (v : Half) (r : StopRun), s.Idle → s.fill = some v →
    (∀ n < 200, r.Ok s.cfg (n + 1) → (∀ i < n, r.held i = true) → r.held n = false →
      exec .stop (s.answering (r.events s.cfg s.spd v (n + 1))) =
        .next { s.after (r.events s.cfg s.spd v (n + 1)) with response := some ⟨.ok, 0⟩ }) ∧
    (r.Ok s.cfg 200 → (∀ i < 200, r.held i = true) →
      exec .stop (s.answering (r.events s.cfg s.spd v 200)) =
        .next { s.after (r.events s.cfg s.spd v 200) with response := some ⟨.ok, 1⟩ })

/-- A fault inside `STOP` aborts it and is reported (R183, R260): in the large flush, in the cancel write, and in iteration
`n` in the small flush or in the read of `MODE`.
That faults abort is the spec's own choice (D17), their exit paths too (D9). -/
def Obligations.StopFaultsAbort : Prop :=
  ∀ (s : State) (v : Half) (r : StopRun) (n : Nat), s.Idle → s.fill = some v → n < 200 → r.Ok s.cfg n →
    (∀ i < n, r.held i = true) →
    let p := fillerPayload v
    (∀ b : BurstStop, b.Ok p s.cfg.flushLarge.toNat →
      exec .stop (s.answering (b.events s.spd p s.cfg.flushLarge.toNat)) =
        .next { s.after (b.events s.spd p s.cfg.flushLarge.toNat) with csd := b.csd, response := some ⟨b.status, 0⟩ }) ∧
    (∀ st : RegisterStop, st.Ok →
      let evs := burstEvents s.spd p s.cfg.flushLarge.toNat r.large ++
        st.events s.spd (writeFrame s.cfg .mode s.cfg.modeCancelValue)
      exec .stop (s.answering evs) = .next { s.after evs with csc := st.csc, response := some ⟨st.status, 0⟩ }) ∧
    (∀ b : BurstStop, b.Ok p s.cfg.flushSmall.toNat →
      let evs := r.events s.cfg s.spd v n ++ b.events s.spd p s.cfg.flushSmall.toNat
      exec .stop (s.answering evs) = .next { s.after evs with csd := b.csd, response := some ⟨b.status, 0⟩ }) ∧
    (∀ (t : Nat → Turn) (st : RegisterStop), UnitsOk p s.cfg.flushSmall.toNat t → st.Ok →
      let evs := r.events s.cfg s.spd v n ++
        (burstEvents s.spd p s.cfg.flushSmall.toNat t ++ st.events s.spd (readFrame s.cfg .mode))
      exec .stop (s.answering evs) = .next { s.after evs with csc := st.csc, response := some ⟨st.status, 0⟩ })

/-- Whatever the environment answers, every data-mode exchange of a composite command comes right after a sample that read
`Ready` (R72: "before every chunk and every filler unit in the streaming operations").
Where the waits stand is the spec's choice between two sentences of its source (D8); the wire frames are composite by the
model's (log entry 5). -/
def Obligations.DataOnlyAfterReady : Prop :=
  ∀ (i : Instr) (s t : State), i.composite = true → exec i s = .next t →
    ∃ evs, t.events = s.events ++ evs ∧ readyBeforeData false evs = true

/-! ## Volume and balance (45_volume_balance.md) -/

/-- `hw(x)` (R203): the nearest integer to `(100 − x)·254/100`, a tie going upward, in 0x00..0xFE, strictly decreasing.
The tie rule is the spec's own choice (D18). -/
def Obligations.HwByteIsNearest : Prop :=
  ∀ x : Nat, x ≤ 100 →
    2 * ((100 - (x : Int)) * 254) - 100 < 2 * (100 * ((hwByte x).toNat : Int)) ∧
    2 * (100 * ((hwByte x).toNat : Int)) ≤ 2 * ((100 - (x : Int)) * 254) + 100 ∧
    (hwByte x).toNat ≤ 0xFE ∧ (∀ y : Nat, y < x → (hwByte x).toNat < (hwByte y).toNat)

/-- The channel inputs and the packing (R202, R204): the left byte in bits 15:8 from `max(0, v − b)` for a positive balance,
the right byte in bits 7:0 from `min(100, v + |b|)` for a negative one, both from `v` otherwise. -/
def Obligations.VolumeModelPacking : Prop :=
  ∀ (v : Nat) (b : Int), v ≤ 100 → -100 ≤ b → b ≤ 100 →
    ∃ l r : Nat, l ≤ 100 ∧ r ≤ 100 ∧ volumeModel v b = hwByte l ++ hwByte r ∧
      ((l : Int) = if b > 0 then max 0 (v - b) else (v : Int)) ∧
      ((r : Int) = if b < 0 then min 100 (v + |b|) else (v : Int))

/-- The properties of the volume model (R208 a to g), for every volume and balance.
The spec derives them from R202 to R204. -/
def Obligations.VolumeModelProperties : Prop :=
  (∀ (v : Nat) (b : Int), v ≤ 100 → -100 ≤ b → b ≤ 100 →
    let left := (volumeModel v b).extractLsb' 8 8
    let right := (volumeModel v b).extractLsb' 0 8
    left ≤ 0xFE ∧ right ≤ 0xFE ∧
    (0 ≤ b → right = hwByte v) ∧ (b ≤ 0 → left = hwByte v) ∧
    (0 < b → right ≤ left) ∧ (b < 0 → right ≤ left)) ∧
  volumeModel 100 0 = 0x0000 ∧ volumeModel 0 0 = 0xFEFE ∧ volumeModel 50 100 = 0xFE7F ∧ volumeModel 50 (-100) = 0x7F00

/-- `SET_VOLUME` (R205): refused unless `Idle`; `VOL` takes the clamped operand before the register write at `SPD`, and keeps
it when the write stops.
The order of the update and the write is the spec's own choice (D19). -/
def Obligations.SetVolumeMeaning : Prop :=
  ∀ (s : State) (v : Byte),
    let vol := min v.toNat 100
    let tx := writeFrame s.cfg .volume (volumeModel vol s.bal)
    (¬ s.Idle → exec (.setVolume v) s = .next { s with response := some ⟨.illegalState, 0⟩ }) ∧
    (s.Idle →
      (∀ t : Turn, t.Ok 4 →
        exec (.setVolume v) (s.answering (registerEvents s.spd tx t.rx t.k)) =
          .next { s.after (registerEvents s.spd tx t.rx t.k) with vol := vol, response := some ⟨.ok, 0⟩ }) ∧
      (∀ st : RegisterStop, st.Ok →
        exec (.setVolume v) (s.answering (st.events s.spd tx)) =
          .next { s.after (st.events s.spd tx) with vol := vol, csc := st.csc, response := some ⟨st.status, 0⟩ }))

/-- `SET_BALANCE` (R201, R206), in every state: no event; the balance is the signed operand clamped to −100..100.
That it stores only is the spec's own choice (D19). -/
def Obligations.SetBalanceMeaning : Prop :=
  ∀ (s : State) (b : Half), ∃ bal : Int,
    exec (.setBalance b) s = .next { s with bal := bal, response := some ⟨.ok, 0⟩ } ∧
    (b.toInt < -100 → bal = -100) ∧ (100 < b.toInt → bal = 100) ∧ (-100 ≤ b.toInt → b.toInt ≤ 100 → bal = b.toInt)

/-- `GET_VOLUME` (R207), with its word, in every state: no event; the stored volume is answered zero-extended; right after
construction it is `VOL_RESET`. -/
def Obligations.GetVolumeMeaning : Prop :=
  ∀ s : State, encode s.cfg .getVolume = .command 0x620000000000 ∧
    (s.vol ≤ 100 → ∃ d : Half, exec .getVolume s = .next { s with response := some ⟨.ok, d⟩ } ∧ d.toNat = s.vol) ∧
    (State.construct s.cfg).vol = s.cfg.volReset

/-! ## Lifecycle (46_lifecycle.md) -/

/-- `BEGIN` that completes (R221, R223, R228), from every bus mode and stage: reset signalling, the ready-wait whose result is
ignored, the slow self-test; only after a pass the clock write, `SPD = Fast` and, where the binding runs it, the fast
self-test; then the final probe, which latches `FILL`. `RDATA[0]` is `SLOWOK`, `RDATA[1]` is `FASTOK`.
The sequence is the spec's own choice throughout (D21). -/
def Obligations.BeginCompletes : Prop :=
  ∀ (s : State) (w : Option Nat) (slow fast : TestRun) (clock : Turn) (probe : ProbeTurns),
    AwaitingOk w → slow.Ok s.cfg .slowProbe → fast.Ok s.cfg .fastProbe → clock.Ok 4 → probe.Ok →
    let c := s.cfg
    let passed := slow.pass c .slowProbe
    let fastPassed := passed && c.runFastSelfTest && fast.pass c .fastProbe
    let speed := if passed then Speed.fast else Speed.slow
    let evs := slowPhaseEvents c w slow ++
      ((if passed then
          registerEvents .slow (writeFrame c .clock c.clockBoostValue) clock.rx clock.k ++
          (if c.runFastSelfTest then fast.events c .fast .fastProbe else [])
        else []) ++ probe.events c speed)
    exec .begin (s.answering evs) =
      .next { s.after evs with
        csc := .released, csd := .released, spd := speed, fill := some (readValue probe.read.rx), lc := .ready,
        slowOk := passed, fastOk := fastPassed,
        response := some ⟨.ok, (if passed then 1 else 0) + (if fastPassed then 2 else 0)⟩ }

/-- `BEGIN` that stops in reset signalling (R222), from every state: the exit path releases the other line, `PinFault` is
answered, `LC` stays `Resetting`, and what `BEGIN` invalidates at entry is invalidated (R228).
Reset signalling is the spec's own choice from general knowledge (D21). -/
def Obligations.BeginResetStops : Prop :=
  ∀ (s : State) (st : ResetStop),
    exec .begin (s.answering (st.events s.cfg)) =
      .next { s.after (st.events s.cfg) with
        csc := st.csc s.csc, csd := st.csd s.csd, spd := .slow, fill := none, lc := .resetting,
        slowOk := false, fastOk := false, response := some ⟨.pinFault, 0⟩ }

/-- `BEGIN` that stops later (R221, R223, R261): in the slow self-test, in the clock write, in the fast self-test, and in the
pointer write or the read of the final probe. The response carries the fault, `LC`, `SPD`, `SLOWOK`, `FASTOK` keep the
values assigned so far, `FILL` stays `none`.
The sequence is the spec's own choice throughout (D21). -/
def Obligations.BeginLaterStops : Prop :=
  ∀ (s : State) (w : Option Nat) (slow fast : TestRun) (clock ptr : Turn) (st : RegisterStop) (x : TestStop),
    AwaitingOk w → slow.Ok s.cfg .slowProbe → fast.Ok s.cfg .fastProbe → clock.Ok 4 → ptr.Ok 4 → st.Ok →
    let c := s.cfg
    let passed := slow.pass c .slowProbe
    let fastPassed := passed && c.runFastSelfTest && fast.pass c .fastProbe
    let speed := if passed then Speed.fast else Speed.slow
    let stage := if passed then (if c.runFastSelfTest then Lifecycle.fastSelfTest else .clockBoosted) else .slowSelfTest
    let reached := slowPhaseEvents c w slow ++
      (if passed then
          registerEvents .slow (writeFrame c .clock c.clockBoostValue) clock.rx clock.k ++
          (if c.runFastSelfTest then fast.events c .fast .fastProbe else [])
        else [])
    let base := { s with csd := .released, fill := none, slowOk := false, fastOk := false }
    (x.Ok c .slowProbe →
      let evs := resetEvents c ++ (awaitingEvents w ++ x.events c .slow .slowProbe)
      exec .begin (s.answering evs) =
        .next { base.after evs with
          csc := x.st.stop.csc, spd := .slow, lc := .slowSelfTest, response := some ⟨x.st.stop.status, 0⟩ }) ∧
    (passed = true →
      let evs := slowPhaseEvents c w slow ++ st.events .slow (writeFrame c .clock c.clockBoostValue)
      exec .begin (s.answering evs) =
        .next { base.after evs with
          csc := st.csc, spd := .slow, lc := .slowSelfTest, slowOk := true, response := some ⟨st.status, 0⟩ }) ∧
    (passed = true → c.runFastSelfTest = true → x.Ok c .fastProbe →
      let evs := slowPhaseEvents c w slow ++
        (registerEvents .slow (writeFrame c .clock c.clockBoostValue) clock.rx clock.k ++ x.events c .fast .fastProbe)
      exec .begin (s.answering evs) =
        .next { base.after evs with
          csc := x.st.stop.csc, spd := .fast, lc := .fastSelfTest, slowOk := true,
          response := some ⟨x.st.stop.status, 0⟩ }) ∧
    (
      let evs := reached ++ st.events speed (writeFrame c .scratchAddr c.saEndFill)
      exec .begin (s.answering evs) =
        .next { base.after evs with
          csc := st.csc, spd := speed, lc := stage, slowOk := passed, fastOk := fastPassed,
          response := some ⟨st.status, 0⟩ }) ∧
    (
      let evs := reached ++ (registerEvents speed (writeFrame c .scratchAddr c.saEndFill) ptr.rx ptr.k ++
        st.events speed (readFrame c .scratchData))
      exec .begin (s.answering evs) =
        .next { base.after evs with
          csc := st.csc, spd := speed, lc := stage, slowOk := passed, fastOk := fastPassed,
          response := some ⟨st.status, 0⟩ })

/-- Whatever the environment answers to `BEGIN` (R221, R229): it is never refused; it keeps `VOL` and `BAL`; with `OK` the
stage is `Ready`, `FILL` is latched, both lines are released and the data are the two flags; with a fault the stage is not
`Ready` and `FILL` is `none`.
The sequence is the spec's own choice throughout (D21). -/
def Obligations.BeginOutcomes : Prop :=
  ∀ s t : State, exec .begin s = .next t →
    t.vol = s.vol ∧ t.bal = s.bal ∧
    ((∃ d, t.response = some ⟨.ok, d⟩ ∧ d.getLsbD 0 = t.slowOk ∧ d.getLsbD 1 = t.fastOk ∧ d.toNat < 4 ∧
        t.lc = .ready ∧ t.fill.isSome = true ∧ t.Idle) ∨
     ((t.response = some ⟨.pinFault, 0⟩ ∨ t.response = some ⟨.busFault, 0⟩ ∨ t.response = some ⟨.dataTimeout, 0⟩) ∧
        t.lc ≠ .ready ∧ t.fill = none))

/-- `SOFT_RESET` (R224): the mode write of a value with the reset bit set, then a second ready-wait with both lines released;
the stops of the write, and the timeout of the second wait.
The value written is the spec's own choice (D22). -/
def Obligations.SoftResetMeaning : Prop :=
  ∀ s : State,
    let tx := writeFrame s.cfg .mode s.cfg.modeSoftResetValue
    s.cfg.modeSoftResetValue.getLsbD 2 = true ∧
    (¬ s.Idle → exec .softReset s = .next { s with response := some ⟨.illegalState, 0⟩ }) ∧
    (s.Idle →
      (∀ (t : Turn) (k : Nat), t.Ok 4 → k < 2000 →
        let evs := registerEvents s.spd tx t.rx t.k ++ waitEvents k
        exec .softReset (s.answering evs) = .next { s.after evs with response := some ⟨.ok, 0⟩ }) ∧
      (∀ t : Turn, t.Ok 4 →
        let evs := registerEvents s.spd tx t.rx t.k ++ timeoutEvents 2000
        exec .softReset (s.answering evs) = .next { s.after evs with response := some ⟨.dataTimeout, 0⟩ }) ∧
      (∀ st : RegisterStop, st.Ok →
        exec .softReset (s.answering (st.events s.spd tx)) =
          .next { s.after (st.events s.spd tx) with csc := st.csc, response := some ⟨st.status, 0⟩ }))

/-- `SWITCH_TO_MP3_MODE` (R225): five register writes in order, a delay before the fifth, then a ready-wait; a fault of write
`j` ends the sequence there.
The order and the speed are the spec's own choice (D23). -/
def Obligations.SwitchToMp3ModeMeaning : Prop :=
  ∀ (s : State) (t : Nat → Turn),
    (¬ s.Idle → exec .switchToMp3Mode s = .next { s with response := some ⟨.illegalState, 0⟩ }) ∧
    (s.Idle →
      (∀ k < 2000, (∀ j < 5, (t j).Ok 4) →
        let evs := mp3Events s.cfg s.spd t 5 ++ waitEvents k
        exec .switchToMp3Mode (s.answering evs) = .next { s.after evs with response := some ⟨.ok, 0⟩ }) ∧
      ((∀ j < 5, (t j).Ok 4) →
        let evs := mp3Events s.cfg s.spd t 5 ++ timeoutEvents 2000
        exec .switchToMp3Mode (s.answering evs) = .next { s.after evs with response := some ⟨.dataTimeout, 0⟩ }) ∧
      (∀ n < 5, (∀ j < n, (t j).Ok 4) → ∀ st : RegisterStop, st.Ok →
        let evs := mp3Events s.cfg s.spd t n ++ (mp3Delay s.cfg n ++ st.events s.spd (mp3Frame s.cfg n))
        exec .switchToMp3Mode (s.answering evs) =
          .next { s.after evs with csc := st.csc, response := some ⟨st.status, 0⟩ }))

/-- `IS_CHIP_CONNECTED` (R226): one read of `STATUS`; `ChipAbsent, 0` for 0x0000 and 0xFFFF, else `OK, 1`; the stops of the
read.
The response's shape is the spec's own choice (D24). -/
def Obligations.IsChipConnectedMeaning : Prop :=
  ∀ s : State,
    let tx := readFrame s.cfg .status
    (¬ s.Idle → exec .isChipConnected s = .next { s with response := some ⟨.illegalState, 0⟩ }) ∧
    (s.Idle →
      (∀ (b0 b1 hi lo : Byte) (k : Nat), k < 2000 →
        exec .isChipConnected (s.answering (registerEvents s.spd tx [b0, b1, hi, lo] k)) =
          .next { s.after (registerEvents s.spd tx [b0, b1, hi, lo] k) with
            response := some (if (hi = 0x00 ∧ lo = 0x00) ∨ (hi = 0xFF ∧ lo = 0xFF) then ⟨.chipAbsent, 0⟩ else ⟨.ok, 1⟩) }) ∧
      (∀ st : RegisterStop, st.Ok →
        exec .isChipConnected (s.answering (st.events s.spd tx)) =
          .next { s.after (st.events s.spd tx) with csc := st.csc, response := some ⟨st.status, 0⟩ }))

/-- `GET_CHIP_VERSION` (R227), with its word: one read of `STATUS`; the data are its bits 7:4, zero-extended, with no absence check; the
stops of the read. -/
def Obligations.GetChipVersionMeaning : Prop :=
  ∀ s : State,
    let tx := readFrame s.cfg .status
    encode s.cfg .getChipVersion = .command 0x740000000000 ∧
    (¬ s.Idle → exec .getChipVersion s = .next { s with response := some ⟨.illegalState, 0⟩ }) ∧
    (s.Idle →
      (∀ (b0 b1 hi lo : Byte) (k : Nat), k < 2000 →
        exec .getChipVersion (s.answering (registerEvents s.spd tx [b0, b1, hi, lo] k)) =
          .next { s.after (registerEvents s.spd tx [b0, b1, hi, lo] k) with
            response := some ⟨.ok, BitVec.ofNat 16 (lo.toNat / 16)⟩ }) ∧
      (∀ st : RegisterStop, st.Ok →
        exec .getChipVersion (s.answering (st.events s.spd tx)) =
          .next { s.after (st.events s.spd tx) with csc := st.csc, response := some ⟨st.status, 0⟩ }))

/-! ## Wire frames (30_encoding.md section 1) -/

/-- The two register frames (R91, R92), each in the transaction that carries it (R68): from `Idle`, the bytes of the frame in
one exchange at `SPD`, and the value of a read in the last two bytes received; the four stops of a register transaction.
That a frame can be executed alone is the model's choice (log entry 5). -/
def Obligations.WireRegisterFrameMeanings : Prop :=
  ∀ (s : State) (r : ChipReg) (v : Half), s.Idle →
    let rd := [s.cfg.opRead, wireAddress s.cfg r, s.cfg.readFillByte, s.cfg.readFillByte]
    let wr := [s.cfg.opWrite, wireAddress s.cfg r, v.extractLsb' 8 8, v.extractLsb' 0 8]
    (∀ (b0 b1 hi lo : Byte) (k : Nat), k < 2000 →
      exec (.wireReadFrame r) (s.answering (registerEvents s.spd rd [b0, b1, hi, lo] k)) =
        .next { s.after (registerEvents s.spd rd [b0, b1, hi, lo] k) with response := some ⟨.ok, hi ++ lo⟩ }) ∧
    (∀ t : Turn, t.Ok 4 →
      exec (.wireWriteFrame r v) (s.answering (registerEvents s.spd wr t.rx t.k)) =
        .next { s.after (registerEvents s.spd wr t.rx t.k) with response := some ⟨.ok, 0⟩ }) ∧
    (∀ st : RegisterStop, st.Ok →
      exec (.wireReadFrame r) (s.answering (st.events s.spd rd)) =
        .next { s.after (st.events s.spd rd) with csc := st.csc, response := some ⟨st.status, 0⟩ } ∧
      exec (.wireWriteFrame r v) (s.answering (st.events s.spd wr)) =
        .next { s.after (st.events s.spd wr) with csc := st.csc, response := some ⟨st.status, 0⟩ })

/-- The two data frames (R93, R94), each in a select bracket of its own: from `Idle`, one ready-wait, then the bytes in one
exchange at `SPD`; the stops of a unit and of its bracket. A filler unit is the latched value.
That a frame can be executed alone is the model's choice (log entry 5). -/
def Obligations.WireDataFrameMeanings : Prop :=
  ∀ s : State, s.Idle →
    (∀ bytes : List Byte, bytes ≠ [] → bytes.length ≤ 65535 →
      (∀ t : Turn, t.Ok bytes.length →
        let evs := burstEvents s.spd (fun _ => bytes) 1 (fun _ => t)
        exec (.wireDataChunk bytes) (s.answering evs) = .next { s.after evs with response := some ⟨.ok, 0⟩ }) ∧
      (∀ st : BurstStop, st.Ok (fun _ => bytes) 1 →
        let evs := st.events s.spd (fun _ => bytes) 1
        exec (.wireDataChunk bytes) (s.answering evs) =
          .next { s.after evs with csd := st.csd, response := some ⟨st.status, 0⟩ })) ∧
    (∀ v : Half, s.fill = some v →
      let p : Nat → List Byte := fun _ => [v.extractLsb' 8 8, v.extractLsb' 0 8]
      (∀ t : Turn, t.Ok 2 →
        let evs := burstEvents s.spd p 1 (fun _ => t)
        exec (.wireFillerUnit v) (s.answering evs) = .next { s.after evs with response := some ⟨.ok, 0⟩ }) ∧
      (∀ st : BurstStop, st.Ok p 1 →
        let evs := st.events s.spd p 1
        exec (.wireFillerUnit v) (s.answering evs) =
          .next { s.after evs with csd := st.csd, response := some ⟨st.status, 0⟩ }))

/-- Where a frame is refused, with no event: while a line is asserted, and a filler unit that is not the latched value with
`IllegalState`; a chunk of no byte or of more than a 16-bit count allows with `IllegalCommand`. No command word selects a
frame (R137: a host has none that sends raw bytes).
The refusals are the model's choice (log entries 5 and 12). -/
def Obligations.WireFramesRefused : Prop :=
  ∀ s : State,
    (¬ s.Idle → ∀ (r : ChipReg) (v : Half),
      exec (.wireReadFrame r) s = .next { s with response := some ⟨.illegalState, 0⟩ } ∧
      exec (.wireWriteFrame r v) s = .next { s with response := some ⟨.illegalState, 0⟩ }) ∧
    (∀ bytes : List Byte,
      (¬ s.Idle → bytes ≠ [] → bytes.length ≤ 65535 →
        exec (.wireDataChunk bytes) s = .next { s with response := some ⟨.illegalState, 0⟩ }) ∧
      ((bytes = [] ∨ 65535 < bytes.length) →
        exec (.wireDataChunk bytes) s = .next { s with response := some ⟨.illegalCommand, 0⟩ })) ∧
    (∀ v : Half, (¬ s.Idle ∨ s.fill ≠ some v) →
      exec (.wireFillerUnit v) s = .next { s with response := some ⟨.illegalState, 0⟩ }) ∧
    (∀ (c : Config) (w : CmdWord) (i : Instr), decode c (.command w) = .ok i →
      (∀ r, i ≠ .wireReadFrame r) ∧ (∀ r v, i ≠ .wireWriteFrame r v) ∧ (∀ b, i ≠ .wireDataChunk b) ∧
      (∀ v, i ≠ .wireFillerUnit v))

/-! ## Outcomes, admission and frames of all instructions (60_exceptions.md) -/

/-- Every command answers, whatever the environment does (R14, R250, R264): a next state with a response; a refusal changes
nothing but the response; `SelfTestFailed` comes from `SELF_TEST` only and `ChipAbsent` from `IS_CHIP_CONNECTED` only.
The codes are the spec's own choice (D2); what a wire frame answers is the model's (log entry 5). -/
def Obligations.EveryInstructionAnswers : Prop :=
  ∀ (i : Instr) (s : State), ∃ t st d, exec i s = .next t ∧ t.response = some ⟨st, d⟩ ∧
    ((st = .illegalCommand ∨ st = .illegalState) → d = 0 ∧ t = { s with response := some ⟨st, d⟩ }) ∧
    (st = .selfTestFailed → ∃ p, i = .selfTest p) ∧ (st = .chipAbsent → i = .isChipConnected) ∧
    (st = .illegalCommand → WellFormed i → False)

/-- The admission checks of the 21 commands (R257): a well-formed command is refused with `IllegalState` exactly when its
precondition on the state does not hold. A wire frame's checks are beside them.
The preconditions are the spec's own choice (D11), those of the frames the model's (log entry 5). -/
def Obligations.AdmissionTable : Prop :=
  ∀ (i : Instr) (s t : State), exec i s = .next t → WellFormed i →
    (i = .selectCommand → ((∃ d, t.response = some ⟨.illegalState, d⟩) ↔ s.csd ≠ .released)) ∧
    (i = .selectData → ((∃ d, t.response = some ⟨.illegalState, d⟩) ↔ s.csc ≠ .released)) ∧
    (i.composite = true → (∀ n, i ≠ .flushWithFillers n) → i ≠ .stop → (∀ v, i ≠ .wireFillerUnit v) →
      ((∃ d, t.response = some ⟨.illegalState, d⟩) ↔ ¬ s.Idle)) ∧
    (((∃ n, i = .flushWithFillers n) ∨ i = .stop) →
      ((∃ d, t.response = some ⟨.illegalState, d⟩) ↔ ¬ (s.Idle ∧ s.fill ≠ none))) ∧
    (∀ v, i = .wireFillerUnit v →
      ((∃ d, t.response = some ⟨.illegalState, d⟩) ↔ ¬ (s.Idle ∧ s.fill = some v))) ∧
    ((i = .deselectCommand ∨ i = .deselectData ∨ (∃ n, i = .awaitReady n) ∨ (∃ b, i = .setBalance b) ∨ i = .getVolume ∨
        i = .begin) → ∀ d, t.response ≠ some ⟨.illegalState, d⟩)

/-- R137: with a line held by hand no byte crosses the bus, whatever is requested and whatever the environment answers.
Every step that is not `BEGIN` (which first drives both lines itself, R228) makes no exchange, and the last line of
`AdmissionTable` names the commands that still run.
Refusing them is the spec's own choice (D11). -/
def Obligations.NoBytesWhileHeldByHand : Prop :=
  ∀ s t : State, ¬ s.Idle → (∀ rest, s.requests ≠ .issue 0x700000000000 :: rest) → step s = .next t →
    ∃ evs, t.events = s.events ++ evs ∧ evs.all (fun e => !e.isXfer) = true

/-- The frame of every instruction but `SET_VOLUME`, `SET_BALANCE` and `BEGIN`, whatever the environment answers (R261:
"every other command assigns no block register apart from the select latches").
For the wire frames it is the model's choice (log entry 5). -/
def Obligations.OthersAssignNoRegister : Prop :=
  ∀ (i : Instr) (s t : State), i.assignsRegisters = false → exec i s = .next t → SameRegisters s t

/-- The frame of the three commands that assign registers, whatever the environment answers: `SET_VOLUME` writes `VOL` alone,
with the clamped operand exactly when it is admitted (R205); `SET_BALANCE` writes `BAL` alone, and neither latch (R206);
`BEGIN` keeps `VOL` and `BAL` (R228).
D19 and D21 are the spec's own choices. -/
def Obligations.AssigningCommandsFrame : Prop :=
  ∀ s t : State,
    (∀ v, exec (.setVolume v) s = .next t →
      SameRegisters { s with vol := t.vol } t ∧ (s.Idle → t.vol = min v.toNat 100) ∧ (¬ s.Idle → t = { s with response := t.response })) ∧
    (∀ b, exec (.setBalance b) s = .next t →
      SameRegisters { s with bal := t.bal } t ∧ t.csc = s.csc ∧ t.csd = s.csd ∧ t.trace = s.trace ∧ t.env = s.env) ∧
    (exec .begin s = .next t → t.vol = s.vol ∧ t.bal = s.bal)

/-- What no instruction writes, whatever the environment answers: the configuration (R44), every byte of the payload buffer
("The block never writes `PB`", R63), the host's requests; and its events come after all events before it (R71).
The request list and the trace in the state are the model's choice (log entries 3 and 7). -/
def Obligations.SurroundingsFrame : Prop :=
  ∀ (i : Instr) (s t : State), exec i s = .next t →
    SameSurroundings s t ∧ ∀ a, t.pb.read a = s.pb.read a

/-- The select latches after a composite command (R136, R261), whatever the environment answers: from `Idle`, unless one of
the command's drives was answered `PinFault`, both are `Released` when it ends.
The exit paths are the spec's own choice (D9); the wire frames are composite by the model's (log entry 5). -/
def Obligations.CompositePairsItsSelects : Prop :=
  ∀ (i : Instr) (s t : State), i.composite = true → s.Idle → exec i s = .next t →
    ∃ evs, t.events = s.events ++ evs ∧ (evs.all (fun e => !e.isPinFault) = true → t.Idle)

/-! ## Invariants -/

/-- R24, for every state and every answer: if the trace so far is framed by the latches, it still is after the step. No
exchange happens while both latches are asserted, every exchange of kind `C` with command-select alone asserted, every
exchange of kind `D` with data-select alone asserted.
The spec derives R24 from other rules; the model's invariant leaves out its qualifier, since a failed drive keeps the
latch and ends the procedure (log entry 17). -/
def Obligations.StepKeepsTrafficFramed : Prop :=
  ∀ s t : State, TrafficOk s → step s = .next t → TrafficOk t

/-- What BEGIN's registers hold between commands (R220, R221, R261), the ranges of `VOL` and `BAL` (R27, R28), and both
latches asserted only in `Resetting` (R24): every step keeps all three together.
The stages are the spec's own choice (D21); the invariant is the model's. -/
def Obligations.StepKeepsStages : Prop :=
  ∀ s t : State, StageOk s → RangesOk s → BothOnlyResetting s → step s = .next t →
    StageOk t ∧ RangesOk t ∧ BothOnlyResetting t

/-- The payload buffer keeps its canonical form: equal buffers are equal lists.
The form is the model's (log entry 6). -/
def Obligations.StepKeepsPayloadCanonical : Prop :=
  ∀ s t : State, s.pb.wf = true → step s = .next t → t.pb.wf = true

/-- The three invariants hold right after construction with every binding, and at reset (R45).
The reset binding is the model's choice (log entries 1 and 2). -/
def Obligations.ConstructionMeetsInvariants : Prop :=
  (∀ c : Config, TrafficOk (State.construct c) ∧ StageOk (State.construct c) ∧ RangesOk (State.construct c) ∧
    BothOnlyResetting (State.construct c) ∧ (State.construct c).pb.wf = true) ∧
  core.reset = State.construct Config.bindGK
end

