-- ==== Sys2Proof/Laws/State.lean ====
section
/-! SUPPORT. The small lemmas of the state's updates: one per field per update, and how the updates commute. -/

namespace Sys2Proof.Machine

variable (s : State) (evs evs' : List Event)

/-! ## `record`, `setLatch` -/

@[simp] theorem record_cfg (e : Event) : (s.record e).cfg = s.cfg := rfl
@[simp] theorem record_csc (e : Event) : (s.record e).csc = s.csc := rfl
@[simp] theorem record_csd (e : Event) : (s.record e).csd = s.csd := rfl
@[simp] theorem record_spd (e : Event) : (s.record e).spd = s.spd := rfl
@[simp] theorem record_vol (e : Event) : (s.record e).vol = s.vol := rfl
@[simp] theorem record_bal (e : Event) : (s.record e).bal = s.bal := rfl
@[simp] theorem record_fill (e : Event) : (s.record e).fill = s.fill := rfl
@[simp] theorem record_lc (e : Event) : (s.record e).lc = s.lc := rfl
@[simp] theorem record_slowOk (e : Event) : (s.record e).slowOk = s.slowOk := rfl
@[simp] theorem record_fastOk (e : Event) : (s.record e).fastOk = s.fastOk := rfl
@[simp] theorem record_pb (e : Event) : (s.record e).pb = s.pb := rfl
@[simp] theorem record_requests (e : Event) : (s.record e).requests = s.requests := rfl
@[simp] theorem record_env (e : Event) : (s.record e).env = s.env := rfl
@[simp] theorem record_trace (e : Event) : (s.record e).trace = e :: s.trace := rfl
@[simp] theorem record_response (e : Event) : (s.record e).response = s.response := rfl

@[simp] theorem setLatch_cfg (l : Line) (v : Level) : (s.setLatch l v).cfg = s.cfg := by cases l <;> rfl
@[simp] theorem setLatch_spd (l : Line) (v : Level) : (s.setLatch l v).spd = s.spd := by cases l <;> rfl
@[simp] theorem setLatch_vol (l : Line) (v : Level) : (s.setLatch l v).vol = s.vol := by cases l <;> rfl
@[simp] theorem setLatch_bal (l : Line) (v : Level) : (s.setLatch l v).bal = s.bal := by cases l <;> rfl
@[simp] theorem setLatch_fill (l : Line) (v : Level) : (s.setLatch l v).fill = s.fill := by cases l <;> rfl
@[simp] theorem setLatch_lc (l : Line) (v : Level) : (s.setLatch l v).lc = s.lc := by cases l <;> rfl
@[simp] theorem setLatch_slowOk (l : Line) (v : Level) : (s.setLatch l v).slowOk = s.slowOk := by cases l <;> rfl
@[simp] theorem setLatch_fastOk (l : Line) (v : Level) : (s.setLatch l v).fastOk = s.fastOk := by cases l <;> rfl
@[simp] theorem setLatch_pb (l : Line) (v : Level) : (s.setLatch l v).pb = s.pb := by cases l <;> rfl
@[simp] theorem setLatch_requests (l : Line) (v : Level) : (s.setLatch l v).requests = s.requests := by cases l <;> rfl
@[simp] theorem setLatch_env (l : Line) (v : Level) : (s.setLatch l v).env = s.env := by cases l <;> rfl
@[simp] theorem setLatch_trace (l : Line) (v : Level) : (s.setLatch l v).trace = s.trace := by cases l <;> rfl
@[simp] theorem setLatch_response (l : Line) (v : Level) : (s.setLatch l v).response = s.response := by cases l <;> rfl
@[simp] theorem setLatch_cmd_csc (v : Level) : (s.setLatch .cmd v).csc = v := rfl
@[simp] theorem setLatch_cmd_csd (v : Level) : (s.setLatch .cmd v).csd = s.csd := rfl
@[simp] theorem setLatch_dat_csc (v : Level) : (s.setLatch .dat v).csc = s.csc := rfl
@[simp] theorem setLatch_dat_csd (v : Level) : (s.setLatch .dat v).csd = v := rfl

/-! ## `respond` -/

@[simp] theorem respond_cfg (st : Status) (d : Half) : (respond st d s).cfg = s.cfg := rfl
@[simp] theorem respond_csc (st : Status) (d : Half) : (respond st d s).csc = s.csc := rfl
@[simp] theorem respond_csd (st : Status) (d : Half) : (respond st d s).csd = s.csd := rfl
@[simp] theorem respond_spd (st : Status) (d : Half) : (respond st d s).spd = s.spd := rfl
@[simp] theorem respond_vol (st : Status) (d : Half) : (respond st d s).vol = s.vol := rfl
@[simp] theorem respond_bal (st : Status) (d : Half) : (respond st d s).bal = s.bal := rfl
@[simp] theorem respond_fill (st : Status) (d : Half) : (respond st d s).fill = s.fill := rfl
@[simp] theorem respond_lc (st : Status) (d : Half) : (respond st d s).lc = s.lc := rfl
@[simp] theorem respond_slowOk (st : Status) (d : Half) : (respond st d s).slowOk = s.slowOk := rfl
@[simp] theorem respond_fastOk (st : Status) (d : Half) : (respond st d s).fastOk = s.fastOk := rfl
@[simp] theorem respond_pb (st : Status) (d : Half) : (respond st d s).pb = s.pb := rfl
@[simp] theorem respond_requests (st : Status) (d : Half) : (respond st d s).requests = s.requests := rfl
@[simp] theorem respond_env (st : Status) (d : Half) : (respond st d s).env = s.env := rfl
@[simp] theorem respond_trace (st : Status) (d : Half) : (respond st d s).trace = s.trace := rfl
@[simp] theorem respond_response (st : Status) (d : Half) : (respond st d s).response = some ⟨st, d⟩ := rfl

/-! ## `answering`: the fields it leaves -/

@[simp] theorem answering_cfg : (s.answering evs).cfg = s.cfg := rfl
@[simp] theorem answering_csc : (s.answering evs).csc = s.csc := rfl
@[simp] theorem answering_csd : (s.answering evs).csd = s.csd := rfl
@[simp] theorem answering_spd : (s.answering evs).spd = s.spd := rfl
@[simp] theorem answering_vol : (s.answering evs).vol = s.vol := rfl
@[simp] theorem answering_bal : (s.answering evs).bal = s.bal := rfl
@[simp] theorem answering_fill : (s.answering evs).fill = s.fill := rfl
@[simp] theorem answering_lc : (s.answering evs).lc = s.lc := rfl
@[simp] theorem answering_slowOk : (s.answering evs).slowOk = s.slowOk := rfl
@[simp] theorem answering_fastOk : (s.answering evs).fastOk = s.fastOk := rfl
@[simp] theorem answering_pb : (s.answering evs).pb = s.pb := rfl
@[simp] theorem answering_requests : (s.answering evs).requests = s.requests := rfl
@[simp] theorem answering_trace : (s.answering evs).trace = s.trace := rfl
@[simp] theorem answering_response : (s.answering evs).response = s.response := rfl
@[simp] theorem answering_mode : (s.answering evs).mode = s.mode := rfl
@[simp] theorem answering_nil : s.answering [] = s := rfl

/-! ## `after` -/

@[simp] theorem after_cfg : (s.after evs).cfg = s.cfg := rfl
@[simp] theorem after_csc : (s.after evs).csc = s.csc := rfl
@[simp] theorem after_csd : (s.after evs).csd = s.csd := rfl
@[simp] theorem after_spd : (s.after evs).spd = s.spd := rfl
@[simp] theorem after_vol : (s.after evs).vol = s.vol := rfl
@[simp] theorem after_bal : (s.after evs).bal = s.bal := rfl
@[simp] theorem after_fill : (s.after evs).fill = s.fill := rfl
@[simp] theorem after_lc : (s.after evs).lc = s.lc := rfl
@[simp] theorem after_slowOk : (s.after evs).slowOk = s.slowOk := rfl
@[simp] theorem after_fastOk : (s.after evs).fastOk = s.fastOk := rfl
@[simp] theorem after_pb : (s.after evs).pb = s.pb := rfl
@[simp] theorem after_requests : (s.after evs).requests = s.requests := rfl
@[simp] theorem after_response : (s.after evs).response = s.response := rfl
@[simp] theorem after_mode : (s.after evs).mode = s.mode := rfl
@[simp] theorem after_nil : s.after [] = s := by simp [State.after]

@[simp] theorem after_events : (s.after evs).events = s.events ++ evs := by simp [State.after, State.events]

/-- Two runs of events one after the other are one run. -/
@[simp] theorem after_after : (s.after evs).after evs' = s.after (evs ++ evs') := by
  simp [State.after, Nat.add_assoc]

/-! ## How the updates commute: `answering` goes outside, then the latches, then `after` -/

@[simp] theorem setLatch_answering (l : Line) (v : Level) :
    (s.answering evs).setLatch l v = (s.setLatch l v).answering evs := by cases l <;> rfl

@[simp] theorem after_setLatch (l : Line) (v : Level) :
    (s.setLatch l v).after evs = (s.after evs).setLatch l v := by cases l <;> rfl

@[simp] theorem setLatch_setLatch (l : Line) (v w : Level) : (s.setLatch l v).setLatch l w = s.setLatch l w := by
  cases l <;> rfl

theorem setLatch_cmd_self {v : Level} (h : s.csc = v) : s.setLatch .cmd v = s := by cases h; rfl

theorem setLatch_dat_self {v : Level} (h : s.csd = v) : s.setLatch .dat v = s := by cases h; rfl

@[simp] theorem respond_answering (st : Status) (d : Half) :
    respond st d (s.answering evs) = (respond st d s).answering evs := rfl

/-! ## Requests and registers `BEGIN` assigns -/

@[simp] theorem take_requests : s.take.requests = s.requests.tail := rfl
@[simp] theorem take_cfg : s.take.cfg = s.cfg := rfl
@[simp] theorem take_csc : s.take.csc = s.csc := rfl
@[simp] theorem take_csd : s.take.csd = s.csd := rfl
@[simp] theorem take_spd : s.take.spd = s.spd := rfl
@[simp] theorem take_vol : s.take.vol = s.vol := rfl
@[simp] theorem take_bal : s.take.bal = s.bal := rfl
@[simp] theorem take_fill : s.take.fill = s.fill := rfl
@[simp] theorem take_lc : s.take.lc = s.lc := rfl
@[simp] theorem take_slowOk : s.take.slowOk = s.slowOk := rfl
@[simp] theorem take_fastOk : s.take.fastOk = s.fastOk := rfl
@[simp] theorem take_pb : s.take.pb = s.pb := rfl
@[simp] theorem take_trace : s.take.trace = s.trace := rfl
@[simp] theorem take_env : s.take.env = s.env := rfl
@[simp] theorem take_response : s.take.response = s.response := rfl

end Sys2Proof.Machine
end

