-- ==== Sys2Proof/Laws/Script.lean ====
section
/-! SUPPORT. What each primitive and each procedure does when the environment answers as a list of events says: it takes
exactly its own events from the front of the list and leaves the state after them. Later proofs cite these lemmas instead
of unfolding a procedure. -/

namespace Sys2Proof.Machine

variable (s : State) (evs : List Event)

/-! ## The primitives -/

@[simp] theorem pinDrive_answering_ok (l : Line) (v : Level) :
    pinDrive l v (s.answering (.pin l v .ok :: evs)) =
      (.ok, ((s.after [.pin l v .ok]).setLatch l v).answering evs) := by
  cases l <;> rfl

@[simp] theorem pinDrive_answering_pinFault (l : Line) (v : Level) :
    pinDrive l v (s.answering (.pin l v .pinFault :: evs)) =
      (.pinFault, (s.after [.pin l v .pinFault]).answering evs) := by
  cases l <;> rfl

@[simp] theorem pinSample_answering (a : Sample) :
    pinSample (s.answering (.sample a :: evs)) = (a, (s.after [.sample a]).answering evs) := rfl

@[simp] theorem delay_answering (ms : Nat) :
    delay ms (s.answering (.delay ms :: evs)) = (s.after [.delay ms]).answering evs := rfl

theorem delay_after (ms : Nat) : delay ms s = s.after [.delay ms] := rfl

/-- An answer of exactly the right length is taken as it is (R11). -/
@[simp] theorem fitRx_of_length {n draw : Nat} {rx : List Byte} (h : rx.length = n) : fitRx n draw rx = rx := by
  subst h; simp [fitRx]

/-- However long the answer, exactly `n` bytes are received (R11). -/
@[simp] theorem fitRx_length (n draw : Nat) (rx : List Byte) : (fitRx n draw rx).length = n := by
  simp [fitRx]; omega

theorem spiXfer_answering_data {sp : Speed} {kind : Kind} {tx rx : List Byte} (h : rx.length = tx.length) :
    spiXfer sp kind tx (s.answering (.xfer sp kind tx (.data rx) :: evs)) =
      (.data rx, (s.after [.xfer sp kind tx (.data rx)]).answering evs) := by
  simp [spiXfer, Env.nextXfer, State.answering, xferAnswers, fitAnswer, h]
  rfl

@[simp] theorem spiXfer_answering_busFault (sp : Speed) (kind : Kind) (tx : List Byte) :
    spiXfer sp kind tx (s.answering (.xfer sp kind tx .busFault :: evs)) =
      (.busFault, (s.after [.xfer sp kind tx .busFault]).answering evs) := rfl

/-! ## Pin Gate procedures (R130, R135) -/

@[simp] theorem drive_answering_ok (l : Line) (v : Level) :
    drive l v (s.answering (.pin l v .ok :: evs)) =
      .ok () (((s.after [.pin l v .ok]).setLatch l v).answering evs) := by
  simp [drive]

@[simp] theorem drive_answering_pinFault (l : Line) (v : Level) :
    drive l v (s.answering (.pin l v .pinFault :: evs)) =
      .raised .pinFault 0 ((s.after [.pin l v .pinFault]).answering evs) := by
  simp [drive]

/-- The release of an exit path, whatever the environment answers it (R263). -/
theorem tryRelease_answering (l : Line) (a : PinAnswer) {v : Level}
    (h : (match l with | .cmd => s.csc | .dat => s.csd) = .asserted) (hv : v = latchAfterRelease a) :
    tryRelease l (s.answering (.pin l .released a :: evs)) =
      ((s.after [.pin l .released a]).setLatch l v).answering evs := by
  subst hv
  cases a
  · simp [tryRelease, latchAfterRelease]
  · cases l
    · simp [tryRelease, latchAfterRelease, setLatch_cmd_self, h]
    · simp [tryRelease, latchAfterRelease, setLatch_dat_self, h]

@[simp] theorem andThen_ok {α β : Type} (a : α) (k : α → State → Result β) : (Result.ok a s).andThen k = k a s := rfl

@[simp] theorem andThen_raised {α β : Type} (f : AbortReason) (d : Half) (k : α → State → Result β) :
    (Result.raised f d s).andThen k = .raised f d s := rfl

/-! ## The ready-wait (R140, R143) -/

theorem awaitReady_timeout (n : Nat) :
    awaitReady n (s.answering (timeoutEvents n ++ evs)) = (.timeout, (s.after (timeoutEvents n)).answering evs) := by
  induction n generalizing s with
  | zero => simp [awaitReady, timeoutEvents]
  | succ n ih =>
    simp only [timeoutEvents, List.cons_append, awaitReady, pinSample_answering]
    rw [show Config.pollIntervalMs = 1 from rfl, delay_answering, ih]
    simp

theorem awaitReady_wait {k n : Nat} (h : k < n) :
    awaitReady n (s.answering (waitEvents k ++ evs)) = (.success, (s.after (waitEvents k)).answering evs) := by
  induction k generalizing s n with
  | zero =>
    obtain ⟨n, rfl⟩ : ∃ m, n = m + 1 := ⟨n - 1, by omega⟩
    simp [awaitReady, waitEvents, timeoutEvents]
  | succ k ih =>
    obtain ⟨n, rfl⟩ : ∃ m, n = m + 1 := ⟨n - 1, by omega⟩
    have := ih ((s.after [.sample .notReady]).after [.delay 1]) (n := n) (by omega)
    simp only [waitEvents, timeoutEvents, List.cons_append, awaitReady, pinSample_answering] at this ⊢
    rw [show Config.pollIntervalMs = 1 from rfl, delay_answering, this]
    simp

theorem awaitOrRaise_wait {k n : Nat} (h : k < n) (d : Half) (ex : State → State) :
    awaitOrRaise n d ex (s.answering (waitEvents k ++ evs)) = .ok () ((s.after (waitEvents k)).answering evs) := by
  simp [awaitOrRaise, awaitReady_wait s evs h]

theorem awaitOrRaise_timeout (n : Nat) (d : Half) (ex : State → State) :
    awaitOrRaise n d ex (s.answering (timeoutEvents n ++ evs)) =
      .raised .dataTimeout d (ex ((s.after (timeoutEvents n)).answering evs)) := by
  simp [awaitOrRaise, awaitReady_timeout]

theorem xferOrRaise_data {sp : Speed} {kind : Kind} {tx rx : List Byte} (h : rx.length = tx.length) (d : Half)
    (ex : State → State) :
    xferOrRaise sp kind tx d ex (s.answering (.xfer sp kind tx (.data rx) :: evs)) =
      .ok rx ((s.after [.xfer sp kind tx (.data rx)]).answering evs) := by
  simp [xferOrRaise, spiXfer_answering_data s evs h]

@[simp] theorem xferOrRaise_busFault (sp : Speed) (kind : Kind) (tx : List Byte) (d : Half) (ex : State → State) :
    xferOrRaise sp kind tx d ex (s.answering (.xfer sp kind tx .busFault :: evs)) =
      .raised .busFault d (ex ((s.after [.xfer sp kind tx .busFault]).answering evs)) := by
  simp [xferOrRaise]

/-! ## Register transactions (R151, R152, R155) -/

/-- The fault a stop raises, as the procedures raise it. -/
def RegisterStop.reason : RegisterStop → AbortReason
  | .atSelect => .pinFault
  | .atExchange _ => .busFault
  | .atWait _ _ => .dataTimeout
  | .atRelease _ _ => .pinFault

@[simp] theorem reason_status (st : RegisterStop) : st.reason.status = st.status := by cases st <;> rfl

/-- A register transaction that completes. -/
theorem registerTransaction_answering {sp : Speed} {tx : List Byte} {rx : List Byte} {k : Nat} (hc : s.csc = .released)
    (hr : rx.length = tx.length) (hk : k < 2000) :
    registerTransaction sp tx (s.answering (registerEvents sp tx rx k ++ evs)) =
      .ok rx ((s.after (registerEvents sp tx rx k)).answering evs) := by
  simp only [registerEvents, List.cons_append, List.append_assoc, registerTransaction, selectCommand, deselectCommand,
    drive_answering_ok, andThen_ok, xferOrRaise_data _ _ hr, awaitOrRaise_wait _ _ (show k < Config.readyPollBound from hk),
    List.nil_append]
  simp only [after_setLatch, setLatch_setLatch, after_after, List.cons_append, List.nil_append]
  rw [setLatch_cmd_self _ (by simpa using hc)]

/-- A register transaction that stops, at each of the four places (R155). -/
theorem registerTransaction_stop {sp : Speed} {tx : List Byte} (st : RegisterStop) (hc : s.csc = .released)
    (h4 : tx.length = 4) (hs : st.Ok) :
    registerTransaction sp tx (s.answering (st.events sp tx ++ evs)) =
      .raised st.reason 0 (((s.after (st.events sp tx)).setLatch .cmd st.csc).answering evs) := by
  cases st with
  | atSelect =>
    simp only [RegisterStop.events, List.cons_append, List.nil_append, registerTransaction, selectCommand,
      drive_answering_pinFault, andThen_raised, RegisterStop.reason, RegisterStop.csc]
    rw [setLatch_cmd_self _ (by simpa using hc)]
  | atExchange a =>
    simp only [RegisterStop.events, List.cons_append, List.nil_append, registerTransaction, selectCommand,
      drive_answering_ok, andThen_ok, xferOrRaise_busFault, andThen_raised, RegisterStop.reason, RegisterStop.csc]
    rw [tryRelease_answering _ _ .cmd a rfl rfl]
    simp
  | atWait rx a =>
    have hr : rx.length = tx.length := by rw [h4]; exact hs
    simp only [RegisterStop.events, List.cons_append, List.append_assoc, List.nil_append, registerTransaction, selectCommand,
      drive_answering_ok, andThen_ok, xferOrRaise_data _ _ hr, RegisterStop.reason, RegisterStop.csc]
    rw [show Config.readyPollBound = 2000 from rfl, awaitOrRaise_timeout, tryRelease_answering _ _ .cmd a rfl rfl]
    simp
  | atRelease rx k =>
    have hr : rx.length = tx.length := by rw [h4]; exact hs.1
    simp only [RegisterStop.events, List.cons_append, List.append_assoc, List.nil_append, registerTransaction, selectCommand,
      deselectCommand, drive_answering_ok, drive_answering_pinFault, andThen_ok, xferOrRaise_data _ _ hr, andThen_raised,
      RegisterStop.reason, RegisterStop.csc, awaitOrRaise_wait _ _ (show k < Config.readyPollBound from hs.2)]
    simp

@[simp] theorem readFrame_length (c : Config) (r : ChipReg) : (readFrame c r).length = 4 := rfl
@[simp] theorem writeFrame_length (c : Config) (r : ChipReg) (v : Half) : (writeFrame c r v).length = 4 := rfl
/-- A filler unit is the two bytes of its value, the more significant first (R94). -/
theorem fillerUnit_eq (v : Half) : fillerUnit v = [hiByte v, loByte v] := rfl

@[simp] theorem fillerUnit_length (v : Half) : (fillerUnit v).length = 2 := rfl

theorem readRegister_answering {sp : Speed} {r : ChipReg} {rx : List Byte} {k : Nat} (hc : s.csc = .released)
    (hsp : s.spd = sp) (hr : rx.length = 4) (hk : k < 2000) :
    readRegister r (s.answering (registerEvents sp (readFrame s.cfg r) rx k ++ evs)) =
      .ok (readValue rx) ((s.after (registerEvents sp (readFrame s.cfg r) rx k)).answering evs) := by
  subst hsp
  rw [readRegister, answering_spd, answering_cfg, registerTransaction_answering s evs hc (by simpa using hr) hk]; rfl

theorem writeRegister_answering {sp : Speed} {r : ChipReg} {v : Half} {rx : List Byte} {k : Nat} (hc : s.csc = .released)
    (hr : rx.length = 4) (hk : k < 2000) :
    writeRegister sp r v (s.answering (registerEvents sp (writeFrame s.cfg r v) rx k ++ evs)) =
      .ok () ((s.after (registerEvents sp (writeFrame s.cfg r v) rx k)).answering evs) := by
  rw [writeRegister, answering_cfg, registerTransaction_answering s evs hc (by simpa using hr) hk]; rfl

theorem readRegister_stop {sp : Speed} {r : ChipReg} (st : RegisterStop) (hc : s.csc = .released) (hsp : s.spd = sp)
    (hs : st.Ok) :
    readRegister r (s.answering (st.events sp (readFrame s.cfg r) ++ evs)) =
      .raised st.reason 0 (((s.after (st.events sp (readFrame s.cfg r))).setLatch .cmd st.csc).answering evs) := by
  subst hsp
  rw [readRegister, answering_spd, answering_cfg, registerTransaction_stop s evs st hc rfl hs]; rfl

theorem writeRegister_stop {sp : Speed} {r : ChipReg} {v : Half} (st : RegisterStop) (hc : s.csc = .released)
    (hs : st.Ok) :
    writeRegister sp r v (s.answering (st.events sp (writeFrame s.cfg r v) ++ evs)) =
      .raised st.reason 0 (((s.after (st.events sp (writeFrame s.cfg r v))).setLatch .cmd st.csc).answering evs) := by
  rw [writeRegister, answering_cfg, registerTransaction_stop s evs st hc rfl hs]; rfl

/-! ## The sweep (R170, R172) -/

theorem stepBad_eq (a : StepTurns) (i : Nat) :
    badStep (sweepValue i) (readValue a.read1.rx) (readValue a.read2.rx) = a.bad i := by
  unfold badStep StepTurns.bad
  generalize readValue a.read1.rx = x
  generalize readValue a.read2.rx = y
  generalize sweepValue i = w
  rw [Bool.eq_iff_iff]
  simp only [Bool.or_eq_true, bne_iff_ne, Bool.not_eq_true', Bool.and_eq_false_iff, beq_eq_false_iff_ne]
  constructor
  · rintro ((h | h) | h)
    · exact .inl h
    · exact .inr h
    · by_cases hx : x = w
      · exact .inr (fun hy => h (hx.trans hy.symm))
      · exact .inl hx
  · rintro (h | h)
    · exact .inl (.inl h)
    · exact .inl (.inr h)

theorem sweepStep_answering {sp : Speed} {i : Nat} {a : StepTurns} (hc : s.csc = .released) (hsp : s.spd = sp) (ha : a.Ok) :
    sweepStep i (s.answering (stepEvents s.cfg sp i a ++ evs)) =
      .ok (a.bad i) ((s.after (stepEvents s.cfg sp i a)).answering evs) := by
  subst hsp
  obtain ⟨hw, h1, h2⟩ := ha
  rw [sweepStep, stepEvents, List.append_assoc, List.append_assoc, answering_spd,
    writeRegister_answering s _ hc hw.1 hw.2, andThen_ok]
  have r1 := readRegister_answering (s.after (registerEvents s.spd (writeFrame s.cfg .volume (sweepValue i)) a.write.rx
    a.write.k)) (registerEvents s.spd (readFrame s.cfg .volume) a.read2.rx a.read2.k ++ evs) (r := .volume)
    (by simpa using hc) rfl h1.1 h1.2
  simp only [after_spd, after_cfg] at r1
  rw [r1, andThen_ok]
  have r2 := readRegister_answering ((s.after (registerEvents s.spd (writeFrame s.cfg .volume (sweepValue i)) a.write.rx
    a.write.k)).after (registerEvents s.spd (readFrame s.cfg .volume) a.read1.rx a.read1.k)) evs (r := .volume)
    (by simpa using hc) rfl h2.1 h2.2
  simp only [after_spd, after_cfg] at r2
  rw [r2, andThen_ok, stepBad_eq]
  simp

theorem badCount_succ (step : Nat) (a : Nat → StepTurns) (n : Nat) :
    badCount step a (n + 1) = if (a n).bad (n * step) then badCount step a n + 1 else badCount step a n := by
  unfold badCount
  rw [List.range_succ, List.filter_append]
  by_cases h : (a n).bad (n * step) <;> simp [h]

theorem eventsUpTo_zero (f : Nat → List Event) : eventsUpTo 0 f = [] := rfl

theorem eventsUpTo_one (f : Nat → List Event) : eventsUpTo 1 f = f 0 := by simp [eventsUpTo]

theorem eventsUpTo_succ (n : Nat) (f : Nat → List Event) : eventsUpTo (n + 1) f = eventsUpTo n f ++ f n := by
  simp [eventsUpTo, List.range_succ, List.flatMap_append]

theorem eventsUpTo_shift (n : Nat) (f : Nat → List Event) :
    eventsUpTo (n + 1) f = f 0 ++ eventsUpTo n (fun j => f (j + 1)) := by
  simp [eventsUpTo, List.range_succ_eq_map, List.flatMap_map]

end Sys2Proof.Machine
end

