-- ==== Sys2Proof/Laws/Sweep.lean ====
section
/-! SUPPORT. The self-test under given answers (R170 to R173): a sweep runs exactly the steps its answers give it, and the
bound on its steps never ends it. -/

namespace Sys2Proof.Machine

variable (s : State) (evs : List Event)

/-- R8: the step is at least 1. -/
theorem stepOf_pos (c : Config) (probe : Probe) : 1 ≤ stepOf c probe := by
  cases probe
  · exact c.ok.2.2.1
  · exact c.ok.2.2.2.1

/-- A step of a sweep before the last lies below the limit. -/
theorem mul_lt_of_lt_fullSweep {c : Config} {probe : Probe} {j : Nat} (h : j < fullSweep c probe) :
    j * stepOf c probe < c.sweepLimit := by
  have hp := stepOf_pos c probe
  have h1 : j + 1 ≤ (c.sweepLimit + stepOf c probe - 1) / stepOf c probe := h
  rw [Nat.le_div_iff_mul_le (by omega), Nat.add_mul] at h1
  omega

/-- A full sweep has reached the limit. -/
theorem limit_le_fullSweep (c : Config) (probe : Probe) : c.sweepLimit ≤ fullSweep c probe * stepOf c probe := by
  have hp := stepOf_pos c probe
  have h1 : ¬ fullSweep c probe + 1 ≤ (c.sweepLimit + stepOf c probe - 1) / stepOf c probe := by unfold fullSweep; omega
  rw [Nat.le_div_iff_mul_le (by omega), Nat.add_mul] at h1
  omega

theorem fullSweep_le_limit (c : Config) (probe : Probe) : fullSweep c probe ≤ c.sweepLimit := by
  have hp := stepOf_pos c probe
  have hl : 1 ≤ c.sweepLimit := c.ok.2.2.2.2.1
  unfold fullSweep
  rw [Nat.div_le_iff_le_mul_add_pred (by omega)]
  have : c.sweepLimit * 1 ≤ stepOf c probe * c.sweepLimit := by
    rw [Nat.mul_comm]; exact Nat.mul_le_mul_right _ hp
  omega

/-- Where the loop's condition fails, the sweep is over, whatever bound is left (R172). -/
theorem sweep_end {step limit fuel i cnt : Nat}
    (h : ¬(i < limit ∧ cnt < Config.selfTestBadLimit)) :
    sweep step limit fuel i cnt s = .ok cnt s := by
  cases fuel with
  | zero => rfl
  | succ n => rw [sweep, if_neg h]

/-- The steps `j` to `j + m − 1` of a sweep under the answers `a`. -/
theorem sweep_steps (sp : Speed) (step limit : Nat) (a : Nat → StepTurns) (m : Nat) :
    ∀ (s : State) (fuel j : Nat), m ≤ fuel → s.csc = .released → s.spd = sp →
      (∀ i, j ≤ i → i < j + m → (a i).Ok ∧ i * step < limit ∧ badCount step a i < 20) →
      sweep step limit fuel (j * step) (badCount step a j)
          (s.answering (eventsUpTo m (fun i => stepEvents s.cfg sp ((j + i) * step) (a (j + i))) ++ evs)) =
        sweep step limit (fuel - m) ((j + m) * step) (badCount step a (j + m))
          ((s.after (eventsUpTo m (fun i => stepEvents s.cfg sp ((j + i) * step) (a (j + i))))).answering evs) := by
  induction m with
  | zero => intro s fuel j _ _ _ _; simp [eventsUpTo]
  | succ m ih =>
    intro s fuel j hf hc hsp h
    obtain ⟨fuel, rfl⟩ : ∃ k, fuel = k + 1 := ⟨fuel - 1, by omega⟩
    obtain ⟨hok, hlt, hbad⟩ := h j (by omega) (by omega)
    rw [eventsUpTo_shift, List.append_assoc, sweep, if_pos ⟨hlt, hbad⟩, Nat.add_zero,
      sweepStep_answering s _ hc hsp hok, andThen_ok]
    have step1 := ih (s.after (stepEvents s.cfg sp (j * step) (a j))) fuel (j + 1) (by omega) (by simpa using hc)
      (by simpa using hsp) (fun i h1 h2 => h i (by omega) (by omega))
    simp only [after_cfg, badCount_succ, after_after] at step1
    have e : ∀ i, j + 1 + i = j + (i + 1) := fun i => by omega
    simp only [e, Nat.add_one_mul] at step1
    rw [step1]
    simp

/-- `self_test` with the line ready at entry (R170): it takes the steps its answers give it and counts the bad ones. -/
theorem selfTest_swept {sp : Speed} {probe : Probe} {a : Nat → StepTurns} {n : Nat} (hc : s.csc = .released)
    (hsp : s.spd = sp) (h : SweepLength s.cfg probe a n) :
    selfTest probe (s.answering (.sample .ready :: (sweepEvents s.cfg sp probe a n ++ evs))) =
      .ok (badCount (stepOf s.cfg probe) a n == 0, badCount (stepOf s.cfg probe) a n)
        ((s.after (.sample .ready :: sweepEvents s.cfg sp probe a n)).answering evs) := by
  obtain ⟨hok, hn, hbad, hfin⟩ := h
  rw [selfTest, pinSample_answering]
  have run := sweep_steps evs sp (stepOf s.cfg probe) s.cfg.sweepLimit a n (s.after [.sample .ready]) s.cfg.sweepLimit 0
    (hn.trans (fullSweep_le_limit _ _)) (by simpa using hc) (by simpa using hsp)
    (fun i _ hi => ⟨hok i (by omega), mul_lt_of_lt_fullSweep (probe := probe) (by omega), hbad i (by omega)⟩)
  simp only [Nat.zero_mul, Nat.zero_add, after_cfg, after_after] at run
  have b0 : badCount (stepOf s.cfg probe) a 0 = 0 := rfl
  rw [b0] at run
  simp only [answering_cfg, sweepEvents]
  rw [run, sweep_end]
  · simp
  · rintro ⟨h1, h2⟩
    change _ < 20 at h2
    rcases hfin with hfin | hfin
    · have := limit_le_fullSweep s.cfg probe
      rw [← hfin] at this
      omega
    · omega

/-- `self_test` with the line not ready at entry (R173): it fails fast with count 0 after one sample. -/
theorem selfTest_notReady (probe : Probe) :
    selfTest probe (s.answering (.sample .notReady :: evs)) = .ok (false, 0) ((s.after [.sample .notReady]).answering evs) := by
  rw [selfTest, pinSample_answering]

/-- The bound on the steps never decides: any two bounds that reach the limit give the same sweep (R172). -/
theorem sweep_fuel {step limit : Nat} (hp : 1 ≤ step) :
    ∀ (f g i cnt : Nat) (s : State), limit ≤ i + f → limit ≤ i + g →
      sweep step limit f i cnt s = sweep step limit g i cnt s := by
  intro f
  induction f with
  | zero => intro g i cnt s hf _; rw [sweep_end s (by omega), sweep_end s (by omega)]
  | succ f ih =>
    intro g i cnt s hf hg
    by_cases h : i < limit ∧ cnt < Config.selfTestBadLimit
    · obtain ⟨g, rfl⟩ : ∃ k, g = k + 1 := ⟨g - 1, by omega⟩
      rw [sweep, sweep, if_pos h, if_pos h]
      cases sweepStep i s with
      | raised f d s' => rfl
      | ok bad s' => exact ih g _ _ s' (by omega) (by omega)
    · rw [sweep_end s h, sweep_end s h]

end Sys2Proof.Machine
end

