-- ==== Sys2Proof/Laws/Units.lean ====
section
/-! SUPPORT. Data-mode traffic under given answers (R180 to R183): units, the stream loop, the filler loop, and the parts of
`stop`. -/

namespace Sys2Proof.Machine

variable (s : State) (evs : List Event)

/-- The fault a unit's stop raises, as the procedures raise it. -/
def UnitStop.reason : UnitStop → AbortReason
  | .atWait _ => .dataTimeout
  | .atExchange _ _ => .busFault

@[simp] theorem unitReason_status (st : UnitStop) : st.reason.status = st.status := by cases st <;> rfl

theorem sendUnit_answering {sp : Speed} {tx : List Byte} {d : Half} {t : Turn} (hsp : s.spd = sp) (ht : t.Ok tx.length) :
    sendUnit tx d (s.answering (unitEvents sp tx t.rx t.k ++ evs)) =
      .ok () ((s.after (unitEvents sp tx t.rx t.k)).answering evs) := by
  subst hsp
  rw [sendUnit, unitEvents, List.append_assoc,
    awaitOrRaise_wait _ _ (show t.k < Config.readyPollBound from ht.2), andThen_ok, answering_spd, after_spd,
    List.singleton_append, xferOrRaise_data _ _ ht.1, andThen_ok]
  simp

theorem sendUnit_stop {sp : Speed} {tx : List Byte} {d : Half} (st : UnitStop) (hd : s.csd = .asserted) (hsp : s.spd = sp)
    (hs : st.Ok) :
    sendUnit tx d (s.answering (st.events sp tx ++ evs)) =
      .raised st.reason d (((s.after (st.events sp tx)).setLatch .dat st.csd).answering evs) := by
  subst hsp
  cases st with
  | atWait a =>
    rw [sendUnit, UnitStop.events, List.append_assoc, show Config.readyPollBound = 2000 from rfl, awaitOrRaise_timeout,
      List.singleton_append, tryRelease_answering _ _ .dat a (by simpa using hd) rfl, andThen_raised]
    simp [UnitStop.reason, UnitStop.csd]
  | atExchange k a =>
    rw [sendUnit, UnitStop.events, List.append_assoc, awaitOrRaise_wait _ _ (show k < Config.readyPollBound from hs),
      andThen_ok, answering_spd, after_spd, List.cons_append, xferOrRaise_busFault, List.singleton_append,
      tryRelease_answering _ _ .dat a (by simpa using hd) rfl, andThen_raised]
    simp [UnitStop.reason, UnitStop.csd]

/-- Filler units, as many as are answered (R182). -/
theorem fillerLoop_answering {sp : Speed} {fill : Half} (n : Nat) :
    ∀ (s : State) (m : Nat) (t : Nat → Turn), s.spd = sp → (∀ j < n, (t j).Ok 2) →
      fillerLoop fill (n + m) (s.answering (eventsUpTo n (fun j => unitEvents sp (fillerUnit fill) (t j).rx (t j).k) ++ evs)) =
        fillerLoop fill m
          ((s.after (eventsUpTo n (fun j => unitEvents sp (fillerUnit fill) (t j).rx (t j).k))).answering evs) := by
  induction n with
  | zero => intro s m t _ _; simp [eventsUpTo]
  | succ n ih =>
    intro s m t hsp ht
    rw [eventsUpTo_shift, List.append_assoc, show n + 1 + m = (n + m) + 1 by omega, fillerLoop,
      sendUnit_answering s _ hsp (by simpa using ht 0 (by omega)), andThen_ok,
      ih _ m (fun j => t (j + 1)) (by simpa using hsp) (fun j hj => ht (j + 1) (by omega))]
    simp

theorem fillerLoop_all {sp : Speed} {fill : Half} {n : Nat} {t : Nat → Turn} (hsp : s.spd = sp) (ht : ∀ j < n, (t j).Ok 2) :
    fillerLoop fill n (s.answering (eventsUpTo n (fun j => unitEvents sp (fillerUnit fill) (t j).rx (t j).k) ++ evs)) =
      .ok () ((s.after (eventsUpTo n (fun j => unitEvents sp (fillerUnit fill) (t j).rx (t j).k))).answering evs) :=
  fillerLoop_answering evs n s 0 t hsp ht

theorem flushWithFillers_answering {sp : Speed} {fill : Half} {n : Nat} {t : Nat → Turn} (hd : s.csd = .released)
    (hsp : s.spd = sp) (ht : UnitsOk (fillerPayload fill) n t) :
    flushWithFillers fill n (s.answering (burstEvents sp (fillerPayload fill) n t ++ evs)) =
      .ok () ((s.after (burstEvents sp (fillerPayload fill) n t)).answering evs) := by
  rw [flushWithFillers, burstEvents, List.cons_append, selectData, drive_answering_ok, andThen_ok, List.append_assoc]
  simp only [fillerPayload]
  rw [fillerLoop_all _ _ (by simpa using hsp) ht, andThen_ok, List.singleton_append, deselectData, drive_answering_ok]
  simp only [after_setLatch, setLatch_setLatch, after_after, List.cons_append, List.nil_append]
  rw [setLatch_dat_self _ (by simpa using hd)]

/-! ## The stream loop (R180, R181) -/

/-- A chunk before the last starts inside the stream. -/
theorem mul_lt_of_lt_chunkCount {len chunk j : Nat} (hc : 0 < chunk) (h : j < chunkCount len chunk) : j * chunk < len := by
  have h1 : j + 1 ≤ (len + chunk - 1) / chunk := h
  rw [Nat.le_div_iff_mul_le hc, Nat.add_mul] at h1
  omega

/-- The last chunk reaches the end of the stream. -/
theorem len_le_chunkCount (len : Nat) {chunk : Nat} (hc : 0 < chunk) : len ≤ chunkCount len chunk * chunk := by
  have h1 : ¬ chunkCount len chunk + 1 ≤ (len + chunk - 1) / chunk := by unfold chunkCount; omega
  rw [Nat.le_div_iff_mul_le hc, Nat.add_mul] at h1
  omega

theorem chunkCount_le (len : Nat) {chunk : Nat} (hc : 0 < chunk) : chunkCount len chunk ≤ len := by
  unfold chunkCount
  rw [Nat.div_le_iff_le_mul_add_pred hc]
  have : len * 1 ≤ chunk * len := by rw [Nat.mul_comm]; exact Nat.mul_le_mul_right _ hc
  omega

/-- The bytes `write_stream` reads at the start of chunk `j` are those of chunk `j`. -/
theorem memRead_chunk {len chunk j : Nat} (h : j * chunk < len) :
    memRead s (j * chunk) (chunkLength len chunk (j * chunk)) = chunkBytes s.pb len chunk j := by
  unfold memRead Memory.slice chunkBytes chunkLength
  congr 2
  rw [Nat.add_mul]
  omega

/-- The cursor after chunk `j`. -/
theorem cursor_succ {len chunk j : Nat} (h : j * chunk < len) :
    j * chunk + chunkLength len chunk (j * chunk) = min ((j + 1) * chunk) len := by
  unfold chunkLength
  rw [Nat.add_mul]
  omega

theorem streamLoop_end {len chunk fuel cur : Nat} (h : len ≤ cur) : streamLoop len chunk fuel cur s = .ok () s := by
  cases fuel with
  | zero => rfl
  | succ n => rw [streamLoop, if_neg (by omega)]

/-- `n` chunks from chunk `j` on. -/
theorem streamLoop_answering {sp : Speed} {len chunk : Nat} (hc : 0 < chunk) (n : Nat) :
    ∀ (s : State) (j m : Nat) (t : Nat → Turn), s.spd = sp → j + n ≤ chunkCount len chunk →
      (∀ i < n, (t (j + i)).Ok (chunkBytes s.pb len chunk (j + i)).length) →
      streamLoop len chunk (n + m) (min (j * chunk) len)
          (s.answering (eventsUpTo n (fun i =>
            unitEvents sp (chunkBytes s.pb len chunk (j + i)) (t (j + i)).rx (t (j + i)).k) ++ evs)) =
        streamLoop len chunk m (min ((j + n) * chunk) len)
          ((s.after (eventsUpTo n (fun i =>
            unitEvents sp (chunkBytes s.pb len chunk (j + i)) (t (j + i)).rx (t (j + i)).k))).answering evs) := by
  induction n with
  | zero => intro s j m t _ _ _; simp [eventsUpTo]
  | succ n ih =>
    intro s j m t hsp hj ht
    have hlt := mul_lt_of_lt_chunkCount hc (show j < chunkCount len chunk by omega)
    rw [eventsUpTo_shift, List.append_assoc, show n + 1 + m = (n + m) + 1 by omega, Nat.min_eq_left hlt.le, streamLoop,
      if_pos hlt]
    have hm := memRead_chunk s hlt
    have e0 : memRead (s.answering (unitEvents sp (chunkBytes s.pb len chunk (j + 0)) (t (j + 0)).rx (t (j + 0)).k ++
        (eventsUpTo n (fun i =>
          unitEvents sp (chunkBytes s.pb len chunk (j + (i + 1))) (t (j + (i + 1))).rx (t (j + (i + 1))).k) ++ evs)))
        (j * chunk) (chunkLength len chunk (j * chunk)) = chunkBytes s.pb len chunk (j + 0) := hm
    rw [e0, sendUnit_answering s _ hsp (ht 0 (by omega)), andThen_ok, cursor_succ hlt]
    have key := ih (s.after (unitEvents sp (chunkBytes s.pb len chunk (j + 0)) (t (j + 0)).rx (t (j + 0)).k)) (j + 1) m t
      (by simpa using hsp) (by omega) (fun i hi => by
        have := ht (i + 1) (by omega)
        rw [show j + (i + 1) = j + 1 + i by omega] at this
        simpa using this)
    simp only [after_pb, show ∀ i, j + 1 + i = j + (i + 1) by intro i; omega] at key
    rw [key, after_after]

/-- The fault a burst's stop raises. -/
def BurstStop.reason : BurstStop → AbortReason
  | .atSelect => .pinFault
  | .atUnit _ _ st => st.reason
  | .atRelease _ => .pinFault

@[simp] theorem burstReason_status (st : BurstStop) : st.reason.status = st.status := by
  cases st with
  | atSelect => rfl
  | atUnit _ _ st => exact unitReason_status st
  | atRelease _ => rfl

theorem writeStream_answering {sp : Speed} {len chunk : Nat} {t : Nat → Turn} (hc : 0 < chunk) (hd : s.csd = .released)
    (hsp : s.spd = sp) (ht : UnitsOk (chunkBytes s.pb len chunk) (chunkCount len chunk) t) :
    writeStream len chunk
        (s.answering (burstEvents sp (chunkBytes s.pb len chunk) (chunkCount len chunk) t ++ evs)) =
      .ok () ((s.after (burstEvents sp (chunkBytes s.pb len chunk) (chunkCount len chunk) t)).answering evs) := by
  rw [writeStream, burstEvents, List.cons_append, selectData, drive_answering_ok, andThen_ok, List.append_assoc]
  have run := streamLoop_answering (sp := sp) (len := len) (.pin .dat .released .ok :: evs) hc (chunkCount len chunk)
    ((s.after [.pin .dat .asserted .ok]).setLatch .dat .asserted) 0 (len - chunkCount len chunk) t (by simpa using hsp)
    (by omega) (fun i hi => by simpa using ht i hi)
  rw [show chunkCount len chunk + (len - chunkCount len chunk) = len by have := chunkCount_le len hc; omega] at run
  simp only [Nat.zero_mul, Nat.zero_min, Nat.zero_add, setLatch_pb, after_pb] at run
  rw [List.singleton_append, run, streamLoop_end _ (by rw [Nat.min_eq_right (len_le_chunkCount len hc)]), andThen_ok,
    deselectData, drive_answering_ok]
  simp only [after_setLatch, setLatch_setLatch, after_after, List.cons_append, List.nil_append]
  rw [setLatch_dat_self _ (by simpa using hd)]

theorem writeStream_stop {sp : Speed} {len chunk : Nat} (st : BurstStop) (hc : 0 < chunk) (hd : s.csd = .released)
    (hsp : s.spd = sp) (hs : st.Ok (chunkBytes s.pb len chunk) (chunkCount len chunk)) :
    writeStream len chunk
        (s.answering (st.events sp (chunkBytes s.pb len chunk) (chunkCount len chunk) ++ evs)) =
      .raised st.reason (BitVec.ofNat 16 (st.unitsSent * chunk))
        (((s.after (st.events sp (chunkBytes s.pb len chunk) (chunkCount len chunk))).setLatch .dat st.csd).answering evs) := by
  cases st with
  | atSelect =>
    rw [writeStream, BurstStop.events, selectData, List.singleton_append, drive_answering_pinFault, andThen_raised]
    simp only [BurstStop.reason, BurstStop.unitsSent, BurstStop.csd, Nat.zero_mul]
    rw [setLatch_dat_self _ (by simpa using hd)]
    rfl
  | atUnit t j st =>
    obtain ⟨hj, ht, hst⟩ := hs
    rw [writeStream, BurstStop.events, List.cons_append, selectData, drive_answering_ok, andThen_ok, List.append_assoc]
    have run := streamLoop_answering (sp := sp) (len := len) (st.events sp (chunkBytes s.pb len chunk j) ++ evs) hc j
      ((s.after [.pin .dat .asserted .ok]).setLatch .dat .asserted) 0 (len - j) t (by simpa using hsp)
      (by omega) (fun i hi => by simpa using ht i hi)
    have hlt := mul_lt_of_lt_chunkCount hc hj
    have hle := chunkCount_le len hc
    rw [show j + (len - j) = len by omega] at run
    simp only [Nat.zero_mul, Nat.zero_min, Nat.zero_add, setLatch_pb, after_pb] at run
    rw [run, Nat.min_eq_left hlt.le, show len - j = (len - j - 1) + 1 by omega, streamLoop, if_pos hlt]
    have e0 : ∀ u : State, u.pb = s.pb → memRead u (j * chunk) (chunkLength len chunk (j * chunk)) =
        chunkBytes s.pb len chunk j := by
      intro u hu
      rw [memRead_chunk u hlt, hu]
    rw [e0 _ (by simp), sendUnit_stop _ _ st (by simp) (by simpa using hsp) hst, andThen_raised, andThen_raised]
    simp [BurstStop.reason, BurstStop.unitsSent, BurstStop.csd]
  | atRelease t =>
    rw [writeStream, BurstStop.events, List.cons_append, selectData, drive_answering_ok, andThen_ok, List.append_assoc]
    have run := streamLoop_answering (sp := sp) (len := len) (.pin .dat .released .pinFault :: evs) hc (chunkCount len chunk)
      ((s.after [.pin .dat .asserted .ok]).setLatch .dat .asserted) 0 (len - chunkCount len chunk) t (by simpa using hsp)
      (by omega) (fun i hi => by simpa using hs i hi)
    rw [show chunkCount len chunk + (len - chunkCount len chunk) = len by have := chunkCount_le len hc; omega] at run
    simp only [Nat.zero_mul, Nat.zero_min, Nat.zero_add, setLatch_pb, after_pb] at run
    rw [List.singleton_append, run, streamLoop_end _ (by rw [Nat.min_eq_right (len_le_chunkCount len hc)]), andThen_ok,
      deselectData, drive_answering_pinFault]
    simp [BurstStop.reason, BurstStop.unitsSent, BurstStop.csd]

/-- The stops of a filler flush (R182). -/
theorem flushWithFillers_stop {sp : Speed} {fill : Half} {n : Nat} (st : BurstStop) (hd : s.csd = .released)
    (hsp : s.spd = sp) (hs : st.Ok (fillerPayload fill) n) :
    flushWithFillers fill n (s.answering (st.events sp (fillerPayload fill) n ++ evs)) =
      .raised st.reason 0 (((s.after (st.events sp (fillerPayload fill) n)).setLatch .dat st.csd).answering evs) := by
  cases st with
  | atSelect =>
    rw [flushWithFillers, BurstStop.events, selectData, List.singleton_append, drive_answering_pinFault, andThen_raised]
    simp only [BurstStop.reason, BurstStop.csd]
    rw [setLatch_dat_self _ (by simpa using hd)]
  | atUnit t j st =>
    obtain ⟨hj, ht, hst⟩ := hs
    rw [flushWithFillers, BurstStop.events, List.cons_append, selectData, drive_answering_ok, andThen_ok, List.append_assoc]
    have run := fillerLoop_answering (sp := sp) (fill := fill) (st.events sp (fillerUnit fill) ++ evs) j
      ((s.after [.pin .dat .asserted .ok]).setLatch .dat .asserted) (n - j) t (by simpa using hsp) ht
    rw [show j + (n - j) = n by omega] at run
    simp only [fillerPayload]
    rw [run, show n - j = (n - j - 1) + 1 by omega, fillerLoop, sendUnit_stop _ _ st (by simp) (by simpa using hsp) hst,
      andThen_raised, andThen_raised]
    simp [BurstStop.reason, BurstStop.csd]
  | atRelease t =>
    rw [flushWithFillers, BurstStop.events, List.cons_append, selectData, drive_answering_ok, andThen_ok, List.append_assoc]
    simp only [fillerPayload]
    rw [fillerLoop_all _ _ (by simpa using hsp) hs, andThen_ok, List.singleton_append, deselectData, drive_answering_pinFault]
    simp [BurstStop.reason, BurstStop.csd]

/-! ## One unit in a bracket of its own -/

theorem dataTransaction_answering {sp : Speed} {tx : List Byte} {t : Turn} (hd : s.csd = .released) (hsp : s.spd = sp)
    (ht : t.Ok tx.length) :
    dataTransaction tx (s.answering (burstEvents sp (fun _ => tx) 1 (fun _ => t) ++ evs)) =
      .ok () ((s.after (burstEvents sp (fun _ => tx) 1 (fun _ => t))).answering evs) := by
  rw [dataTransaction, burstEvents, List.cons_append, selectData, drive_answering_ok, andThen_ok, List.append_assoc,
    eventsUpTo_one, sendUnit_answering _ _ (by simpa using hsp) ht, andThen_ok, List.singleton_append, deselectData,
    drive_answering_ok]
  simp only [after_setLatch, setLatch_setLatch, after_after, List.cons_append, List.nil_append]
  rw [setLatch_dat_self _ (by simpa using hd)]

theorem dataTransaction_stop {sp : Speed} {tx : List Byte} (st : BurstStop) (hd : s.csd = .released) (hsp : s.spd = sp)
    (hs : st.Ok (fun _ => tx) 1) :
    dataTransaction tx (s.answering (st.events sp (fun _ => tx) 1 ++ evs)) =
      .raised st.reason 0 (((s.after (st.events sp (fun _ => tx) 1)).setLatch .dat st.csd).answering evs) := by
  cases st with
  | atSelect =>
    rw [dataTransaction, BurstStop.events, selectData, List.singleton_append, drive_answering_pinFault, andThen_raised]
    simp only [BurstStop.reason, BurstStop.csd]
    rw [setLatch_dat_self _ (by simpa using hd)]
  | atUnit t j st =>
    obtain ⟨hj, _, hst⟩ := hs
    obtain rfl : j = 0 := by omega
    rw [dataTransaction, BurstStop.events, List.cons_append, selectData, drive_answering_ok, andThen_ok, eventsUpTo_zero,
      List.nil_append, sendUnit_stop _ _ st (by simp) (by simpa using hsp) hst, andThen_raised]
    simp [BurstStop.reason, BurstStop.csd]
  | atRelease t =>
    rw [dataTransaction, BurstStop.events, List.cons_append, selectData, drive_answering_ok, andThen_ok, List.append_assoc,
      eventsUpTo_one, sendUnit_answering _ _ (by simpa using hsp) (hs 0 (by omega)), andThen_ok, List.singleton_append,
      deselectData, drive_answering_pinFault]
    simp [BurstStop.reason, BurstStop.csd]

/-! ## The parts of `stop` (R183) -/

/-- The events of one iteration of the polling loop. -/
def StopRun.iteration (c : Config) (speed : Speed) (fill : Half) (r : StopRun) (i : Nat) : List Event :=
  burstEvents speed (fillerPayload fill) c.flushSmall.toNat (r.small i) ++
    registerEvents speed (readFrame c .mode) (r.read i).rx (r.read i).k

/-- `n` iterations from iteration `j` on that all read the cancel bit set. -/
theorem stopLoop_answering {sp : Speed} {fill : Half} (r : StopRun) (n : Nat) :
    ∀ (s : State) (j m : Nat), s.csc = .released → s.csd = .released → s.spd = sp →
      (∀ i < n, (∀ k < s.cfg.flushSmall.toNat, (r.small (j + i) k).Ok 2) ∧ (r.read (j + i)).Ok 4 ∧ r.held (j + i) = true) →
      stopLoop fill (n + m) (s.answering (eventsUpTo n (fun i => r.iteration s.cfg sp fill (j + i)) ++ evs)) =
        stopLoop fill m ((s.after (eventsUpTo n (fun i => r.iteration s.cfg sp fill (j + i)))).answering evs) := by
  induction n with
  | zero => intro s j m _ _ _ _; simp [eventsUpTo]
  | succ n ih =>
    intro s j m hc hd hsp h
    obtain ⟨h1, h2, h3⟩ := h 0 (by omega)
    rw [eventsUpTo_shift, show n + 1 + m = (n + m) + 1 by omega, stopLoop, StopRun.iteration, List.append_assoc,
      List.append_assoc, answering_cfg, countOf, flushWithFillers_answering s _ hd hsp h1, andThen_ok]
    have rr := readRegister_answering (s.after (burstEvents sp (fillerPayload fill) s.cfg.flushSmall.toNat (r.small (j + 0))))
      (eventsUpTo n (fun i => r.iteration s.cfg sp fill (j + (i + 1))) ++ evs) (r := .mode) (by simpa using hc)
      (by simpa using hsp) h2.1 h2.2
    simp only [after_cfg] at rr
    rw [rr, andThen_ok, if_pos (show cancelSet (readValue (r.read (j + 0)).rx) = true from h3)]
    have key := ih ((s.after (burstEvents sp (fillerPayload fill) s.cfg.flushSmall.toNat (r.small (j + 0)))).after
      (registerEvents sp (readFrame s.cfg .mode) (r.read (j + 0)).rx (r.read (j + 0)).k)) (j + 1) m (by simpa using hc)
      (by simpa using hd) (by simpa using hsp) (fun i hi => by
        have := h (i + 1) (by omega)
        rw [show j + (i + 1) = j + 1 + i by omega] at this
        simpa using this)
    simp only [after_cfg, show ∀ i, j + 1 + i = j + (i + 1) by intro i; omega] at key
    rw [key]
    simp

/-- The large flush and the cancel write. -/
theorem stopHead_answering {sp : Speed} {fill : Half} (r : StopRun) (hc : s.csc = .released) (hd : s.csd = .released)
    (hsp : s.spd = sp) (hl : ∀ j < s.cfg.flushLarge.toNat, (r.large j).Ok 2) (hw : r.write.Ok 4) :
    stopSequence fill (s.answering (r.headEvents s.cfg sp fill ++ evs)) =
      stopLoop fill 200 ((s.after (r.headEvents s.cfg sp fill)).answering evs) := by
  rw [stopSequence, StopRun.headEvents, List.append_assoc, answering_cfg, countOf,
    flushWithFillers_answering s _ hd hsp hl, andThen_ok]
  have ww := writeRegister_answering (s.after (burstEvents sp (fillerPayload fill) s.cfg.flushLarge.toNat r.large)) evs
    (sp := sp) (r := .mode) (v := s.cfg.modeCancelValue) (by simpa using hc) hw.1 hw.2
  simp only [after_cfg] at ww
  simp only [answering_cfg, after_cfg, answering_spd, after_spd, hsp]
  rw [ww, andThen_ok, after_after]
  rfl

end Sys2Proof.Machine
end

