-- ==== Sys2Proof/Laws/Cases.lean ====
section
/-! SUPPORT. What each primitive and each procedure can do, whatever the environment answers: it ends in one of the cases the
scripted lemmas describe, so a proof about every answer cites these and never unfolds a procedure. -/

namespace Sys2Proof.Machine

/-- `t` is `s` with these events appended to the trace and answers taken: nothing else differs. -/
def Ends (s t : State) (evs : List Event) : Prop :=
  ∃ e : Env, t = { s with trace := evs.reverse ++ s.trace, env := e }

theorem Ends.refl (s : State) : Ends s s [] := ⟨s.env, by simp⟩

theorem Ends.trans {s t u : State} {a b : List Event} (h1 : Ends s t a) (h2 : Ends t u b) : Ends s u (a ++ b) := by
  obtain ⟨e1, rfl⟩ := h1
  obtain ⟨e2, rfl⟩ := h2
  exact ⟨e2, by simp⟩

theorem Ends.setLatch {s t : State} {a : List Event} (h : Ends s t a) (l : Line) (v : Level) :
    Ends (s.setLatch l v) (t.setLatch l v) a := by
  obtain ⟨e, rfl⟩ := h
  cases l <;> exact ⟨e, rfl⟩

theorem Ends.cfg {s t : State} {a : List Event} (h : Ends s t a) : t.cfg = s.cfg := by obtain ⟨_, rfl⟩ := h; rfl
theorem Ends.csc {s t : State} {a : List Event} (h : Ends s t a) : t.csc = s.csc := by obtain ⟨_, rfl⟩ := h; rfl
theorem Ends.csd {s t : State} {a : List Event} (h : Ends s t a) : t.csd = s.csd := by obtain ⟨_, rfl⟩ := h; rfl
theorem Ends.spd {s t : State} {a : List Event} (h : Ends s t a) : t.spd = s.spd := by obtain ⟨_, rfl⟩ := h; rfl
theorem Ends.vol {s t : State} {a : List Event} (h : Ends s t a) : t.vol = s.vol := by obtain ⟨_, rfl⟩ := h; rfl
theorem Ends.bal {s t : State} {a : List Event} (h : Ends s t a) : t.bal = s.bal := by obtain ⟨_, rfl⟩ := h; rfl
theorem Ends.fill {s t : State} {a : List Event} (h : Ends s t a) : t.fill = s.fill := by obtain ⟨_, rfl⟩ := h; rfl
theorem Ends.lc {s t : State} {a : List Event} (h : Ends s t a) : t.lc = s.lc := by obtain ⟨_, rfl⟩ := h; rfl
theorem Ends.slowOk {s t : State} {a : List Event} (h : Ends s t a) : t.slowOk = s.slowOk := by obtain ⟨_, rfl⟩ := h; rfl
theorem Ends.fastOk {s t : State} {a : List Event} (h : Ends s t a) : t.fastOk = s.fastOk := by obtain ⟨_, rfl⟩ := h; rfl
theorem Ends.pb {s t : State} {a : List Event} (h : Ends s t a) : t.pb = s.pb := by obtain ⟨_, rfl⟩ := h; rfl
theorem Ends.requests {s t : State} {a : List Event} (h : Ends s t a) : t.requests = s.requests := by
  obtain ⟨_, rfl⟩ := h; rfl
theorem Ends.events {s t : State} {a : List Event} (h : Ends s t a) : t.events = s.events ++ a := by
  obtain ⟨_, rfl⟩ := h; simp [State.events]
theorem Ends.trace {s t : State} {a : List Event} (h : Ends s t a) : t.trace = a.reverse ++ s.trace := by
  obtain ⟨_, rfl⟩ := h; rfl

/-! ## Primitives -/

theorem pinDrive_cases (l : Line) (v : Level) (s : State) :
    (∃ t, pinDrive l v s = (.ok, t) ∧ Ends (s.setLatch l v) t [.pin l v .ok]) ∨
    (∃ t, pinDrive l v s = (.pinFault, t) ∧ Ends s t [.pin l v .pinFault]) := by
  unfold pinDrive
  rcases s.env.nextPin with ⟨_ | _, e⟩
  · exact .inl ⟨_, rfl, e, by cases l <;> rfl⟩
  · exact .inr ⟨_, rfl, e, rfl⟩

theorem pinSample_cases (s : State) : ∃ a t, pinSample s = (a, t) ∧ Ends s t [.sample a] := by
  unfold pinSample
  rcases s.env.nextSample with ⟨a, e⟩
  exact ⟨a, _, rfl, e, rfl⟩

theorem delay_ends (ms : Nat) (s : State) : Ends s (delay ms s) [.delay ms] := ⟨s.env, rfl⟩

/-- An exchange receives exactly as many bytes as it sends, or fails (R11). -/
theorem nextXfer_cases (e : Env) (n : Nat) :
    (∃ e', e.nextXfer n = (.busFault, e')) ∨ (∃ rx e', rx.length = n ∧ e.nextXfer n = (.data rx, e')) := by
  unfold Env.nextXfer
  rcases e.xfers with _ | ⟨_ | rx, rest⟩
  · rcases Config.freeXferAnswer e.drawn with _ | rx
    · exact .inl ⟨_, rfl⟩
    · exact .inr ⟨_, _, fitRx_length .., rfl⟩
  · exact .inl ⟨_, rfl⟩
  · exact .inr ⟨_, _, fitRx_length .., rfl⟩

theorem spiXfer_cases (sp : Speed) (kind : Kind) (tx : List Byte) (s : State) :
    (∃ t, spiXfer sp kind tx s = (.busFault, t) ∧ Ends s t [.xfer sp kind tx .busFault]) ∨
    (∃ rx t, rx.length = tx.length ∧ spiXfer sp kind tx s = (.data rx, t) ∧ Ends s t [.xfer sp kind tx (.data rx)]) := by
  unfold spiXfer
  rcases nextXfer_cases s.env tx.length with ⟨e, h⟩ | ⟨rx, e, hr, h⟩
  · rw [h]; exact .inl ⟨_, rfl, e, rfl⟩
  · rw [h]; exact .inr ⟨rx, _, hr, rfl, e, rfl⟩

/-! ## Pin Gate and ready-wait -/

theorem drive_cases (l : Line) (v : Level) (s : State) :
    (∃ t, drive l v s = .ok () t ∧ Ends (s.setLatch l v) t [.pin l v .ok]) ∨
    (∃ t, drive l v s = .raised .pinFault 0 t ∧ Ends s t [.pin l v .pinFault]) := by
  unfold drive
  rcases pinDrive_cases l v s with ⟨t, h, he⟩ | ⟨t, h, he⟩
  · rw [h]; exact .inl ⟨t, rfl, he⟩
  · rw [h]; exact .inr ⟨t, rfl, he⟩

/-- The release of an exit path leaves the latch of its answer (R263). -/
theorem tryRelease_cases (l : Line) (s : State)
    (h : (match l with | .cmd => s.csc | .dat => s.csd) = .asserted) :
    ∃ a, Ends (s.setLatch l (latchAfterRelease a)) (tryRelease l s) [.pin l .released a] := by
  unfold tryRelease
  rcases pinDrive_cases l .released s with ⟨t, ht, he⟩ | ⟨t, ht, he⟩
  · exact ⟨.ok, by rw [ht]; exact he⟩
  · refine ⟨.pinFault, ?_⟩
    rw [ht]
    cases l
    · rw [show latchAfterRelease .pinFault = Level.asserted from rfl, setLatch_cmd_self s h]; exact he
    · rw [show latchAfterRelease .pinFault = Level.asserted from rfl, setLatch_dat_self s h]; exact he

theorem awaitReady_cases (n : Nat) : ∀ s : State,
    (∃ k t, k < n ∧ awaitReady n s = (.success, t) ∧ Ends s t (waitEvents k)) ∨
    (∃ t, awaitReady n s = (.timeout, t) ∧ Ends s t (timeoutEvents n)) := by
  induction n with
  | zero => intro s; exact .inr ⟨s, rfl, .refl s⟩
  | succ n ih =>
    intro s
    unfold awaitReady
    obtain ⟨a, t, h, he⟩ := pinSample_cases s
    rw [h]
    cases a with
    | ready => exact .inl ⟨0, t, by omega, rfl, by simpa [waitEvents, timeoutEvents] using he⟩
    | notReady =>
      have hd := he.trans (delay_ends Config.pollIntervalMs t)
      rcases ih (delay Config.pollIntervalMs t) with ⟨k, u, hk, hu, hue⟩ | ⟨u, hu, hue⟩
      · exact .inl ⟨k + 1, u, by omega, hu, by simpa [waitEvents, timeoutEvents, Config.pollIntervalMs] using hd.trans hue⟩
      · exact .inr ⟨u, hu, by simpa [timeoutEvents, Config.pollIntervalMs] using hd.trans hue⟩

theorem awaitOrRaise_cases (n : Nat) (d : Half) (ex : State → State) (s : State) :
    (∃ k t, k < n ∧ awaitOrRaise n d ex s = .ok () t ∧ Ends s t (waitEvents k)) ∨
    (∃ t, awaitOrRaise n d ex s = .raised .dataTimeout d (ex t) ∧ Ends s t (timeoutEvents n)) := by
  unfold awaitOrRaise
  rcases awaitReady_cases n s with ⟨k, t, hk, h, he⟩ | ⟨t, h, he⟩
  · rw [h]; exact .inl ⟨k, t, hk, rfl, he⟩
  · rw [h]; exact .inr ⟨t, rfl, he⟩

theorem xferOrRaise_cases (sp : Speed) (kind : Kind) (tx : List Byte) (d : Half) (ex : State → State) (s : State) :
    (∃ rx t, rx.length = tx.length ∧ xferOrRaise sp kind tx d ex s = .ok rx t ∧ Ends s t [.xfer sp kind tx (.data rx)]) ∨
    (∃ t, xferOrRaise sp kind tx d ex s = .raised .busFault d (ex t) ∧ Ends s t [.xfer sp kind tx .busFault]) := by
  unfold xferOrRaise
  rcases spiXfer_cases sp kind tx s with ⟨t, h, he⟩ | ⟨rx, t, hr, h, he⟩
  · rw [h]; exact .inr ⟨t, rfl, he⟩
  · rw [h]; exact .inl ⟨rx, t, hr, rfl, he⟩

/-! ## Register transactions -/

/-- A register transaction from a released command-select completes, or stops at one of the four places of R155. -/
theorem registerTransaction_cases {sp : Speed} {tx : List Byte} {s : State} (hc : s.csc = .released) (h4 : tx.length = 4) :
    (∃ rx k t, rx.length = 4 ∧ k < 2000 ∧ registerTransaction sp tx s = .ok rx t ∧ Ends s t (registerEvents sp tx rx k)) ∨
    (∃ st t, RegisterStop.Ok st ∧ registerTransaction sp tx s = .raised st.reason 0 t ∧
      Ends (s.setLatch .cmd st.csc) t (st.events sp tx)) := by
  unfold registerTransaction selectCommand deselectCommand
  rcases drive_cases .cmd .asserted s with ⟨t1, h1, e1⟩ | ⟨t1, h1, e1⟩
  · rw [h1, andThen_ok]
    rcases xferOrRaise_cases sp .command tx 0 (tryRelease .cmd) t1 with ⟨rx, t2, hr, h2, e2⟩ | ⟨t2, h2, e2⟩
    · rw [h2, andThen_ok]
      have e12 := e1.trans e2
      rcases awaitOrRaise_cases Config.readyPollBound 0 (tryRelease .cmd) t2 with ⟨k, t3, hk, h3, e3⟩ | ⟨t3, h3, e3⟩
      · rw [h3, andThen_ok]
        have e13 := e12.trans e3
        rcases drive_cases .cmd .released t3 with ⟨t4, h4', e4⟩ | ⟨t4, h4', e4⟩
        · rw [h4', andThen_ok]
          have := (e13.setLatch .cmd .released).trans e4
          rw [setLatch_setLatch, setLatch_cmd_self s hc] at this
          exact .inl ⟨rx, k, t4, hr.trans h4, hk, rfl, by simpa [registerEvents] using this⟩
        · rw [h4', andThen_raised]
          exact .inr ⟨.atRelease rx k, t4, ⟨hr.trans h4, hk⟩, rfl, by simpa [RegisterStop.events, RegisterStop.csc] using e13.trans e4⟩
      · rw [h3, andThen_raised]
        have e13 := e12.trans e3
        obtain ⟨a, ea⟩ := tryRelease_cases .cmd t3 (by rw [e13.csc]; rfl)
        have := (e13.setLatch .cmd (latchAfterRelease a)).trans ea
        rw [setLatch_setLatch] at this
        exact .inr ⟨.atWait rx a, _, hr.trans h4, rfl, by simpa [RegisterStop.events, RegisterStop.csc, Config.readyPollBound] using this⟩
    · rw [h2, andThen_raised]
      have e12 := e1.trans e2
      obtain ⟨a, ea⟩ := tryRelease_cases .cmd t2 (by rw [e12.csc]; rfl)
      have := (e12.setLatch .cmd (latchAfterRelease a)).trans ea
      rw [setLatch_setLatch] at this
      exact .inr ⟨.atExchange a, _, trivial, rfl, by simpa [RegisterStop.events, RegisterStop.csc, Config.readyPollBound] using this⟩
  · rw [h1, andThen_raised]
    refine .inr ⟨.atSelect, t1, trivial, rfl, ?_⟩
    rw [show RegisterStop.csc .atSelect = Level.released from rfl, setLatch_cmd_self s hc]
    exact e1

theorem readRegister_cases {r : ChipReg} {s : State} (hc : s.csc = .released) :
    (∃ rx k t, rx.length = 4 ∧ k < 2000 ∧ readRegister r s = .ok (readValue rx) t ∧
      Ends s t (registerEvents s.spd (readFrame s.cfg r) rx k)) ∨
    (∃ st t, RegisterStop.Ok st ∧ readRegister r s = .raised st.reason 0 t ∧
      Ends (s.setLatch .cmd st.csc) t (st.events s.spd (readFrame s.cfg r))) := by
  unfold readRegister
  rcases registerTransaction_cases (sp := s.spd) (tx := readFrame s.cfg r) hc rfl with ⟨rx, k, t, hr, hk, h, e⟩ | ⟨st, t, ho, h, e⟩
  · exact .inl ⟨rx, k, t, hr, hk, by rw [h]; rfl, e⟩
  · exact .inr ⟨st, t, ho, by rw [h]; rfl, e⟩

theorem writeRegister_cases {sp : Speed} {r : ChipReg} {v : Half} {s : State} (hc : s.csc = .released) :
    (∃ rx k t, rx.length = 4 ∧ k < 2000 ∧ writeRegister sp r v s = .ok () t ∧
      Ends s t (registerEvents sp (writeFrame s.cfg r v) rx k)) ∨
    (∃ st t, RegisterStop.Ok st ∧ writeRegister sp r v s = .raised st.reason 0 t ∧
      Ends (s.setLatch .cmd st.csc) t (st.events sp (writeFrame s.cfg r v))) := by
  unfold writeRegister
  rcases registerTransaction_cases (sp := sp) (tx := writeFrame s.cfg r v) hc rfl with ⟨rx, k, t, hr, hk, h, e⟩ | ⟨st, t, ho, h, e⟩
  · exact .inl ⟨rx, k, t, hr, hk, by rw [h]; rfl, e⟩
  · exact .inr ⟨st, t, ho, by rw [h]; rfl, e⟩

/-! ## The self-test -/

theorem sweepStep_cases {i : Nat} {s : State} (hc : s.csc = .released) :
    (∃ a t, StepTurns.Ok a ∧ sweepStep i s = .ok (a.bad i) t ∧ Ends s t (stepEvents s.cfg s.spd i a)) ∨
    (∃ st t, StepStop.Ok st ∧ sweepStep i s = .raised st.stop.reason 0 t ∧
      Ends (s.setLatch .cmd st.stop.csc) t (st.events s.cfg s.spd i)) := by
  unfold sweepStep
  rcases writeRegister_cases (sp := s.spd) (r := .volume) (v := sweepValue i) hc with ⟨rx, k, t, hr, hk, h, e⟩ | ⟨st, t, ho, h, e⟩
  · rw [h, andThen_ok]
    rcases readRegister_cases (r := .volume) (s := t) (e.csc.trans hc) with ⟨rx1, k1, t1, hr1, hk1, h1, e1⟩ | ⟨st, t1, ho, h1, e1⟩
    · rw [h1, andThen_ok]
      rw [e.spd, e.cfg] at e1
      have e01 := e.trans e1
      rcases readRegister_cases (r := .volume) (s := t1) (e01.csc.trans hc) with ⟨rx2, k2, t2, hr2, hk2, h2, e2⟩ | ⟨st, t2, ho, h2, e2⟩
      · rw [h2, andThen_ok]
        rw [e01.spd, e01.cfg] at e2
        refine .inl ⟨⟨⟨rx, k⟩, ⟨rx1, k1⟩, ⟨rx2, k2⟩⟩, t2, ⟨⟨hr, hk⟩, ⟨hr1, hk1⟩, ⟨hr2, hk2⟩⟩, ?_, ?_⟩
        · rw [← stepBad_eq]
        · simpa [stepEvents] using e01.trans e2
      · rw [h2, andThen_raised]
        rw [e01.spd, e01.cfg] at e2
        exact .inr ⟨.atRead2 ⟨rx, k⟩ ⟨rx1, k1⟩ st, t2, ⟨⟨hr, hk⟩, ⟨hr1, hk1⟩, ho⟩, rfl,
          by simpa [StepStop.events, StepStop.stop] using (e01.setLatch .cmd st.csc).trans e2⟩
    · rw [h1, andThen_raised]
      rw [e.spd, e.cfg] at e1
      exact .inr ⟨.atRead1 ⟨rx, k⟩ st, t1, ⟨⟨hr, hk⟩, ho⟩, rfl, (e.setLatch .cmd st.csc).trans e1⟩
  · rw [h, andThen_raised]
    exact .inr ⟨.atWrite st, t, ho, rfl, e⟩

/-- The answers `a` for the steps before `j`, `b` for step `j`, and whatever for the steps after. -/
def setStep (a : Nat → StepTurns) (j : Nat) (b : StepTurns) : Nat → StepTurns := fun i => if i = j then b else a i

theorem badCount_congr {step : Nat} {a b : Nat → StepTurns} {n : Nat} (h : ∀ j < n, a j = b j) :
    badCount step a n = badCount step b n := by
  unfold badCount
  congr 1
  apply List.filter_congr
  intro j hj
  rw [h j (List.mem_range.1 hj)]

theorem eventsUpTo_congr {n : Nat} {f g : Nat → List Event} (h : ∀ j < n, f j = g j) : eventsUpTo n f = eventsUpTo n g := by
  unfold eventsUpTo
  rw [List.flatMap_def, List.flatMap_def]
  congr 1
  exact List.map_congr_left (fun j hj => h j (List.mem_range.1 hj))

theorem sweepEvents_congr {c : Config} {sp : Speed} {probe : Probe} {a b : Nat → StepTurns} {n : Nat}
    (h : ∀ j < n, a j = b j) : sweepEvents c sp probe a n = sweepEvents c sp probe b n :=
  eventsUpTo_congr (fun j hj => by rw [h j hj])

theorem sweepEvents_succ (c : Config) (sp : Speed) (probe : Probe) (a : Nat → StepTurns) (n : Nat) :
    sweepEvents c sp probe a (n + 1) = sweepEvents c sp probe a n ++ stepEvents c sp (n * stepOf c probe) (a n) :=
  eventsUpTo_succ n _

/-- The sweep from step `j` on, after the steps the answers `a` give: it runs to its end, or stops in some step. -/
theorem sweep_cases {s0 : State} {probe : Probe} (hc : s0.csc = .released) (fuel : Nat) :
    ∀ (j : Nat) (a : Nat → StepTurns) (s : State),
      s0.cfg.sweepLimit ≤ j * stepOf s0.cfg probe + fuel →
      Ends s0 s (sweepEvents s0.cfg s0.spd probe a j) →
      (∀ i < j, (a i).Ok) → j ≤ fullSweep s0.cfg probe → (∀ i < j, badCount (stepOf s0.cfg probe) a i < 20) →
      (∃ b n t, SweepLength s0.cfg probe b n ∧
        sweep (stepOf s0.cfg probe) s0.cfg.sweepLimit fuel (j * stepOf s0.cfg probe) (badCount (stepOf s0.cfg probe) a j) s =
          .ok (badCount (stepOf s0.cfg probe) b n) t ∧
        Ends s0 t (sweepEvents s0.cfg s0.spd probe b n)) ∨
      (∃ b n st t, (∀ i < n, StepTurns.Ok (b i)) ∧ n < fullSweep s0.cfg probe ∧
        (∀ i ≤ n, badCount (stepOf s0.cfg probe) b i < 20) ∧ StepStop.Ok st ∧
        sweep (stepOf s0.cfg probe) s0.cfg.sweepLimit fuel (j * stepOf s0.cfg probe) (badCount (stepOf s0.cfg probe) a j) s =
          .raised st.stop.reason 0 t ∧
        Ends (s0.setLatch .cmd st.stop.csc) t
          (sweepEvents s0.cfg s0.spd probe b n ++ st.events s0.cfg s0.spd (n * stepOf s0.cfg probe))) := by
  have hp := stepOf_pos s0.cfg probe
  have finish : ∀ (j : Nat) (a : Nat → StepTurns) (s : State) (f : Nat),
      ¬(j * stepOf s0.cfg probe < s0.cfg.sweepLimit ∧ badCount (stepOf s0.cfg probe) a j < 20) →
      Ends s0 s (sweepEvents s0.cfg s0.spd probe a j) →
      (∀ i < j, (a i).Ok) → j ≤ fullSweep s0.cfg probe → (∀ i < j, badCount (stepOf s0.cfg probe) a i < 20) →
      (∃ b n t, SweepLength s0.cfg probe b n ∧
        sweep (stepOf s0.cfg probe) s0.cfg.sweepLimit f (j * stepOf s0.cfg probe) (badCount (stepOf s0.cfg probe) a j) s =
          .ok (badCount (stepOf s0.cfg probe) b n) t ∧
        Ends s0 t (sweepEvents s0.cfg s0.spd probe b n)) := by
    intro j a s f hne he hok hj hbad
    refine ⟨a, j, s, ⟨hok, hj, hbad, ?_⟩, sweep_end s hne, he⟩
    by_cases h : j = fullSweep s0.cfg probe
    · exact .inl h
    · have h1 := mul_lt_of_lt_fullSweep (c := s0.cfg) (probe := probe) (j := j) (by omega)
      have h2 : ¬ badCount (stepOf s0.cfg probe) a j < 20 := fun h3 => hne ⟨h1, h3⟩
      refine .inr ?_
      cases j with
      | zero => exact absurd (by simp [badCount]) h2
      | succ j =>
        have h4 := hbad j (by omega)
        rw [badCount_succ] at h2 ⊢
        by_cases hb : (a j).bad (j * stepOf s0.cfg probe) = true
        · rw [if_pos hb] at h2 ⊢; omega
        · rw [if_neg hb] at h2 ⊢; omega
  induction fuel with
  | zero =>
    intro j a s hf he hok hj hbad
    exact .inl (finish j a s 0 (by omega) he hok hj hbad)
  | succ fuel ih =>
    intro j a s hf he hok hj hbad
    by_cases hcond : j * stepOf s0.cfg probe < s0.cfg.sweepLimit ∧ badCount (stepOf s0.cfg probe) a j < 20
    · have hjlt : j < fullSweep s0.cfg probe := by
        by_contra hge
        have h1 := limit_le_fullSweep s0.cfg probe
        have h2 := Nat.mul_le_mul_right (stepOf s0.cfg probe) (show fullSweep s0.cfg probe ≤ j by omega)
        omega
      rw [sweep, if_pos (show _ ∧ _ < Config.selfTestBadLimit from hcond)]
      rcases sweepStep_cases (i := j * stepOf s0.cfg probe) (s := s) (he.csc.trans hc) with ⟨b, t, hb, h, e⟩ | ⟨st, t, ho, h, e⟩
      · rw [h, andThen_ok]
        rw [he.cfg, he.spd] at e
        have hsame : ∀ i < j, setStep a j b i = a i := fun i hi => if_neg (by omega)
        have hat : setStep a j b j = b := if_pos rfl
        have hlim : s0.cfg.sweepLimit ≤ (j + 1) * stepOf s0.cfg probe + fuel := by rw [Nat.add_one_mul]; omega
        have key := ih (j + 1) (setStep a j b) t hlim
          (by rw [sweepEvents_succ, hat, sweepEvents_congr hsame]; exact he.trans e)
          (fun i hi => by
            by_cases hij : i = j
            · subst hij; rw [hat]; exact hb
            · rw [hsame i (by omega)]; exact hok i (by omega))
          (by omega)
          (fun i hi => by
            by_cases hij : i = j
            · subst hij; rw [badCount_congr hsame]; exact hcond.2
            · rw [badCount_congr (fun k hk => hsame k (by omega))]; exact hbad i (by omega))
        rw [badCount_succ, hat, badCount_congr hsame, Nat.add_one_mul] at key
        exact key
      · rw [h, andThen_raised]
        rw [he.cfg, he.spd] at e
        refine .inr ⟨a, j, st, t, hok, hjlt, ?_, ho, rfl, (he.setLatch .cmd st.stop.csc).trans e⟩
        intro i hi
        by_cases hij : i = j
        · subst hij; exact hcond.2
        · exact hbad i (by omega)
    · exact .inl (finish j a s (fuel + 1) hcond he hok hj hbad)

/-- The bad-step count of a self-test run. -/
def TestRun.count (c : Config) (probe : Probe) : TestRun → Nat
  | .notReady => 0
  | .swept a n => badCount (stepOf c probe) a n

/-- A self-test with command-select released returns, or stops in some step (R170 to R175). -/
theorem selfTest_cases {probe : Probe} {s : State} (hc : s.csc = .released) :
    (∃ run t, TestRun.Ok s.cfg probe run ∧ selfTest probe s = .ok (run.pass s.cfg probe, run.count s.cfg probe) t ∧
      Ends s t (run.events s.cfg s.spd probe)) ∨
    (∃ x t, TestStop.Ok s.cfg probe x ∧ selfTest probe s = .raised x.st.stop.reason 0 t ∧
      Ends (s.setLatch .cmd x.st.stop.csc) t (x.events s.cfg s.spd probe)) := by
  unfold selfTest
  obtain ⟨a, t, h, e⟩ := pinSample_cases s
  rw [h]
  cases a with
  | notReady => exact .inl ⟨.notReady, t, trivial, rfl, e⟩
  | ready =>
    dsimp only
    rcases sweep_cases (s0 := t) (probe := probe) (e.csc.trans hc) t.cfg.sweepLimit 0 (fun _ => default) t (by omega)
        (by simpa [sweepEvents, eventsUpTo] using Ends.refl t) (by simp) (by simp) (by simp) with
      ⟨b, n, u, hb, hs, eu⟩ | ⟨b, n, st, u, h1, h2, h3, h4, hs, eu⟩
    · rw [Nat.zero_mul, show badCount _ _ 0 = 0 from rfl, e.cfg] at hs
      rw [hs, andThen_ok]
      rw [e.cfg, e.spd] at eu
      rw [e.cfg] at hb
      exact .inl ⟨.swept b n, u, hb, rfl, by simpa [TestRun.events] using e.trans eu⟩
    · rw [Nat.zero_mul, show badCount _ _ 0 = 0 from rfl, e.cfg] at hs
      rw [hs, andThen_raised]
      rw [e.cfg, e.spd] at eu
      rw [e.cfg] at h2 h3
      exact .inr ⟨⟨b, n, st⟩, u, ⟨h1, h2, h3, h4⟩, rfl, by simpa [TestStop.events] using (e.setLatch .cmd st.stop.csc).trans eu⟩

end Sys2Proof.Machine
end

