-- ==== Sys2Proof/Laws/Clean.lean ====
section
/-! SUPPORT. What every procedure does to the machine whatever the environment answers, said once: it changes the select
latches, the trace and the answers left and nothing else; its traffic is framed by the latches (R24); every data exchange
follows a sample that read `Ready` (R72); and it leaves both lines released unless a drive failed (R136, R261). -/

namespace Sys2Proof.Machine

/-! ## Traces read forwards -/

/-- The latches after these drives, oldest first. -/
def latchesFrom : Level × Level → List Event → Level × Level
  | p, [] => p
  | p, .pin .cmd l .ok :: es => latchesFrom (l, p.2) es
  | p, .pin .dat l .ok :: es => latchesFrom (p.1, l) es
  | p, .pin _ _ .pinFault :: es => latchesFrom p es
  | p, .sample _ :: es => latchesFrom p es
  | p, .delay _ :: es => latchesFrom p es
  | p, .xfer _ _ _ _ :: es => latchesFrom p es

/-- Every exchange of the list happens in the bus mode of its kind, from these latches on. -/
def framedFrom : Level × Level → List Event → Prop
  | _, [] => True
  | p, .pin .cmd l .ok :: es => framedFrom (l, p.2) es
  | p, .pin .dat l .ok :: es => framedFrom (p.1, l) es
  | p, .pin _ _ .pinFault :: es => framedFrom p es
  | p, .sample _ :: es => framedFrom p es
  | p, .delay _ :: es => framedFrom p es
  | p, .xfer _ kind _ _ :: es => busMode p.1 p.2 = modeOfKind kind ∧ framedFrom p es

theorem latchesFrom_append (p : Level × Level) (a b : List Event) :
    latchesFrom p (a ++ b) = latchesFrom (latchesFrom p a) b := by
  induction a generalizing p with
  | nil => rfl
  | cons e es ih =>
    cases e with
    | pin l v x => cases x <;> cases l <;> exact ih _
    | sample _ => exact ih _
    | delay _ => exact ih _
    | xfer _ _ _ _ => exact ih _

theorem framedFrom_append (p : Level × Level) (a b : List Event) :
    framedFrom p (a ++ b) ↔ framedFrom p a ∧ framedFrom (latchesFrom p a) b := by
  induction a generalizing p with
  | nil => simp [framedFrom, latchesFrom]
  | cons e es ih =>
    cases e with
    | pin l v x => cases x <;> cases l <;> exact ih _
    | sample _ => exact ih _
    | delay _ => exact ih _
    | xfer _ k _ _ => simp only [List.cons_append, framedFrom, latchesFrom, ih, and_assoc]

theorem readyBeforeData_mono {evs : List Event} (h : readyBeforeData false evs = true) : readyBeforeData true evs = true := by
  cases evs with
  | nil => rfl
  | cons e es =>
    cases e with
    | pin _ _ _ => exact h
    | sample a => cases a <;> exact h
    | delay _ => exact h
    | xfer _ k _ _ =>
      cases k
      · exact h
      · simp [readyBeforeData] at h

theorem readyBeforeData_append {f : Bool} {a b : List Event} (ha : readyBeforeData f a = true)
    (hb : readyBeforeData false b = true) : readyBeforeData f (a ++ b) = true := by
  induction a generalizing f with
  | nil => cases f <;> [exact hb; exact readyBeforeData_mono hb]
  | cons e es ih =>
    cases e with
    | pin _ _ _ => exact ih ha
    | sample x => cases x <;> exact ih ha
    | delay _ => exact ih ha
    | xfer _ k _ _ =>
      cases k
      · exact ih ha
      · simp only [readyBeforeData, List.cons_append, Bool.and_eq_true] at ha ⊢
        exact ⟨ha.1, ih ha.2⟩

/-- One unit of a burst: the wait's samples, then the exchange. -/
theorem readyBeforeData_timeout (n : Nat) (rest : List Event) (f : Bool) (h : readyBeforeData false rest = true) :
    readyBeforeData f (timeoutEvents n ++ rest) = true := by
  induction n generalizing f with
  | zero => cases f <;> [exact h; exact readyBeforeData_mono h]
  | succ n ih => exact ih false

theorem readyBeforeData_wait (k : Nat) (rest : List Event) (f : Bool) (h : readyBeforeData true rest = true) :
    readyBeforeData f (waitEvents k ++ rest) = true := by
  unfold waitEvents
  induction k generalizing f with
  | zero => cases f <;> exact h
  | succ n ih => exact ih false

@[simp] theorem latchesFrom_timeout (p : Level × Level) (n : Nat) : latchesFrom p (timeoutEvents n) = p := by
  induction n with
  | zero => rfl
  | succ n ih => exact ih

@[simp] theorem framedFrom_timeout (p : Level × Level) (n : Nat) : framedFrom p (timeoutEvents n) := by
  induction n with
  | zero => trivial
  | succ n ih => exact ih

@[simp] theorem latchesFrom_wait (p : Level × Level) (k : Nat) : latchesFrom p (waitEvents k) = p := by
  simp [waitEvents, latchesFrom_append, latchesFrom]

@[simp] theorem framedFrom_wait (p : Level × Level) (k : Nat) : framedFrom p (waitEvents k) := by
  simp [waitEvents, framedFrom_append, framedFrom]

/-- No drive of the list failed. -/
def noPinFault (evs : List Event) : Bool := evs.all (fun e => !e.isPinFault)

@[simp] theorem noPinFault_append (a b : List Event) : noPinFault (a ++ b) = (noPinFault a && noPinFault b) := by
  simp [noPinFault, List.all_append]

/-- No exchange is in the list. -/
def noXfer (evs : List Event) : Bool := evs.all (fun e => !e.isXfer)

@[simp] theorem noXfer_append (a b : List Event) : noXfer (a ++ b) = (noXfer a && noXfer b) := by
  simp [noXfer, List.all_append]

@[simp] theorem noXfer_timeout (n : Nat) : noXfer (timeoutEvents n) = true := by
  induction n with
  | zero => rfl
  | succ n ih => exact ih

@[simp] theorem noXfer_wait (k : Nat) : noXfer (waitEvents k) = true := by simp [waitEvents]; rfl

/-! ## A procedure's part -/

/-- `t` is `s` with other latches, a longer trace and other answers left: nothing else differs. -/
def Moves (s t : State) (evs : List Event) : Prop :=
  t = { s with trace := evs.reverse ++ s.trace, env := t.env, csc := t.csc, csd := t.csd }

theorem Moves.refl (s : State) : Moves s s [] := by simp [Moves]

theorem Moves.trans {s t u : State} {a b : List Event} (h1 : Moves s t a) (h2 : Moves t u b) : Moves s u (a ++ b) := by
  unfold Moves at *
  rw [h2, h1]
  simp

theorem Moves.cfg {s t : State} {a : List Event} (h : Moves s t a) : t.cfg = s.cfg := by rw [h]
theorem Moves.spd {s t : State} {a : List Event} (h : Moves s t a) : t.spd = s.spd := by rw [h]
theorem Moves.vol {s t : State} {a : List Event} (h : Moves s t a) : t.vol = s.vol := by rw [h]
theorem Moves.bal {s t : State} {a : List Event} (h : Moves s t a) : t.bal = s.bal := by rw [h]
theorem Moves.fill {s t : State} {a : List Event} (h : Moves s t a) : t.fill = s.fill := by rw [h]
theorem Moves.lc {s t : State} {a : List Event} (h : Moves s t a) : t.lc = s.lc := by rw [h]
theorem Moves.slowOk {s t : State} {a : List Event} (h : Moves s t a) : t.slowOk = s.slowOk := by rw [h]
theorem Moves.fastOk {s t : State} {a : List Event} (h : Moves s t a) : t.fastOk = s.fastOk := by rw [h]
theorem Moves.pb {s t : State} {a : List Event} (h : Moves s t a) : t.pb = s.pb := by rw [h]
theorem Moves.requests {s t : State} {a : List Event} (h : Moves s t a) : t.requests = s.requests := by rw [h]
theorem Moves.trace {s t : State} {a : List Event} (h : Moves s t a) : t.trace = a.reverse ++ s.trace := by rw [h]
theorem Moves.events {s t : State} {a : List Event} (h : Moves s t a) : t.events = s.events ++ a := by
  rw [State.events, h.trace]; simp [State.events]

theorem Ends.moves {s t : State} {a : List Event} (h : Ends s t a) : Moves s t a := by
  obtain ⟨e, rfl⟩ := h; rfl

theorem Ends.moves_setLatch {s t : State} {l : Line} {v : Level} {a : List Event} (h : Ends (s.setLatch l v) t a) :
    Moves s t a := by
  obtain ⟨e, rfl⟩ := h; cases l <;> rfl

/-- Both lines are released, unless the procedure raised a fault and one of its drives failed: then one at least is. -/
def IdleAfter {α : Type} (r : Result α) (evs : List Event) : Prop :=
  match r with
  | .ok _ t => t.Idle
  | .raised _ _ t => (noPinFault evs = true → t.Idle) ∧ (t.csc = .released ∨ t.csd = .released)

/-- The part of a procedure that starts with both lines released. -/
def Clean {α : Type} (s : State) (r : Result α) : Prop :=
  ∃ evs, Moves s r.state evs ∧ latchesFrom (.released, .released) evs = (r.state.csc, r.state.csd) ∧
    framedFrom (.released, .released) evs ∧ readyBeforeData false evs = true ∧ IdleAfter r evs

theorem Clean.andThen {α β : Type} {s : State} {r : Result α} {k : α → State → Result β} (h : Clean s r)
    (hk : ∀ a t, r = .ok a t → t.Idle → Clean t (k a t)) : Clean s (r.andThen k) := by
  obtain ⟨evs, h1, h2, h3, h4, h5⟩ := h
  cases r with
  | raised f d t => exact ⟨evs, h1, h2, h3, h4, h5⟩
  | ok a t =>
    obtain ⟨evs', g1, g2, g3, g4, g5⟩ := hk a t rfl h5
    have hp : latchesFrom (.released, .released) evs = (.released, .released) := by
      rw [h2]; exact Prod.ext h5.1 h5.2
    refine ⟨evs ++ evs', h1.trans g1, ?_, ?_, readyBeforeData_append h4 g4, ?_⟩
    · rw [latchesFrom_append, hp]; exact g2
    · rw [framedFrom_append, hp]; exact ⟨h3, g3⟩
    · show IdleAfter (k a t) (evs ++ evs')
      unfold IdleAfter at g5 ⊢
      split at g5
      · exact g5
      · refine ⟨fun hn => ?_, g5.2⟩
        rw [noPinFault_append, Bool.and_eq_true] at hn
        exact g5.1 hn.2

theorem Clean.pure {α : Type} {a : α} {s : State} (h : s.Idle) : Clean s (.ok a s) :=
  ⟨[], .refl s, (Prod.ext h.1 h.2).symm, trivial, rfl, h⟩

theorem Clean.delay {α : Type} {s : State} {ms : Nat} {r : Result α} (h : Clean (delay ms s) r) : Clean s r := by
  obtain ⟨evs, h1, h2, h3, h4, h5⟩ := h
  refine ⟨.delay ms :: evs, (delay_ends ms s).moves.trans h1, h2, h3, h4, ?_⟩
  unfold IdleAfter at h5 ⊢
  split at h5
  · exact h5
  · exact ⟨fun hn => h5.1 (by simpa [noPinFault, Event.isPinFault] using hn), h5.2⟩

/-! ## Register transactions -/

theorem registerEvents_latches (sp : Speed) (tx rx : List Byte) (k : Nat) :
    latchesFrom (.released, .released) (registerEvents sp tx rx k) = (.released, .released) := by
  simp [registerEvents, latchesFrom, latchesFrom_append]

theorem registerEvents_framed (sp : Speed) (tx rx : List Byte) (k : Nat) :
    framedFrom (.released, .released) (registerEvents sp tx rx k) := by
  simp [registerEvents, framedFrom, framedFrom_append, busMode, modeOfKind]

theorem registerEvents_ready (sp : Speed) (tx rx : List Byte) (k : Nat) :
    readyBeforeData false (registerEvents sp tx rx k) = true :=
  readyBeforeData_wait k _ false rfl

theorem registerStop_latches (sp : Speed) (tx : List Byte) (st : RegisterStop) :
    latchesFrom (.released, .released) (st.events sp tx) = (st.csc, .released) := by
  cases st with
  | atSelect => rfl
  | atExchange a => cases a <;> rfl
  | atWait rx a => cases a <;> simp [RegisterStop.events, RegisterStop.csc, latchesFrom, latchesFrom_append, latchAfterRelease]
  | atRelease rx k => simp [RegisterStop.events, RegisterStop.csc, latchesFrom, latchesFrom_append]

theorem registerStop_framed (sp : Speed) (tx : List Byte) (st : RegisterStop) :
    framedFrom (.released, .released) (st.events sp tx) := by
  cases st with
  | atSelect => trivial
  | atExchange a => cases a <;> exact ⟨rfl, trivial⟩
  | atWait rx a => cases a <;> simp [RegisterStop.events, framedFrom, framedFrom_append, busMode, modeOfKind]
  | atRelease rx k => simp [RegisterStop.events, framedFrom, framedFrom_append, busMode, modeOfKind]

theorem registerStop_ready (sp : Speed) (tx : List Byte) (st : RegisterStop) :
    readyBeforeData false (st.events sp tx) = true := by
  cases st with
  | atSelect => rfl
  | atExchange a => rfl
  | atWait rx a =>
    unfold RegisterStop.events
    generalize 2000 = n
    exact readyBeforeData_timeout n _ false rfl
  | atRelease rx k => exact readyBeforeData_wait k _ false rfl

theorem registerStop_released (sp : Speed) (tx : List Byte) (st : RegisterStop)
    (h : noPinFault (st.events sp tx) = true) : st.csc = .released := by
  cases st with
  | atSelect => rfl
  | atExchange a => cases a <;> simp_all [RegisterStop.events, RegisterStop.csc, noPinFault, Event.isPinFault, latchAfterRelease]
  | atWait rx a => cases a <;> simp_all [RegisterStop.events, RegisterStop.csc, noPinFault, Event.isPinFault, latchAfterRelease]
  | atRelease rx k => simp [RegisterStop.events, noPinFault, Event.isPinFault] at h

/-- A procedure of one register transaction, seen through its cases. -/
theorem clean_of_register {α : Type} {s : State} {r : Result α} {sp : Speed} {tx : List Byte} (hi : s.Idle)
    (h : (∃ rx k a t, r = .ok a t ∧ Ends s t (registerEvents sp tx rx k)) ∨
      (∃ (st : RegisterStop) (f : AbortReason) (d : Half) (t : State), r = .raised f d t ∧ Ends (s.setLatch .cmd st.csc) t (st.events sp tx))) : Clean s r := by
  rcases h with ⟨rx, k, a, t, rfl, e⟩ | ⟨st, f, d, t, rfl, e⟩
  · refine ⟨_, e.moves, ?_, registerEvents_framed sp tx rx k, registerEvents_ready sp tx rx k, ?_⟩
    · rw [registerEvents_latches]; exact (Prod.ext (e.csc.trans hi.1) (e.csd.trans hi.2)).symm
    · exact ⟨e.csc.trans hi.1, e.csd.trans hi.2⟩
  · refine ⟨_, e.moves_setLatch, ?_, registerStop_framed sp tx st, registerStop_ready sp tx st, ?_⟩
    · rw [registerStop_latches]; exact (Prod.ext e.csc (e.csd.trans hi.2)).symm
    · exact ⟨fun hn => ⟨e.csc.trans (registerStop_released sp tx st hn), e.csd.trans hi.2⟩, .inr (e.csd.trans hi.2)⟩

theorem registerTransaction_clean {sp : Speed} {tx : List Byte} {s : State} (h4 : tx.length = 4) (hi : s.Idle) :
    Clean s (registerTransaction sp tx s) := by
  rcases registerTransaction_cases (sp := sp) hi.1 h4 with ⟨rx, k, t, _, _, h, e⟩ | ⟨st, t, _, h, e⟩
  · exact clean_of_register hi (.inl ⟨rx, k, _, t, h, e⟩)
  · exact clean_of_register hi (.inr ⟨st, _, _, t, h, e⟩)

theorem readRegister_clean {r : ChipReg} {s : State} (hi : s.Idle) : Clean s (readRegister r s) := by
  rcases readRegister_cases (r := r) hi.1 with ⟨rx, k, t, _, _, h, e⟩ | ⟨st, t, _, h, e⟩
  · exact clean_of_register hi (.inl ⟨rx, k, _, t, h, e⟩)
  · exact clean_of_register hi (.inr ⟨st, _, _, t, h, e⟩)

theorem writeRegister_clean {sp : Speed} {r : ChipReg} {v : Half} {s : State} (hi : s.Idle) :
    Clean s (writeRegister sp r v s) := by
  rcases writeRegister_cases (sp := sp) (r := r) (v := v) hi.1 with ⟨rx, k, t, _, _, h, e⟩ | ⟨st, t, _, h, e⟩
  · exact clean_of_register hi (.inl ⟨rx, k, _, t, h, e⟩)
  · exact clean_of_register hi (.inr ⟨st, _, _, t, h, e⟩)

theorem scratchWrite_clean {a d : Half} {s : State} (hi : s.Idle) : Clean s (scratchWrite a d s) :=
  (writeRegister_clean hi).andThen fun _ _ _ h => writeRegister_clean h

theorem scratchRead_clean {a : Half} {s : State} (hi : s.Idle) : Clean s (scratchRead a s) :=
  (writeRegister_clean hi).andThen fun _ _ _ h => readRegister_clean h

/-! ## The self-test -/

theorem sweepStep_clean {i : Nat} {s : State} (hi : s.Idle) : Clean s (sweepStep i s) :=
  (writeRegister_clean hi).andThen fun _ _ _ h => (readRegister_clean h).andThen fun _ _ _ h =>
    (readRegister_clean h).andThen fun _ _ _ h => .pure h

theorem sweep_clean {step limit : Nat} (fuel : Nat) :
    ∀ {i cnt : Nat} {s : State}, s.Idle → Clean s (sweep step limit fuel i cnt s) := by
  induction fuel with
  | zero => intro i cnt s hi; exact .pure hi
  | succ fuel ih =>
    intro i cnt s hi
    rw [sweep]
    split
    · exact (sweepStep_clean hi).andThen fun _ _ _ h => ih h
    · exact .pure hi

/-- A sample before a procedure. -/
theorem Clean.after_wait {α : Type} {s t : State} {evs : List Event} {r : Result α} (e : Ends s t evs)
    (he : evs = [.sample .ready] ∨ evs = [.sample .notReady] ∨ (∃ k, evs = waitEvents k) ∨ ∃ k, evs = timeoutEvents k)
    (h : Clean t r) : Clean s r := by
  obtain ⟨evs', h1, h2, h3, h4, h5⟩ := h
  have key : latchesFrom (.released, .released) evs = (.released, .released) ∧
      framedFrom (.released, .released) evs ∧ readyBeforeData false evs = true ∧ noPinFault evs = true := by
    rcases he with rfl | rfl | ⟨k, rfl⟩ | ⟨k, rfl⟩
    · exact ⟨rfl, trivial, rfl, rfl⟩
    · exact ⟨rfl, trivial, rfl, rfl⟩
    · refine ⟨by simp, by simp, by simpa using readyBeforeData_wait k [] false rfl, ?_⟩
      clear e
      unfold waitEvents
      induction k with
      | zero => rfl
      | succ k ih => exact ih
    · refine ⟨by simp, by simp, by simpa using readyBeforeData_timeout k [] false rfl, ?_⟩
      clear e
      induction k with
      | zero => rfl
      | succ k ih => exact ih
  refine ⟨evs ++ evs', e.moves.trans h1, ?_, ?_, readyBeforeData_append key.2.2.1 h4, ?_⟩
  · rw [latchesFrom_append, key.1]; exact h2
  · rw [framedFrom_append, key.1]; exact ⟨key.2.1, h3⟩
  · unfold IdleAfter at h5 ⊢
    split at h5
    · exact h5
    · refine ⟨fun hn => ?_, h5.2⟩
      rw [noPinFault_append, Bool.and_eq_true] at hn
      exact h5.1 hn.2

theorem Ends.idle {s t : State} {a : List Event} (h : Ends s t a) (hi : s.Idle) : t.Idle :=
  ⟨h.csc.trans hi.1, h.csd.trans hi.2⟩

theorem selfTest_clean {probe : Probe} {s : State} (hi : s.Idle) : Clean s (selfTest probe s) := by
  unfold selfTest
  obtain ⟨a, t, h, e⟩ := pinSample_cases s
  rw [h]
  cases a with
  | notReady => exact .after_wait e (.inr (.inl rfl)) (.pure (e.idle hi))
  | ready => exact .after_wait e (.inl rfl) ((sweep_clean _ (e.idle hi)).andThen fun _ _ _ h => .pure h)

theorem awaitOrRaise_clean {n : Nat} {d : Half} {s : State} (hi : s.Idle) : Clean s (awaitOrRaise n d id s) := by
  rcases awaitOrRaise_cases n d id s with ⟨k, t, _, h, e⟩ | ⟨t, h, e⟩
  · rw [h]; exact .after_wait e (.inr (.inr (.inl ⟨k, rfl⟩))) (.pure (e.idle hi))
  · rw [h]
    refine .after_wait e (.inr (.inr (.inr ⟨n, rfl⟩))) ⟨[], .refl t, ?_, trivial, rfl, fun _ => e.idle hi, .inl (e.idle hi).1⟩
    exact (Prod.ext (e.idle hi).1 (e.idle hi).2).symm

theorem softReset_clean {s : State} (hi : s.Idle) : Clean s (softReset s) :=
  (writeRegister_clean hi).andThen fun _ _ _ h => awaitOrRaise_clean h

/-! ## Data-mode traffic -/

/-- Data-select alone is asserted; or, after a fault, both lines are released, unless a drive failed. -/
def DataAfter {α : Type} (r : Result α) (evs : List Event) : Prop :=
  match r with
  | .ok _ t => t.csc = .released ∧ t.csd = .asserted
  | .raised _ _ t => (noPinFault evs = true → t.Idle) ∧ t.csc = .released

/-- The part of a data-mode loop, which starts and, unless it faults, ends with data-select alone asserted. -/
def DataClean {α : Type} (s : State) (r : Result α) : Prop :=
  ∃ evs, Moves s r.state evs ∧ latchesFrom (.released, .asserted) evs = (r.state.csc, r.state.csd) ∧
    framedFrom (.released, .asserted) evs ∧ readyBeforeData false evs = true ∧ DataAfter r evs

theorem DataClean.andThen {α β : Type} {s : State} {r : Result α} {k : α → State → Result β} (h : DataClean s r)
    (hk : ∀ a t, r = .ok a t → t.csc = .released → t.csd = .asserted → DataClean t (k a t)) :
    DataClean s (r.andThen k) := by
  obtain ⟨evs, h1, h2, h3, h4, h5⟩ := h
  cases r with
  | raised f d t => exact ⟨evs, h1, h2, h3, h4, h5⟩
  | ok a t =>
    obtain ⟨evs', g1, g2, g3, g4, g5⟩ := hk a t rfl h5.1 h5.2
    have hp : latchesFrom (.released, .asserted) evs = (.released, .asserted) := by
      rw [h2]; exact Prod.ext h5.1 h5.2
    refine ⟨evs ++ evs', h1.trans g1, ?_, ?_, readyBeforeData_append h4 g4, ?_⟩
    · rw [latchesFrom_append, hp]; exact g2
    · rw [framedFrom_append, hp]; exact ⟨h3, g3⟩
    · show DataAfter (k a t) (evs ++ evs')
      unfold DataAfter at g5 ⊢
      split at g5
      · exact g5
      · refine ⟨fun hn => ?_, g5.2⟩
        rw [noPinFault_append, Bool.and_eq_true] at hn
        exact g5.1 hn.2

theorem DataClean.pure {α : Type} {a : α} {s : State} (hc : s.csc = .released) (hd : s.csd = .asserted) :
    DataClean s (.ok a s) :=
  ⟨[], .refl s, (Prod.ext hc hd).symm, trivial, rfl, hc, hd⟩

theorem sendUnit_cases (tx : List Byte) (d : Half) {s : State} (hd : s.csd = .asserted) :
    (∃ rx k t, rx.length = tx.length ∧ k < 2000 ∧ sendUnit tx d s = .ok () t ∧ Ends s t (unitEvents s.spd tx rx k)) ∨
    (∃ st t, UnitStop.Ok st ∧ sendUnit tx d s = .raised st.reason d t ∧
      Ends (s.setLatch .dat st.csd) t (st.events s.spd tx)) := by
  unfold sendUnit
  rcases awaitOrRaise_cases Config.readyPollBound d (tryRelease .dat) s with ⟨k, t1, hk, h1, e1⟩ | ⟨t1, h1, e1⟩
  · rw [h1, andThen_ok]
    rcases xferOrRaise_cases t1.spd .data tx d (tryRelease .dat) t1 with ⟨rx, t2, hr, h2, e2⟩ | ⟨t2, h2, e2⟩
    · rw [h2, andThen_ok]
      rw [e1.spd] at e2
      exact .inl ⟨rx, k, t2, hr, hk, rfl, e1.trans e2⟩
    · rw [h2, andThen_raised]
      rw [e1.spd] at e2
      have e12 := e1.trans e2
      obtain ⟨a, ea⟩ := tryRelease_cases .dat t2 (e12.csd.trans hd)
      have := (e12.setLatch .dat (latchAfterRelease a)).trans ea
      exact .inr ⟨.atExchange k a, _, hk, rfl, by simpa [UnitStop.events, UnitStop.csd] using this⟩
  · rw [h1, andThen_raised]
    obtain ⟨a, ea⟩ := tryRelease_cases .dat t1 (e1.csd.trans hd)
    have := (e1.setLatch .dat (latchAfterRelease a)).trans ea
    exact .inr ⟨.atWait a, _, trivial, rfl, by simpa [UnitStop.events, UnitStop.csd, Config.readyPollBound] using this⟩

theorem sendUnit_clean {tx : List Byte} {d : Half} {s : State} (hc : s.csc = .released) (hd : s.csd = .asserted) :
    DataClean s (sendUnit tx d s) := by
  rcases sendUnit_cases tx d hd with ⟨rx, k, t, _, _, h, e⟩ | ⟨st, t, _, h, e⟩
  · rw [h]
    refine ⟨_, e.moves, ?_, ?_, readyBeforeData_wait k _ false rfl, e.csc.trans hc, e.csd.trans hd⟩
    · simp only [unitEvents, latchesFrom_append, latchesFrom_wait, latchesFrom]
      exact (Prod.ext (e.csc.trans hc) (e.csd.trans hd)).symm
    · simp [unitEvents, framedFrom_append, framedFrom, busMode, modeOfKind]
  · rw [h]
    refine ⟨_, e.moves_setLatch, ?_, ?_, ?_, ?_⟩
    · have : (t.csc, t.csd) = (Level.released, st.csd) := Prod.ext (e.csc.trans hc) e.csd
      show _ = (t.csc, t.csd)
      rw [this]
      cases st with
      | atWait a => cases a <;> simp [UnitStop.events, UnitStop.csd, latchesFrom_append, latchesFrom, latchAfterRelease]
      | atExchange k a =>
        cases a <;> simp [UnitStop.events, UnitStop.csd, latchesFrom_append, latchesFrom, latchAfterRelease]
    · cases st with
      | atWait a => cases a <;> simp [UnitStop.events, framedFrom_append, framedFrom]
      | atExchange k a => cases a <;> simp [UnitStop.events, framedFrom_append, framedFrom, busMode, modeOfKind]
    · cases st with
      | atWait a =>
        unfold UnitStop.events
        generalize 2000 = n
        exact readyBeforeData_timeout n _ false rfl
      | atExchange k a => exact readyBeforeData_wait k _ false rfl
    · refine ⟨fun hn => ⟨e.csc.trans hc, e.csd.trans ?_⟩, e.csc.trans hc⟩
      cases st with
      | atWait a => cases a <;> simp_all [UnitStop.events, UnitStop.csd, noPinFault, Event.isPinFault, latchAfterRelease]
      | atExchange k a => cases a <;> simp_all [UnitStop.events, UnitStop.csd, noPinFault, Event.isPinFault, latchAfterRelease]

theorem fillerLoop_clean {fill : Half} (n : Nat) :
    ∀ {s : State}, s.csc = .released → s.csd = .asserted → DataClean s (fillerLoop fill n s) := by
  induction n with
  | zero => intro s hc hd; exact .pure hc hd
  | succ n ih => intro s hc hd; exact (sendUnit_clean hc hd).andThen fun _ _ _ hc hd => ih hc hd

theorem streamLoop_clean {len chunk : Nat} (fuel : Nat) :
    ∀ {cur : Nat} {s : State}, s.csc = .released → s.csd = .asserted → DataClean s (streamLoop len chunk fuel cur s) := by
  induction fuel with
  | zero => intro cur s hc hd; exact .pure hc hd
  | succ n ih =>
    intro cur s hc hd
    rw [streamLoop]
    split
    · exact (sendUnit_clean hc hd).andThen fun _ _ _ hc hd => ih hc hd
    · exact .pure hc hd

/-- A data-mode loop between the select and the release of its bracket. -/
theorem bracket_clean {s : State} {loop : State → Result Unit} (hi : s.Idle)
    (hl : ∀ t : State, t.csc = .released → t.csd = .asserted → DataClean t (loop t)) :
    Clean s ((selectData s).andThen fun _ s => (loop s).andThen fun _ s => deselectData s) := by
  unfold selectData deselectData
  rcases drive_cases .dat .asserted s with ⟨t, h, e⟩ | ⟨t, h, e⟩
  · rw [h, andThen_ok]
    have htc : t.csc = .released := e.csc.trans hi.1
    have htd : t.csd = .asserted := e.csd
    obtain ⟨evs, g1, g2, g3, g4, g5⟩ := hl t htc htd
    have m := e.moves_setLatch.trans g1
    cases hr : loop t with
    | raised f d u =>
      rw [hr] at g1 g2 g5 m
      rw [andThen_raised]
      exact ⟨_, m, g2, g3, g4, fun hn => g5.1 (by simpa [noPinFault, Event.isPinFault] using hn), .inl g5.2⟩
    | ok a u =>
      rw [hr] at g1 g2 g5 m
      have hp : latchesFrom (.released, .asserted) evs = (.released, .asserted) := by
        rw [g2]; exact Prod.ext g5.1 g5.2
      rw [andThen_ok]
      rcases drive_cases .dat .released u with ⟨v, h', e'⟩ | ⟨v, h', e'⟩
      · rw [h']
        refine ⟨_, m.trans e'.moves_setLatch, ?_, ?_, ?_, e'.csc.trans g5.1, e'.csd⟩
        · simp only [List.cons_append, List.nil_append, latchesFrom, latchesFrom_append, hp]
          exact (Prod.ext (e'.csc.trans g5.1) e'.csd).symm
        · simp [framedFrom, framedFrom_append, g3]
        · exact readyBeforeData_append (a := [_] ++ evs) g4 rfl
      · rw [h']
        refine ⟨_, m.trans e'.moves, ?_, ?_, ?_, ?_⟩
        · simp only [List.cons_append, List.nil_append, latchesFrom, latchesFrom_append, hp]
          exact (Prod.ext (e'.csc.trans g5.1) (e'.csd.trans g5.2)).symm
        · simp [framedFrom, framedFrom_append, g3]
        · exact readyBeforeData_append (a := [_] ++ evs) g4 rfl
        · exact ⟨fun hn => by simp [noPinFault, Event.isPinFault] at hn, .inl (e'.csc.trans g5.1)⟩
  · rw [h, andThen_raised]
    exact ⟨_, e.moves, (Prod.ext (e.idle hi).1 (e.idle hi).2).symm, trivial, rfl, fun _ => e.idle hi,
      .inl (e.idle hi).1⟩

theorem writeStream_clean {len chunk : Nat} {s : State} (hi : s.Idle) : Clean s (writeStream len chunk s) :=
  bracket_clean hi fun _ hc hd => streamLoop_clean len hc hd

theorem flushWithFillers_clean {fill : Half} {len : Nat} {s : State} (hi : s.Idle) :
    Clean s (flushWithFillers fill len s) :=
  bracket_clean hi fun _ hc hd => fillerLoop_clean len hc hd

theorem dataTransaction_clean {tx : List Byte} {s : State} (hi : s.Idle) : Clean s (dataTransaction tx s) :=
  bracket_clean hi fun _ hc hd => sendUnit_clean hc hd

theorem stopLoop_clean {fill : Half} (n : Nat) : ∀ {s : State}, s.Idle → Clean s (stopLoop fill n s) := by
  induction n with
  | zero => intro s hi; exact .pure hi
  | succ n ih =>
    intro s hi
    rw [stopLoop]
    refine (flushWithFillers_clean hi).andThen fun _ _ _ h => (readRegister_clean h).andThen fun m _ _ h => ?_
    split
    · exact ih h
    · exact .pure h

theorem stopSequence_clean {fill : Half} {s : State} (hi : s.Idle) : Clean s (stopSequence fill s) :=
  (flushWithFillers_clean hi).andThen fun _ _ _ h => (writeRegister_clean h).andThen fun _ _ _ h => stopLoop_clean _ h

end Sys2Proof.Machine
end

