-- ==== Sys2Proof/Laws/Bring.lean ====
section
/-! SUPPORT. Bring-up whatever the environment answers: what reset signalling can do (R222), how `BEGIN` can end (R221, R223),
and that all its traffic is framed by the latches (R24). -/

namespace Sys2Proof.Machine

/-! ## Traces newest first -/

theorem latchesOf_append (evs tr : List Event) : latchesOf (evs.reverse ++ tr) = latchesFrom (latchesOf tr) evs := by
  induction evs generalizing tr with
  | nil => rfl
  | cons e es ih =>
    rw [List.reverse_cons, List.append_assoc, List.singleton_append, ih]
    cases e with
    | pin l v a => cases l <;> cases a <;> rfl
    | sample _ => rfl
    | delay _ => rfl
    | xfer _ _ _ _ => rfl

theorem framed_append (evs tr : List Event) : Framed (evs.reverse ++ tr) ↔ Framed tr ∧ framedFrom (latchesOf tr) evs := by
  induction evs generalizing tr with
  | nil => simp [framedFrom]
  | cons e es ih =>
    rw [List.reverse_cons, List.append_assoc, List.singleton_append, ih]
    cases e with
    | pin l v a => cases l <;> cases a <;> rfl
    | sample _ => rfl
    | delay _ => rfl
    | xfer _ k _ _ =>
      simp only [Framed, framedFrom, latchesOf]
      tauto

/-- Events framed from the latches keep the traffic framed. -/
theorem TrafficOk.extend {s t : State} {evs : List Event} (h : TrafficOk s) (ht : t.trace = evs.reverse ++ s.trace)
    (hl : latchesFrom (s.csc, s.csd) evs = (t.csc, t.csd)) (hf : framedFrom (s.csc, s.csd) evs) : TrafficOk t := by
  unfold TrafficOk
  rw [ht, latchesOf_append, framed_append, h.1]
  exact ⟨hl, h.2, hf⟩

theorem Clean.traffic {α : Type} {s : State} {r : Result α} (h : Clean s r) (hi : s.Idle) (ht : TrafficOk s) :
    TrafficOk r.state := by
  obtain ⟨evs, h1, h2, h3, _⟩ := h
  have hp : (s.csc, s.csd) = (Level.released, Level.released) := Prod.ext hi.1 hi.2
  exact ht.extend h1.trace (by rw [hp]; exact h2) (by rw [hp]; exact h3)

/-! ## Faults carry no data but in a stream (R250) -/

theorem writeRegister_info {sp : Speed} {r : ChipReg} {v : Half} {s t : State} {f : AbortReason} {d : Half}
    (hi : s.Idle) (h : writeRegister sp r v s = .raised f d t) : d = 0 := by
  rcases writeRegister_cases (sp := sp) (r := r) (v := v) hi.1 with ⟨_, _, _, _, _, h', _⟩ | ⟨_, _, _, h', _⟩ <;>
    rw [h'] at h <;> cases h
  rfl

theorem scratchRead_info {a : Half} {s t : State} {f : AbortReason} {d : Half}
    (hi : s.Idle) (h : scratchRead a s = .raised f d t) : d = 0 := by
  unfold scratchRead at h
  rcases writeRegister_cases (sp := s.spd) (r := .scratchAddr) (v := a) hi.1 with ⟨_, _, u, _, _, h', e⟩ | ⟨_, _, _, h', _⟩
  · rw [h', andThen_ok] at h
    rcases readRegister_cases (r := .scratchData) (e.idle hi).1 with ⟨_, _, _, _, _, h', _⟩ | ⟨_, _, _, h', _⟩ <;>
      rw [h'] at h <;> cases h
    rfl
  · rw [h', andThen_raised] at h; cases h; rfl

theorem selfTest_info {probe : Probe} {s t : State} {f : AbortReason} {d : Half}
    (hi : s.Idle) (h : selfTest probe s = .raised f d t) : d = 0 := by
  rcases selfTest_cases (probe := probe) hi.1 with ⟨_, _, _, h', _⟩ | ⟨_, _, _, h', _⟩ <;> rw [h'] at h <;> cases h
  rfl

/-! ## Reset signalling -/

/-- Reset signalling completes with both lines released, or stops at one of its four drives (R222); every drive is framed
whatever the latches were, since it makes no exchange. -/
theorem resetSignalling_cases (s : State) :
    (∃ t, resetSignalling s = .ok () t ∧ Ends ((s.setLatch .dat .released).setLatch .cmd .released) t (resetEvents s.cfg)) ∨
    (∃ (st : ResetStop) (t : State), resetSignalling s = .raised .pinFault 0 t ∧
      Ends ((s.setLatch .dat (st.csd s.csd)).setLatch .cmd (st.csc s.csc)) t (st.events s.cfg)) := by
  have release : ∀ (l : Line) (u : State), ∃ a, Ends (match a with | .ok => u.setLatch l .released | .pinFault => u)
      (tryRelease l u) [.pin l .released a] := by
    intro l u
    unfold tryRelease
    rcases pinDrive_cases l .released u with ⟨v, hv, e⟩ | ⟨v, hv, e⟩
    · exact ⟨.ok, by rw [hv]; exact e⟩
    · exact ⟨.pinFault, by rw [hv]; exact e⟩
  unfold resetSignalling selectData deselectCommand
  rcases drive_cases .dat .asserted s with ⟨t1, h1, e1⟩ | ⟨t1, h1, e1⟩
  · rw [h1, andThen_ok]
    unfold driveElseRelease
    rcases pinDrive_cases .cmd .asserted t1 with ⟨t2, h2, e2⟩ | ⟨t2, h2, e2⟩
    · rw [h2]
      have e12 := (e1.setLatch .cmd .asserted).trans e2
      simp only [andThen_ok]
      have e13 := e12.trans (delay_ends t2.cfg.tResetAssertMs t2)
      rw [e12.cfg] at e13
      simp only [setLatch_cfg] at e13
      rcases pinDrive_cases .dat .released (delay t2.cfg.tResetAssertMs t2) with ⟨t3, h3, e3⟩ | ⟨t3, h3, e3⟩
      · rw [h3]
        have e14 := (e13.setLatch .dat .released).trans (by rw [e12.cfg] at e3; simpa using e3)
        simp only [andThen_ok]
        rcases drive_cases .cmd .released t3 with ⟨t4, h4, e4⟩ | ⟨t4, h4, e4⟩
        · rw [h4, andThen_ok]
          refine .inl ⟨_, rfl, ?_⟩
          have e15 := (e14.setLatch .cmd .released).trans e4
          have e16 := e15.trans (delay_ends t4.cfg.tResetReleaseMs t4)
          rw [e15.cfg] at e16
          obtain ⟨e, he⟩ := e16
          refine ⟨e, ?_⟩
          rw [e15.cfg, he]
          rfl
        · rw [h4, andThen_raised]
          obtain ⟨e, he⟩ := e14.trans e4
          exact .inr ⟨.atCommandRelease, t4, rfl, e, he⟩
      · rw [h3]
        simp only [andThen_raised]
        obtain ⟨a, ea⟩ := release .cmd t3
        rw [e12.cfg] at e3
        have e14 := e13.trans (by simpa using e3)
        refine .inr ⟨.atDataRelease a, _, rfl, ?_⟩
        cases a with
        | ok => obtain ⟨e, he⟩ := (e14.setLatch .cmd .released).trans ea; exact ⟨e, he⟩
        | pinFault => obtain ⟨e, he⟩ := e14.trans ea; exact ⟨e, he⟩
    · rw [h2]
      simp only [andThen_raised]
      obtain ⟨a, ea⟩ := release .dat t2
      have e12 := e1.trans e2
      refine .inr ⟨.atCommandSelect a, _, rfl, ?_⟩
      cases a with
      | ok => obtain ⟨e, he⟩ := (e12.setLatch .dat .released).trans ea; exact ⟨e, he⟩
      | pinFault => obtain ⟨e, he⟩ := e12.trans ea; exact ⟨e, he⟩
  · rw [h1, andThen_raised]
    obtain ⟨e, he⟩ := e1
    exact .inr ⟨.atDataSelect, t1, rfl, e, he⟩

theorem resetEvents_traffic (c : Config) (p : Level × Level) :
    latchesFrom p (resetEvents c) = (.released, .released) ∧ framedFrom p (resetEvents c) := ⟨rfl, trivial⟩

theorem resetStop_traffic (c : Config) (p : Level × Level) (st : ResetStop) :
    latchesFrom p (st.events c) = (st.csc p.1, st.csd p.2) ∧ framedFrom p (st.events c) := by
  cases st with
  | atDataSelect => exact ⟨rfl, trivial⟩
  | atCommandSelect a => cases a <;> exact ⟨rfl, trivial⟩
  | atDataRelease a => cases a <;> exact ⟨rfl, trivial⟩
  | atCommandRelease => exact ⟨rfl, trivial⟩

/-! ## Bring-up -/

/-- The fields `BEGIN` never writes are the same, and its events come after those before it. -/
def Kept (s t : State) : Prop :=
  t.cfg = s.cfg ∧ t.vol = s.vol ∧ t.bal = s.bal ∧ t.pb = s.pb ∧ t.requests = s.requests ∧
  ∃ evs : List Event, t.trace = evs.reverse ++ s.trace

theorem Kept.refl (s : State) : Kept s s := ⟨rfl, rfl, rfl, rfl, rfl, [], rfl⟩

theorem Kept.trans {s t u : State} (h1 : Kept s t) (h2 : Kept t u) : Kept s u := by
  obtain ⟨a1, a2, a3, a4, a5, e1, h1⟩ := h1
  obtain ⟨b1, b2, b3, b4, b5, e2, h2⟩ := h2
  exact ⟨b1.trans a1, b2.trans a2, b3.trans a3, b4.trans a4, b5.trans a5, e1 ++ e2, by rw [h2, h1]; simp⟩

theorem Moves.kept {s t : State} {evs : List Event} (h : Moves s t evs) : Kept s t :=
  ⟨h.cfg, h.vol, h.bal, h.pb, h.requests, evs, h.trace⟩

/-- How `BEGIN` ends: with the data it answers, or with a fault. -/
structure BringUpEnd (s t : State) : Prop where
  kept    : Kept s t
  stage   : StageOk t
  latches : BothOnlyResetting t
  traffic : TrafficOk s → TrafficOk t

/-- `BEGIN` ends in stage `Ready` with the flags as its data, or with a fault and `RDATA = 0`, in a stage before `Ready` with
no filler latched (R221, R223, R228, R261). -/
theorem bringUp_cases (s : State) :
    (∃ t, bringUp s = .ok (bringUpFlags t.slowOk t.fastOk) t ∧ t.lc = .ready ∧ t.Idle ∧ BringUpEnd s t) ∨
    (∃ f t, bringUp s = .raised f 0 t ∧ t.lc ≠ .ready ∧ t.fill = none ∧ BringUpEnd s t) := by
  unfold bringUp
  rcases resetSignalling_cases (beginEntry s) with ⟨t1, h1, e1⟩ | ⟨st, t1, h1, e1⟩
  · rw [h1, andThen_ok]
    have i1 : t1.Idle := ⟨e1.csc, e1.csd⟩
    have k1 : Kept s t1 := ⟨e1.cfg, e1.vol, e1.bal, e1.pb, e1.requests, _, e1.trace⟩
    have tr1 : TrafficOk s → TrafficOk t1 := fun h => h.extend e1.trace
      ((resetEvents_traffic _ _).1.trans (Prod.ext e1.csc e1.csd).symm) (resetEvents_traffic _ _).2
    have f1 : t1.fill = none := e1.fill
    have sp1 : t1.spd = .slow := e1.spd
    have ok1 : t1.fastOk = false := e1.fastOk
    -- the ready-wait, whose result is ignored
    have hw : ∃ evs, Ends { t1 with lc := .awaitingReady }
        (awaitReady Config.readyPollBound { t1 with lc := .awaitingReady }).2 evs ∧
        latchesFrom (.released, .released) evs = (.released, .released) ∧ framedFrom (.released, .released) evs := by
      rcases awaitReady_cases Config.readyPollBound { t1 with lc := .awaitingReady } with ⟨k, u, _, h, e⟩ | ⟨u, h, e⟩
      · rw [h]; exact ⟨_, e, by simp, by simp⟩
      · rw [h]; exact ⟨_, e, by simp, by simp⟩
    obtain ⟨we, e2, wl, wf⟩ := hw
    generalize hu : (awaitReady Config.readyPollBound { t1 with lc := .awaitingReady }).2 = t2 at e2
    have i2 : t2.Idle := ⟨e2.csc.trans i1.1, e2.csd.trans i1.2⟩
    have k2 : Kept s t2 := k1.trans ⟨e2.cfg, e2.vol, e2.bal, e2.pb, e2.requests, _, e2.trace⟩
    have tr2 : TrafficOk s → TrafficOk t2 := fun h => TrafficOk.extend (tr1 h) e2.trace
      (by
        show latchesFrom (t1.csc, t1.csd) we = (t2.csc, t2.csd)
        rw [i1.1, i1.2, i2.1, i2.2]; exact wl)
      (by
        show framedFrom (t1.csc, t1.csd) we
        rw [i1.1, i1.2]; exact wf)
    have f2 : t2.fill = none := e2.fill.trans f1
    have sp2 : t2.spd = .slow := e2.spd.trans sp1
    have ok2 : t2.fastOk = false := e2.fastOk.trans ok1
    -- the final probe from any stage that may precede it
    have probe : ∀ u : State, u.Idle → Kept s u → (TrafficOk s → TrafficOk u) → u.fill = none → StageOk u →
        u.lc ≠ .ready → (u.spd = .fast ↔ u.slowOk = true) →
        (u.fastOk = true → u.slowOk = true ∧ u.cfg.runFastSelfTest = true) →
        (∃ t, ((finalProbe u).andThen fun _ s => .ok (bringUpFlags s.slowOk s.fastOk) s) =
            .ok (bringUpFlags t.slowOk t.fastOk) t ∧ t.lc = .ready ∧ t.Idle ∧ BringUpEnd s t) ∨
        (∃ f t, ((finalProbe u).andThen fun _ s => Result.ok (bringUpFlags s.slowOk s.fastOk) s) = .raised f 0 t ∧
          t.lc ≠ .ready ∧ t.fill = none ∧ BringUpEnd s t) := by
      intro u iu ku tru fu su lu spu oku
      unfold finalProbe
      have hc := scratchRead_clean (a := u.cfg.saEndFill) iu
      have ht := fun h => hc.traffic iu (tru h)
      obtain ⟨evs, m, _, _, _, hid⟩ := hc
      cases hr : scratchRead u.cfg.saEndFill u with
      | ok v t =>
        rw [hr] at m hid ht
        refine .inl ⟨{ t with fill := some v, lc := .ready }, rfl, rfl, hid, ⟨ku.trans m.kept, ?_, ?_, ht⟩⟩
        · exact ⟨by simp, by rw [show t.spd = u.spd from m.spd, show t.slowOk = u.slowOk from m.slowOk]; exact spu,
            by
              show t.fastOk = true → t.slowOk = true ∧ t.cfg.runFastSelfTest = true
              rw [show t.fastOk = u.fastOk from m.fastOk, show t.slowOk = u.slowOk from m.slowOk,
                show t.cfg = u.cfg from m.cfg]
              exact oku⟩
        · intro hc _; exact absurd (hid.1.symm.trans hc) (by decide)
      | raised f d t =>
        rw [hr] at m hid ht
        have hd := scratchRead_info iu hr
        subst hd
        have hm : t.lc = u.lc := m.lc
        refine .inr ⟨f, t, rfl, by rw [hm]; exact lu, (show t.fill = u.fill from m.fill).trans fu,
          ku.trans m.kept, ?_, ?_, ht⟩
        · unfold StageOk at su ⊢
          rw [hm, show t.spd = u.spd from m.spd, show t.slowOk = u.slowOk from m.slowOk,
            show t.fastOk = u.fastOk from m.fastOk, show t.fill = u.fill from m.fill, show t.cfg = u.cfg from m.cfg]
          exact su
        · intro hc hd'
          rcases hid.2 with h | h
          · exact absurd (h.symm.trans hc) (by decide)
          · exact absurd (h.symm.trans hd') (by decide)
    -- the slow self-test
    have hc := selfTest_clean (probe := .slowProbe) (s := { t2 with lc := .slowSelfTest }) i2
    have ht3 := fun h => hc.traffic i2 (show TrafficOk { t2 with lc := .slowSelfTest } from tr2 h)
    obtain ⟨_, m3, _, _, _, hid3⟩ := hc
    cases hr : selfTest .slowProbe { t2 with lc := .slowSelfTest } with
    | raised f d t3 =>
      rw [hr] at m3 hid3 ht3
      have hd := selfTest_info (s := { t2 with lc := .slowSelfTest }) i2 hr
      subst hd
      have hl : t3.lc = .slowSelfTest := m3.lc
      refine .inr ⟨f, t3, rfl, by rw [hl]; decide, m3.fill.trans f2, k2.trans m3.kept, ?_, ?_, ht3⟩
      · unfold StageOk
        rw [hl]
        exact ⟨m3.spd.trans sp2, m3.fastOk.trans ok2, m3.fill.trans f2⟩
      · intro hc hd'
        rcases hid3.2 with h | h
        · exact absurd (h.symm.trans hc) (by decide)
        · exact absurd (h.symm.trans hd') (by decide)
    | ok r t3 =>
      rw [hr] at m3 hid3 ht3
      rw [andThen_ok]
      have i3 : t3.Idle := hid3
      have k3 : Kept s t3 := k2.trans m3.kept
      have l3 : t3.lc = .slowSelfTest := m3.lc
      have f3 : t3.fill = none := m3.fill.trans f2
      have sp3 : t3.spd = .slow := m3.spd.trans sp2
      have ok3 : t3.fastOk = false := m3.fastOk.trans ok2
      unfold boostStage
      cases hp : r.1 with
      | false =>
        simp only [Bool.false_eq_true, if_false, andThen_ok]
        refine probe { t3 with slowOk := false } i3 k3 ht3 f3 ?_ ?_ ?_ ?_
        · show StageOk { t3 with slowOk := false }
          unfold StageOk
          simp only [l3]
          exact ⟨sp3, ok3, f3⟩
        · show t3.lc ≠ .ready
          rw [l3]; decide
        · simp [sp3]
        · simp [ok3]
      | true =>
        simp only [if_true]
        have hc := writeRegister_clean (sp := .slow) (r := .clock) (v := t3.cfg.clockBoostValue)
          (s := { t3 with slowOk := true }) i3
        have ht4 := fun h => hc.traffic i3 (show TrafficOk { t3 with slowOk := true } from ht3 h)
        obtain ⟨_, m4, _, _, _, hid4⟩ := hc
        cases hr4 : writeRegister .slow .clock t3.cfg.clockBoostValue { t3 with slowOk := true } with
        | raised f d t4 =>
          rw [hr4] at m4 hid4 ht4
          have hd := writeRegister_info (s := { t3 with slowOk := true }) i3 hr4
          subst hd
          rw [andThen_raised, andThen_raised]
          have hl : t4.lc = .slowSelfTest := m4.lc.trans l3
          refine .inr ⟨f, t4, rfl, by rw [hl]; decide, m4.fill.trans f3, k3.trans m4.kept, ?_, ?_, ht4⟩
          · unfold StageOk
            rw [hl]
            exact ⟨m4.spd.trans sp3, m4.fastOk.trans ok3, m4.fill.trans f3⟩
          · intro hc hd'
            rcases hid4.2 with h | h
            · exact absurd (h.symm.trans hc) (by decide)
            · exact absurd (h.symm.trans hd') (by decide)
        | ok _ t4 =>
          rw [hr4] at m4 hid4 ht4
          rw [andThen_ok]
          have i4 : t4.Idle := hid4
          have k4 : Kept s t4 := k3.trans m4.kept
          have f4 : t4.fill = none := m4.fill.trans f3
          have so4 : t4.slowOk = true := m4.slowOk
          have ok4 : t4.fastOk = false := m4.fastOk.trans ok3
          unfold fastStage
          dsimp only
          by_cases hrun : t4.cfg.runFastSelfTest = true
          · rw [if_pos hrun]
            have hc := selfTest_clean (probe := .fastProbe) (s := { t4 with spd := .fast, lc := .fastSelfTest }) i4
            have ht5 := fun h => hc.traffic i4
              (show TrafficOk { t4 with spd := .fast, lc := .fastSelfTest } from ht4 h)
            obtain ⟨_, m5, _, _, _, hid5⟩ := hc
            cases hr5 : selfTest .fastProbe { t4 with spd := .fast, lc := .fastSelfTest } with
            | raised f d t5 =>
              rw [hr5] at m5 hid5 ht5
              have hd := selfTest_info (s := { t4 with spd := .fast, lc := .fastSelfTest }) i4 hr5
              subst hd
              rw [andThen_raised, andThen_raised]
              have hl : t5.lc = .fastSelfTest := m5.lc
              refine .inr ⟨f, t5, rfl, by rw [hl]; decide, m5.fill.trans f4, k4.trans m5.kept, ?_, ?_, ht5⟩
              · unfold StageOk
                rw [hl]
                exact ⟨m5.spd, m5.slowOk.trans so4, m5.fill.trans f4,
                  by rw [show t5.cfg = t4.cfg from m5.cfg]; exact hrun⟩
              · intro hc hd'
                rcases hid5.2 with h | h
                · exact absurd (h.symm.trans hc) (by decide)
                · exact absurd (h.symm.trans hd') (by decide)
            | ok r2 t5 =>
              rw [hr5] at m5 hid5 ht5
              simp only [andThen_ok]
              have l5 : t5.lc = .fastSelfTest := m5.lc
              have c5 : t5.cfg = t4.cfg := m5.cfg
              have so5 : t5.slowOk = true := m5.slowOk.trans so4
              refine probe { t5 with fastOk := r2.1 } hid5 (k4.trans m5.kept) ht5 (m5.fill.trans f4) ?_ ?_ ?_ ?_
              · show StageOk { t5 with fastOk := r2.1 }
                unfold StageOk
                simp only [l5]
                exact ⟨m5.spd, so5, m5.fill.trans f4, by rw [c5]; exact hrun⟩
              · show t5.lc ≠ .ready
                rw [l5]; decide
              · show t5.spd = .fast ↔ t5.slowOk = true
                exact ⟨fun _ => so5, fun _ => m5.spd⟩
              · intro _
                exact ⟨so5, by show t5.cfg.runFastSelfTest = true; rw [c5]; exact hrun⟩
          · rw [if_neg hrun]
            simp only [andThen_ok]
            refine probe { t4 with spd := .fast, lc := .clockBoosted } i4 k4 ht4 f4 ?_ (fun h => nomatch h) ?_ ?_
            · exact ⟨rfl, so4, ok4, f4, by simpa using hrun⟩
            · exact ⟨fun _ => so4, fun _ => rfl⟩
            · intro h
              exact absurd (ok4.symm.trans h) (by decide)
  · rw [h1, andThen_raised]
    have hl : t1.lc = .resetting := e1.lc
    refine .inr ⟨_, t1, rfl, by rw [hl]; decide, e1.fill,
      ⟨e1.cfg, e1.vol, e1.bal, e1.pb, e1.requests, _, e1.trace⟩, ?_, fun _ _ => hl, fun h => h.extend e1.trace ?_ ?_⟩
    · unfold StageOk
      rw [hl]
      exact ⟨e1.spd, e1.slowOk, e1.fastOk, e1.fill⟩
    · exact (resetStop_traffic _ _ st).1.trans (Prod.ext e1.csc e1.csd).symm
    · exact (resetStop_traffic _ _ st).2

end Sys2Proof.Machine
end

