-- ==== Sys2Proof/Laws/Encoding.lean ====
section
/-! SUPPORT. The command word as its four fields (R96), and the small tables of the decoder and their inverses. With these a
fact about a 48-bit word is four facts about bytes and 16-bit fields. -/

namespace Sys2Proof

/-! ## Packing and unpacking -/

theorem packWord_getLsbD (op a : Byte) (b c : Half) (i : Nat) :
    (packWord op a b c).getLsbD i =
      if i < 16 then c.getLsbD i else if i < 32 then b.getLsbD (i - 16) else if i < 40 then a.getLsbD (i - 32)
      else op.getLsbD (i - 40) := by
  have h : (packWord op a b c).getLsbD i = BitVec.getLsbD (w := 8 + 8 + 16 + 16) (op ++ a ++ b ++ c) i := rfl
  rw [h]
  simp only [BitVec.getLsbD_append, Nat.sub_sub, show (i - 16 < 16) = (i < 32) by simp; omega,
    show (i - (16 + 16) < 8) = (i < 40) by simp; omega]

@[simp] theorem fieldOp_packWord (op a : Byte) (b c : Half) : fieldOp (packWord op a b c) = op := by
  unfold fieldOp
  ext i hi
  simp only [BitVec.getElem_extractLsb', packWord_getLsbD]
  rw [if_neg (by omega), if_neg (by omega), if_neg (by omega), Nat.add_sub_cancel_left, BitVec.getLsbD_eq_getElem hi]

@[simp] theorem fieldA_packWord (op a : Byte) (b c : Half) : fieldA (packWord op a b c) = a := by
  unfold fieldA
  ext i hi
  simp only [BitVec.getElem_extractLsb', packWord_getLsbD]
  rw [if_neg (by omega), if_neg (by omega), if_pos (by omega), Nat.add_sub_cancel_left, BitVec.getLsbD_eq_getElem hi]

@[simp] theorem fieldB_packWord (op a : Byte) (b c : Half) : fieldB (packWord op a b c) = b := by
  unfold fieldB
  ext i hi
  simp only [BitVec.getElem_extractLsb', packWord_getLsbD]
  rw [if_neg (by omega), if_pos (by omega), Nat.add_sub_cancel_left, BitVec.getLsbD_eq_getElem hi]

@[simp] theorem fieldC_packWord (op a : Byte) (b c : Half) : fieldC (packWord op a b c) = c := by
  unfold fieldC
  ext i hi
  simp only [BitVec.getElem_extractLsb', packWord_getLsbD]
  rw [if_pos (by omega), Nat.zero_add, BitVec.getLsbD_eq_getElem hi]

/-- A word is its four fields. -/
theorem packWord_fields (w : CmdWord) : packWord (fieldOp w) (fieldA w) (fieldB w) (fieldC w) = w := by
  ext i hi
  rw [← BitVec.getLsbD_eq_getElem, ← BitVec.getLsbD_eq_getElem, packWord_getLsbD]
  simp only [fieldOp, fieldA, fieldB, fieldC, BitVec.getLsbD_extractLsb']
  split
  · simp_all
  · split
    · rw [decide_eq_true (by omega), Bool.true_and]; congr 1; omega
    · split <;> (rw [decide_eq_true (by omega), Bool.true_and]; congr 1; omega)

/-- A mask acts on each field. -/
theorem packWord_and (op a op' a' : Byte) (b c b' c' : Half) :
    packWord op a b c &&& packWord op' a' b' c' = packWord (op &&& op') (a &&& a') (b &&& b') (c &&& c') := by
  ext i hi
  simp only [BitVec.getElem_and]
  simp only [← BitVec.getLsbD_eq_getElem]
  simp only [packWord_getLsbD, BitVec.getLsbD_and]
  split
  · rfl
  · split
    · rfl
    · split <;> rfl

theorem packWord_inj {op a op' a' : Byte} {b c b' c' : Half} :
    packWord op a b c = packWord op' a' b' c' ↔ op = op' ∧ a = a' ∧ b = b' ∧ c = c' := by
  constructor
  · intro h
    have h1 := congrArg fieldOp h
    have h2 := congrArg fieldA h
    have h3 := congrArg fieldB h
    have h4 := congrArg fieldC h
    simp only [fieldOp_packWord, fieldA_packWord, fieldB_packWord, fieldC_packWord] at h1 h2 h3 h4
    exact ⟨h1, h2, h3, h4⟩
  · rintro ⟨rfl, rfl, rfl, rfl⟩; rfl

/-! ## The decoder's tables -/

/-- A row is selected exactly by a word with its fixed bits. -/
theorem matchRow_ok {w m f : CmdWord} {i j : Instr} : matchRow w m f i = .ok j ↔ w &&& m = f ∧ i = j := by
  unfold matchRow; split <;> simp_all

@[simp] theorem regOfSelector_selectorOf (r : ChipReg) : regOfSelector (selectorOf r) = some r := by cases r <;> rfl

theorem regOfSelector_some {s : Byte} {r : ChipReg} (h : regOfSelector s = some r) : selectorOf r = s := by
  simpa using List.find?_some h

/-- Every selector up to 6 names a register (R99). -/
theorem regOfSelector_of_le {s : Byte} (h : s.toNat ≤ 6) : ∃ r, regOfSelector s = some r := by
  have : s = 0 ∨ s = 1 ∨ s = 2 ∨ s = 3 ∨ s = 4 ∨ s = 5 ∨ s = 6 := by bv_omega
  rcases this with rfl | rfl | rfl | rfl | rfl | rfl | rfl <;> exact ⟨_, rfl⟩

/-- R8: the seven wire addresses are pairwise different, so an address names its register. -/
@[simp] theorem regOfWireAddress_wireAddress (c : Config) (r : ChipReg) : regOfWireAddress c (wireAddress c r) = some r := by
  have := c.ok.2.1
  simp only [List.nodup_cons, List.mem_cons, not_or, List.not_mem_nil, not_false_eq_true, and_true] at this
  unfold regOfWireAddress
  cases r <;> simp only [List.find?, wireAddress, beq_self_eq_true]
  all_goals (split <;> first | rfl | simp_all)
  all_goals (repeat (split <;> first | rfl | simp_all))

@[simp] theorem speedOfBit_bitOfSpeed (sp : Speed) : speedOfBit ((bitOfSpeed sp).getLsbD 0) = sp := by cases sp <;> rfl

@[simp] theorem probeOfBit_bitOfProbe (p : Probe) : probeOfBit ((bitOfProbe p).getLsbD 0) = p := by cases p <;> rfl

/-- The opcode as the decoder reads it. -/
theorem fieldOp_of_toNat {w : CmdWord} {n : Nat} (h : (fieldOp w).toNat = n) : fieldOp w = BitVec.ofNat 8 n := by
  subst h; simp

end Sys2Proof
end

