-- ==== Sys2Proof/Laws/Exec.lean ====
section
/-! SUPPORT. From a command's procedure to its next state: admission (R257), the answer, the abort (R260); and what a
composite command can do whatever the environment answers. -/

namespace Sys2Proof.Machine

theorem mode_idle {s : State} : s.mode = .idle ↔ s.Idle := by
  unfold State.mode State.Idle
  cases s.csc <;> cases s.csd <;> simp [busMode]

theorem whenIdle_of_idle {k : State → Result Response} {s : State} (h : s.Idle) : whenIdle k s = (k s).finish :=
  if_pos (mode_idle.2 h)

theorem whenIdle_of_not_idle {k : State → Result Response} {s : State} (h : ¬ s.Idle) :
    whenIdle k s = refuse .illegalState s :=
  if_neg (fun hm => h (mode_idle.1 hm))

theorem whenIdleFilled_none {k : Half → State → Result Response} {s : State} (h : s.fill = none) :
    whenIdleFilled k s = refuse .illegalState s := by
  simp [whenIdleFilled, h]

theorem whenIdleFilled_some {k : Half → State → Result Response} {s : State} {v : Half} (h : s.fill = some v) :
    whenIdleFilled k s = whenIdle (k v) s := by
  simp [whenIdleFilled, h]

theorem whenIdleFilled_of_not_idle {k : Half → State → Result Response} {s : State} (h : ¬ s.Idle) :
    whenIdleFilled k s = refuse .illegalState s := by
  unfold whenIdleFilled
  split
  · exact whenIdle_of_not_idle h
  · rfl

@[simp] theorem finish_ok (r : Response) (s : State) : (Result.ok r s).finish = { s with response := some r } := rfl

@[simp] theorem finish_raised (f : AbortReason) (d : Half) (s : State) :
    (Result.raised f d s).finish = { s with response := some ⟨f.status, d⟩ } := rfl

@[simp] theorem done_ok (s : State) : (Result.ok () s).done = .ok ⟨.ok, 0⟩ s := rfl
@[simp] theorem done_raised (f : AbortReason) (d : Half) (s : State) : (Result.raised f d s).done = .raised f d s := rfl
@[simp] theorem answer_ok (v : Half) (s : State) : (Result.ok v s).answer = .ok ⟨.ok, v⟩ s := rfl
@[simp] theorem answer_raised (f : AbortReason) (d : Half) (s : State) : (Result.raised f d s).answer = .raised f d s := rfl

/-- The command's answer does not touch anything else. -/
theorem finish_eq (r : Result Response) : ∃ resp, r.finish = { r.state with response := some resp } := by
  cases r with
  | ok v s => exact ⟨v, rfl⟩
  | raised f d s => exact ⟨_, rfl⟩

theorem Clean.done {s : State} {r : Result Unit} (h : Clean s r) : Clean s r.done := h.andThen fun _ _ _ h => .pure h
theorem Clean.answer {s : State} {r : Result Half} (h : Clean s r) : Clean s r.answer := h.andThen fun _ _ _ h => .pure h

/-- A composite command is refused with nothing changed, or runs its procedure from `Idle` (R257, R136). Only `SET_VOLUME`
writes a register first, `VOL`. -/
theorem exec_composite {i : Instr} (s : State) (hc : i.composite = true) :
    (∃ st, (st = .illegalState ∨ st = .illegalCommand) ∧ exec i s = .next (refuse st s)) ∨
    (s.Idle ∧ ∃ (vol : Nat) (r : Result Response), exec i s = .next r.finish ∧ Clean { s with vol := vol } r ∧
      (vol = s.vol ∨ ∃ v, i = .setVolume v ∧ vol = clampVol (volumeOf v))) := by
  have run : ∀ k : State → Result Response, (s.Idle → Clean s (k s)) → exec i s = answered (whenIdle k s) →
      (∃ st, (st = .illegalState ∨ st = .illegalCommand) ∧ exec i s = .next (refuse st s)) ∨
      (s.Idle ∧ ∃ (vol : Nat) (r : Result Response), exec i s = .next r.finish ∧ Clean { s with vol := vol } r ∧
        (vol = s.vol ∨ ∃ v, i = .setVolume v ∧ vol = clampVol (volumeOf v))) := by
    intro k hk he
    by_cases hi : s.Idle
    · exact .inr ⟨hi, s.vol, k s, by rw [he, whenIdle_of_idle hi]; rfl, hk hi, .inl rfl⟩
    · exact .inl ⟨_, .inl rfl, by rw [he, whenIdle_of_not_idle hi]; rfl⟩
  have runFilled : ∀ k : Half → State → Result Response, (∀ v, s.Idle → Clean s (k v s)) →
      exec i s = answered (whenIdleFilled k s) →
      (∃ st, (st = .illegalState ∨ st = .illegalCommand) ∧ exec i s = .next (refuse st s)) ∨
      (s.Idle ∧ ∃ (vol : Nat) (r : Result Response), exec i s = .next r.finish ∧ Clean { s with vol := vol } r ∧
        (vol = s.vol ∨ ∃ v, i = .setVolume v ∧ vol = clampVol (volumeOf v))) := by
    intro k hk he
    obtain hf | ⟨v, hf⟩ := Option.eq_none_or_eq_some s.fill
    · exact .inl ⟨_, .inl rfl, by rw [he, whenIdleFilled_none hf]; rfl⟩
    · exact run (k v) (hk v) (by rw [he, whenIdleFilled_some hf])
  cases i with
  | readRegister r => exact run _ (fun h => (readRegister_clean h).answer) rfl
  | writeRegister sp r v => exact run _ (fun h => (writeRegister_clean h).done) rfl
  | scratchWrite a d => exact run _ (fun h => (scratchWrite_clean h).done) rfl
  | scratchRead a => exact run _ (fun h => (scratchRead_clean h).answer) rfl
  | selfTest p => exact run _ (fun h => (selfTest_clean h).andThen fun _ _ _ h => .pure h) rfl
  | writeStream l c =>
    by_cases h0 : chunkSizeOk c = true
    · exact run (fun s => (writeStream (countOf l) (countOf c) s).done) (fun h => (writeStream_clean h).done) (by simp only [exec, execWriteStream, if_pos h0])
    · exact .inl ⟨_, .inr rfl, by simp only [exec, execWriteStream, if_neg h0]; rfl⟩
  | flushWithFillers n => exact runFilled _ (fun _ h => (flushWithFillers_clean h).done) rfl
  | stop => exact runFilled _ (fun _ h => (stopSequence_clean h).andThen fun _ _ _ h => .pure h) rfl
  | setVolume v =>
    by_cases hi : s.Idle
    · refine .inr ⟨hi, clampVol (volumeOf v), (writeRegister s.spd .volume (volumeModel (clampVol (volumeOf v)) s.bal)
        { s with vol := clampVol (volumeOf v) }).done, ?_, ?_, .inr ⟨v, rfl, rfl⟩⟩
      · simp only [exec, execSetVolume, whenIdle_of_idle hi]; rfl
      · exact (writeRegister_clean (s := { s with vol := clampVol (volumeOf v) }) hi).done
    · exact .inl ⟨_, .inl rfl, by simp only [exec, execSetVolume, whenIdle_of_not_idle hi]; rfl⟩
  | switchToMp3Mode =>
    exact run _ (fun h => ((scratchWrite_clean h).andThen fun _ _ _ h => (scratchWrite_clean h).andThen fun _ t _ h =>
      .delay (ms := t.cfg.tMp3SwitchMs) (softReset_clean (s := delay t.cfg.tMp3SwitchMs t) h)).done) rfl
  | softReset => exact run _ (fun h => (softReset_clean h).done) rfl
  | isChipConnected => exact run _ (fun h => (readRegister_clean h).andThen fun _ _ _ h => .pure h) rfl
  | getChipVersion => exact run _ (fun h => (readRegister_clean h).andThen fun _ _ _ h => .pure h) rfl
  | wireReadFrame r =>
    exact run _ (fun h => (registerTransaction_clean rfl h).andThen fun _ _ _ h => .pure h) rfl
  | wireWriteFrame r v =>
    exact run _ (fun h => (registerTransaction_clean rfl h).andThen fun _ _ _ h => .pure h) rfl
  | wireDataChunk b =>
    by_cases hb : chunkBytesOk b = true
    · exact run (fun s => (dataTransaction b s).done) (fun h => (dataTransaction_clean h).done)
        (by simp only [exec, execWireDataChunk, if_pos hb])
    · exact .inl ⟨_, .inr rfl, by simp only [exec, execWireDataChunk, if_neg hb]; rfl⟩
  | wireFillerUnit v =>
    by_cases hv : s.fill = some v
    · exact run (fun s => (dataTransaction (fillerUnit v) s).done) (fun h => (dataTransaction_clean h).done)
        (by simp only [exec, execWireFillerUnit, if_pos hv])
    · exact .inl ⟨_, .inl rfl, by simp only [exec, execWireFillerUnit, if_neg hv]; rfl⟩
  | selectCommand => cases hc
  | deselectCommand => cases hc
  | selectData => cases hc
  | deselectData => cases hc
  | awaitReady n => cases hc
  | setBalance b => cases hc
  | getVolume => cases hc
  | begin => cases hc

/-! ## The other commands -/

/-- A Pin Gate command's one drive (R131 to R134). -/
theorem drive_finish (l : Line) (v : Level) (s : State) :
    ∃ (a : PinAnswer) (u : State), Ends (match a with | .ok => s.setLatch l v | .pinFault => s) u [.pin l v a] ∧
      (drive l v s).done.finish = { u with response := some ⟨match a with | .ok => .ok | .pinFault => .pinFault, 0⟩ } := by
  rcases drive_cases l v s with ⟨t, h, e⟩ | ⟨t, h, e⟩
  · exact ⟨.ok, t, e, by rw [h]; rfl⟩
  · exact ⟨.pinFault, t, e, by rw [h]; rfl⟩

/-- What every instruction but `BEGIN` can do, whatever the environment answers: it answers; it moves the latches and
extends the trace, framed by the latches; `SET_VOLUME` writes `VOL`, `SET_BALANCE` writes `BAL`, and nothing else changes;
the latches are both asserted afterwards only where they were before; and no byte crosses the bus unless both lines were
released when it began (R137). -/
structure Effect (i : Instr) (s u : State) (resp : Response) : Prop where
  answer  : exec i s = .next { u with response := some resp }
  moves   : ∃ (vol : Nat) (bal : Int) (evs : List Event),
    Moves { s with vol := vol, bal := bal } u evs ∧
    latchesFrom (s.csc, s.csd) evs = (u.csc, u.csd) ∧ framedFrom (s.csc, s.csd) evs ∧
    (vol = s.vol ∨ ∃ v, i = .setVolume v ∧ vol = clampVol (volumeOf v)) ∧
    (bal = s.bal ∨ ∃ b, i = .setBalance b ∧ bal = clampBal (balanceOf b)) ∧
    (¬ s.Idle → noXfer evs = true)
  latches : u.csc = .asserted → u.csd = .asserted → s.csc = .asserted ∧ s.csd = .asserted

theorem effect_refuse {i : Instr} {s : State} {st : Status} (h : exec i s = .next (refuse st s)) :
    Effect i s s ⟨st, 0⟩ :=
  ⟨h, ⟨s.vol, s.bal, [], .refl s, rfl, trivial, .inl rfl, .inl rfl, fun _ => rfl⟩, fun h1 h2 => ⟨h1, h2⟩⟩

/-- A command that ends with these events and this answer. -/
theorem effect_of_ends {i : Instr} {s u : State} {resp : Response} {evs : List Event} (e : Ends s u evs)
    (hl : latchesFrom (s.csc, s.csd) evs = (s.csc, s.csd)) (hf : framedFrom (s.csc, s.csd) evs)
    (hx : noXfer evs = true) (h : exec i s = .next { u with response := some resp }) : Effect i s u resp :=
  ⟨h, ⟨s.vol, s.bal, evs, e.moves, hl.trans (Prod.ext e.csc e.csd).symm, hf, .inl rfl, .inl rfl, fun _ => hx⟩,
    fun h1 h2 => ⟨e.csc.symm.trans h1, e.csd.symm.trans h2⟩⟩

/-- A Pin Gate command that may drive its line. -/
theorem effect_of_drive {i : Instr} {s : State} (l : Line) (v : Level)
    (hv : v = .asserted → (match l with | .cmd => s.csd | .dat => s.csc) = .released)
    (h : exec i s = .next (drive l v s).done.finish) : ∃ u resp, Effect i s u resp := by
  obtain ⟨a, u, e, hf⟩ := drive_finish l v s
  rw [hf] at h
  refine ⟨u, _, h, ⟨s.vol, s.bal, [.pin l v a], ?_, ?_, ?_, .inl rfl, .inl rfl, fun _ => rfl⟩, ?_⟩
  · cases a
    · exact e.moves_setLatch
    · exact e.moves
  · cases a <;> cases l <;> exact (Prod.ext e.csc e.csd).symm
  · cases a <;> cases l <;> trivial
  · intro h1 h2
    cases a
    · cases l
      · have c1 : u.csc = v := e.csc
        have c2 : u.csd = s.csd := e.csd
        have := hv (c1.symm.trans h1)
        exact absurd (c2.symm.trans h2) (by rw [show s.csd = .released from this]; decide)
      · have c1 : u.csc = s.csc := e.csc
        have c2 : u.csd = v := e.csd
        have := hv (c2.symm.trans h2)
        exact absurd (c1.symm.trans h1) (by rw [show s.csc = .released from this]; decide)
    · exact ⟨e.csc.symm.trans h1, e.csd.symm.trans h2⟩

theorem exec_effect {i : Instr} (s : State) (hb : i ≠ .begin) : ∃ u resp, Effect i s u resp := by
  by_cases hc : i.composite = true
  · rcases exec_composite s hc with ⟨st, _, h⟩ | ⟨hi, vol, r, h, ⟨evs, m, hl, hf, _, hid⟩, hv⟩
    · exact ⟨s, _, effect_refuse h⟩
    · obtain ⟨resp, hr⟩ := finish_eq r
      rw [hr] at h
      have hp : (s.csc, s.csd) = (Level.released, Level.released) := Prod.ext hi.1 hi.2
      refine ⟨r.state, resp, h, ⟨vol, s.bal, evs, m, by rw [hp]; exact hl, by rw [hp]; exact hf, hv, .inl rfl, fun hn => absurd hi hn⟩, ?_⟩
      intro h1 h2
      cases r with
      | ok v u => exact absurd (hid.1.symm.trans h1) (by decide)
      | raised f d u =>
        rcases hid.2 with h | h
        · exact absurd (h.symm.trans h1) (by decide)
        · exact absurd (h.symm.trans h2) (by decide)
  · cases i with
    | selectCommand =>
      by_cases h : s.csd = .asserted
      · exact ⟨s, _, effect_refuse (st := .illegalState) (by simp only [exec, execSelectCommand, if_pos h, answered])⟩
      · refine effect_of_drive .cmd .asserted (fun _ => ?_) (by simp only [exec, execSelectCommand, if_neg h, answered]; rfl)
        show s.csd = .released
        cases hd : s.csd
        · rfl
        · exact absurd hd h
    | deselectCommand => exact effect_of_drive .cmd .released (fun h => nomatch h) rfl
    | selectData =>
      by_cases h : s.csc = .asserted
      · exact ⟨s, _, effect_refuse (st := .illegalState) (by simp only [exec, execSelectData, if_pos h, answered])⟩
      · refine effect_of_drive .dat .asserted (fun _ => ?_) (by simp only [exec, execSelectData, if_neg h, answered]; rfl)
        show s.csc = .released
        cases hd : s.csc
        · rfl
        · exact absurd hd h
    | deselectData => exact effect_of_drive .dat .released (fun h => nomatch h) rfl
    | awaitReady n =>
      rcases awaitOrRaise_cases (countOf n) 0 id s with ⟨k, u, _, h, e⟩ | ⟨u, h, e⟩
      · exact ⟨u, _, effect_of_ends e (by simp) (by simp) (by simp)
          (show exec (.awaitReady n) s = .next { u with response := some ⟨.ok, 0⟩ } by
            simp only [exec, execAwaitReady, answered, h]; rfl)⟩
      · exact ⟨u, _, effect_of_ends e (by simp) (by simp) (by simp)
          (show exec (.awaitReady n) s = .next { u with response := some ⟨.dataTimeout, 0⟩ } by
            simp only [exec, execAwaitReady, answered, h]; rfl)⟩
    | setBalance b =>
      exact ⟨{ s with bal := clampBal (balanceOf b) }, ⟨.ok, 0⟩, rfl, ⟨s.vol, clampBal (balanceOf b), [], .refl _, rfl, trivial,
        .inl rfl, .inr ⟨b, rfl, rfl⟩, fun _ => rfl⟩, fun h1 h2 => ⟨h1, h2⟩⟩
    | getVolume =>
      exact ⟨s, ⟨.ok, BitVec.ofNat 16 s.vol⟩, rfl, ⟨s.vol, s.bal, [], .refl _, rfl, trivial, .inl rfl, .inl rfl, fun _ => rfl⟩,
        fun h1 h2 => ⟨h1, h2⟩⟩
    | begin => exact absurd rfl hb
    | readRegister r => exact absurd rfl hc
    | writeRegister sp r v => exact absurd rfl hc
    | scratchWrite a d => exact absurd rfl hc
    | scratchRead a => exact absurd rfl hc
    | selfTest p => exact absurd rfl hc
    | writeStream l c => exact absurd rfl hc
    | flushWithFillers n => exact absurd rfl hc
    | stop => exact absurd rfl hc
    | setVolume v => exact absurd rfl hc
    | switchToMp3Mode => exact absurd rfl hc
    | softReset => exact absurd rfl hc
    | isChipConnected => exact absurd rfl hc
    | getChipVersion => exact absurd rfl hc
    | wireReadFrame r => exact absurd rfl hc
    | wireWriteFrame r v => exact absurd rfl hc
    | wireDataChunk b => exact absurd rfl hc
    | wireFillerUnit v => exact absurd rfl hc

end Sys2Proof.Machine
end

