-- ==== Sys2Proof/Laws/Lifecycle.lean ====
section
/-! SUPPORT. The lifecycle procedures under given answers (R154, R175, R221, R222, R225): reset signalling, a self-test of
either outcome or with a stop, the scratch helpers, the final probe. -/

namespace Sys2Proof.Machine

variable (s : State) (evs : List Event)

/-! ## Scratch helpers (R153, R154) -/

theorem scratchWrite_answering {sp : Speed} {a d : Half} {t1 t2 : Turn} (hc : s.csc = .released) (hsp : s.spd = sp)
    (h1 : t1.Ok 4) (h2 : t2.Ok 4) :
    scratchWrite a d (s.answering (registerEvents sp (writeFrame s.cfg .scratchAddr a) t1.rx t1.k ++
        (registerEvents sp (writeFrame s.cfg .scratchData d) t2.rx t2.k ++ evs))) =
      .ok () ((s.after (registerEvents sp (writeFrame s.cfg .scratchAddr a) t1.rx t1.k ++
        registerEvents sp (writeFrame s.cfg .scratchData d) t2.rx t2.k)).answering evs) := by
  subst hsp
  rw [scratchWrite, answering_spd, writeRegister_answering s _ hc h1.1 h1.2, andThen_ok, answering_spd, after_spd]
  have w := writeRegister_answering (s.after (registerEvents s.spd (writeFrame s.cfg .scratchAddr a) t1.rx t1.k)) evs
    (sp := s.spd) (r := .scratchData) (v := d) (by simpa using hc) h2.1 h2.2
  simp only [after_cfg] at w
  rw [w, after_after]

theorem scratchRead_answering {sp : Speed} {a : Half} {t1 t2 : Turn} (hc : s.csc = .released) (hsp : s.spd = sp)
    (h1 : t1.Ok 4) (h2 : t2.Ok 4) :
    scratchRead a (s.answering (registerEvents sp (writeFrame s.cfg .scratchAddr a) t1.rx t1.k ++
        (registerEvents sp (readFrame s.cfg .scratchData) t2.rx t2.k ++ evs))) =
      .ok (readValue t2.rx) ((s.after (registerEvents sp (writeFrame s.cfg .scratchAddr a) t1.rx t1.k ++
        registerEvents sp (readFrame s.cfg .scratchData) t2.rx t2.k)).answering evs) := by
  subst hsp
  rw [scratchRead, answering_spd, writeRegister_answering s _ hc h1.1 h1.2, andThen_ok]
  have w := readRegister_answering (s.after (registerEvents s.spd (writeFrame s.cfg .scratchAddr a) t1.rx t1.k)) evs
    (sp := s.spd) (r := .scratchData) (by simpa using hc) rfl h2.1 h2.2
  simp only [after_cfg] at w
  rw [w, after_after]

/-! ## Self-test (R170 to R175) -/

/-- A sweep step that stops at its write, its first or its second read (R175). -/
theorem sweepStep_stop {sp : Speed} {i : Nat} (st : StepStop) (hc : s.csc = .released) (hsp : s.spd = sp) (hs : st.Ok) :
    sweepStep i (s.answering (st.events s.cfg sp i ++ evs)) =
      .raised st.stop.reason 0 (((s.after (st.events s.cfg sp i)).setLatch .cmd st.stop.csc).answering evs) := by
  subst hsp
  cases st with
  | atWrite st =>
    rw [sweepStep, StepStop.events, answering_spd, writeRegister_stop s _ st hc hs]
    rfl
  | atRead1 w st =>
    obtain ⟨hw, h1⟩ := hs
    rw [sweepStep, StepStop.events, List.append_assoc, answering_spd, writeRegister_answering s _ hc hw.1 hw.2, andThen_ok]
    have r := readRegister_stop (s.after (registerEvents s.spd (writeFrame s.cfg .volume (sweepValue i)) w.rx w.k)) evs
      (sp := s.spd) (r := .volume) st (by simpa using hc) rfl h1
    simp only [after_cfg] at r
    rw [r, andThen_raised]
    simp [StepStop.stop]
  | atRead2 w r1 st =>
    obtain ⟨hw, h1, h2⟩ := hs
    rw [sweepStep, StepStop.events, List.append_assoc, List.append_assoc, answering_spd,
      writeRegister_answering s _ hc hw.1 hw.2, andThen_ok]
    have q := readRegister_answering (s.after (registerEvents s.spd (writeFrame s.cfg .volume (sweepValue i)) w.rx w.k))
      (st.events s.spd (readFrame s.cfg .volume) ++ evs) (sp := s.spd) (r := .volume) (by simpa using hc) rfl h1.1 h1.2
    simp only [after_cfg] at q
    rw [q, andThen_ok]
    have r := readRegister_stop ((s.after (registerEvents s.spd (writeFrame s.cfg .volume (sweepValue i)) w.rx w.k)).after
      (registerEvents s.spd (readFrame s.cfg .volume) r1.rx r1.k)) evs (sp := s.spd) (r := .volume) st (by simpa using hc) rfl h2
    simp only [after_cfg] at r
    rw [r, andThen_raised]
    simp [StepStop.stop]

/-- `self_test` that returns: a line not ready at entry, or a sweep (R170, R173). -/
theorem selfTest_run {sp : Speed} {probe : Probe} (run : TestRun) (hc : s.csc = .released) (hsp : s.spd = sp)
    (h : run.Ok s.cfg probe) :
    selfTest probe (s.answering (run.events s.cfg sp probe ++ evs)) =
      .ok (run.pass s.cfg probe, run.count s.cfg probe) ((s.after (run.events s.cfg sp probe)).answering evs) := by
  cases run with
  | notReady => exact selfTest_notReady s evs probe
  | swept a n => exact selfTest_swept s evs hc hsp h

/-- `self_test` that stops in a step (R175). -/
theorem selfTest_stop {sp : Speed} {probe : Probe} (x : TestStop) (hc : s.csc = .released) (hsp : s.spd = sp)
    (h : x.Ok s.cfg probe) :
    selfTest probe (s.answering (x.events s.cfg sp probe ++ evs)) =
      .raised x.st.stop.reason 0 (((s.after (x.events s.cfg sp probe)).setLatch .cmd x.st.stop.csc).answering evs) := by
  obtain ⟨hok, hn, hbad, hst⟩ := h
  rw [selfTest, TestStop.events, List.cons_append, List.append_assoc, pinSample_answering]
  have run := sweep_steps (x.st.events s.cfg sp (x.n * stepOf s.cfg probe) ++ evs) sp (stepOf s.cfg probe) s.cfg.sweepLimit
    x.a x.n (s.after [.sample .ready]) s.cfg.sweepLimit 0
    (hn.le.trans (fullSweep_le_limit _ _)) (by simpa using hc) (by simpa using hsp)
    (fun i _ hi => ⟨hok i (by omega), mul_lt_of_lt_fullSweep (probe := probe) (by omega), hbad i (by omega)⟩)
  simp only [Nat.zero_mul, Nat.zero_add, after_cfg, after_after] at run
  rw [show badCount (stepOf s.cfg probe) x.a 0 = 0 from rfl] at run
  have hle := fullSweep_le_limit s.cfg probe
  simp only [answering_cfg, sweepEvents]
  rw [run, show s.cfg.sweepLimit - x.n = (s.cfg.sweepLimit - x.n - 1) + 1 by omega, sweep,
    if_pos ⟨mul_lt_of_lt_fullSweep hn, hbad x.n le_rfl⟩]
  have stop := sweepStep_stop (s.after ([.sample .ready] ++
    eventsUpTo x.n fun j => stepEvents s.cfg sp (j * stepOf s.cfg probe) (x.a j))) evs (sp := sp)
    (i := x.n * stepOf s.cfg probe) x.st (by simpa using hc) (by simpa using hsp) hst
  simp only [after_cfg] at stop
  rw [stop, andThen_raised, andThen_raised]
  simp

/-! ## Reset signalling (R222) -/

theorem resetSignalling_answering :
    resetSignalling (s.answering (resetEvents s.cfg ++ evs)) =
      .ok () ((((s.after (resetEvents s.cfg)).setLatch .dat .released).setLatch .cmd .released).answering evs) := by
  simp [resetSignalling, resetEvents, selectData, deselectCommand, driveElseRelease]
  rfl

theorem resetSignalling_stop (st : ResetStop) :
    resetSignalling (s.answering (st.events s.cfg ++ evs)) =
      .raised .pinFault 0
        ((((s.after (st.events s.cfg)).setLatch .dat (st.csd s.csd)).setLatch .cmd (st.csc s.csc)).answering evs) := by
  cases st with
  | atDataSelect => simp [resetSignalling, ResetStop.events, ResetStop.csd, ResetStop.csc, selectData]; rfl
  | atCommandSelect a =>
    cases a <;>
      simp [resetSignalling, ResetStop.events, ResetStop.csd, ResetStop.csc, selectData, driveElseRelease, tryRelease,
        latchAfterRelease]
    all_goals rfl
  | atDataRelease a =>
    cases a <;>
      simp [resetSignalling, ResetStop.events, ResetStop.csd, ResetStop.csc, selectData, driveElseRelease, tryRelease,
        latchAfterRelease]
  | atCommandRelease =>
    simp [resetSignalling, ResetStop.events, ResetStop.csd, ResetStop.csc, selectData, deselectCommand, driveElseRelease]
    rfl

/-- The ready-wait of stage `AwaitingReady`, whichever way it ends (R221). -/
theorem awaitReady_awaiting {w : Option Nat} (h : AwaitingOk w) :
    (awaitReady 2000 (s.answering (awaitingEvents w ++ evs))).2 = (s.after (awaitingEvents w)).answering evs := by
  cases w with
  | some k => simp only [awaitingEvents]; rw [awaitReady_wait s evs (n := 2000) h]
  | none => simp only [awaitingEvents]; rw [awaitReady_timeout]

/-! ## The parts of `BEGIN` (R221) -/

theorem finalProbe_answering {sp : Speed} {p : ProbeTurns} (hc : s.csc = .released) (hsp : s.spd = sp) (hp : p.Ok) :
    finalProbe (s.answering (p.events s.cfg sp ++ evs)) =
      .ok () ((((State.after { s with fill := some (readValue p.read.rx), lc := .ready } (p.events s.cfg sp))).answering evs)) := by
  rw [finalProbe, ProbeTurns.events, List.append_assoc, answering_cfg, scratchRead_answering s evs hc hsp hp.1 hp.2, andThen_ok]
  rfl

theorem finalProbe_stopPointer {sp : Speed} (st : RegisterStop) (hc : s.csc = .released) (hsp : s.spd = sp) (hs : st.Ok) :
    finalProbe (s.answering (st.events sp (writeFrame s.cfg .scratchAddr s.cfg.saEndFill) ++ evs)) =
      .raised st.reason 0 (((s.after (st.events sp (writeFrame s.cfg .scratchAddr s.cfg.saEndFill))).setLatch .cmd
        st.csc).answering evs) := by
  subst hsp
  rw [finalProbe, answering_cfg, scratchRead, answering_spd, writeRegister_stop s evs st hc hs, andThen_raised, andThen_raised]

theorem finalProbe_stopRead {sp : Speed} {t : Turn} (st : RegisterStop) (hc : s.csc = .released) (hsp : s.spd = sp)
    (ht : t.Ok 4) (hs : st.Ok) :
    finalProbe (s.answering (registerEvents sp (writeFrame s.cfg .scratchAddr s.cfg.saEndFill) t.rx t.k ++
        (st.events sp (readFrame s.cfg .scratchData) ++ evs))) =
      .raised st.reason 0 (((s.after (registerEvents sp (writeFrame s.cfg .scratchAddr s.cfg.saEndFill) t.rx t.k ++
        st.events sp (readFrame s.cfg .scratchData))).setLatch .cmd st.csc).answering evs) := by
  subst hsp
  rw [finalProbe, answering_cfg, scratchRead, answering_spd, writeRegister_answering s _ hc ht.1 ht.2, andThen_ok]
  have r := readRegister_stop (s.after (registerEvents s.spd (writeFrame s.cfg .scratchAddr s.cfg.saEndFill) t.rx t.k)) evs
    (sp := s.spd) (r := .scratchData) st (by simpa using hc) rfl hs
  simp only [after_cfg] at r
  rw [r, andThen_raised, after_after]

/-- The clock boost and the fast part after a passed slow self-test. -/
theorem boostStage_answering {clock : Turn} (fast : TestRun) (hc : s.csc = .released) (hk : clock.Ok 4)
    (hf : fast.Ok s.cfg .fastProbe) :
    boostStage true (s.answering (registerEvents .slow (writeFrame s.cfg .clock s.cfg.clockBoostValue) clock.rx clock.k ++
        ((if s.cfg.runFastSelfTest then fast.events s.cfg .fast .fastProbe else []) ++ evs))) =
      .ok () (State.answering (State.after
        { s with
          spd := .fast
          lc := if s.cfg.runFastSelfTest then .fastSelfTest else .clockBoosted
          fastOk := if s.cfg.runFastSelfTest then fast.pass s.cfg .fastProbe else s.fastOk }
        (registerEvents .slow (writeFrame s.cfg .clock s.cfg.clockBoostValue) clock.rx clock.k ++
          (if s.cfg.runFastSelfTest then fast.events s.cfg .fast .fastProbe else []))) evs) := by
  rw [boostStage, if_pos rfl, answering_cfg, writeRegister_answering s _ hc hk.1 hk.2, andThen_ok, fastStage]
  dsimp only [answering_cfg, after_cfg]
  rcases Bool.eq_false_or_eq_true s.cfg.runFastSelfTest with hrun | hrun
  · have t := selfTest_run (State.after { s with spd := .fast, lc := .fastSelfTest }
      (registerEvents .slow (writeFrame s.cfg .clock s.cfg.clockBoostValue) clock.rx clock.k)) evs (sp := .fast)
      (probe := .fastProbe) fast hc rfl hf
    simp only [hrun, if_true]
    erw [t]
    simp [State.answering, State.after, Nat.add_assoc]
  · simp [hrun, State.answering, State.after]

/-- A stop in the clock write. -/
theorem boostStage_stopClock (st : RegisterStop) (hc : s.csc = .released) (hs : st.Ok) :
    boostStage true (s.answering (st.events .slow (writeFrame s.cfg .clock s.cfg.clockBoostValue) ++ evs)) =
      .raised st.reason 0 (((s.after (st.events .slow (writeFrame s.cfg .clock s.cfg.clockBoostValue))).setLatch .cmd
        st.csc).answering evs) := by
  rw [boostStage, if_pos rfl, answering_cfg, writeRegister_stop s evs st hc hs, andThen_raised]

/-- A stop in the fast self-test. -/
theorem boostStage_stopFast {clock : Turn} (x : TestStop) (hc : s.csc = .released) (hk : clock.Ok 4)
    (hrun : s.cfg.runFastSelfTest = true) (hx : x.Ok s.cfg .fastProbe) :
    boostStage true (s.answering (registerEvents .slow (writeFrame s.cfg .clock s.cfg.clockBoostValue) clock.rx clock.k ++
        (x.events s.cfg .fast .fastProbe ++ evs))) =
      .raised x.st.stop.reason 0 (State.answering (State.setLatch (State.after { s with spd := .fast, lc := .fastSelfTest }
        (registerEvents .slow (writeFrame s.cfg .clock s.cfg.clockBoostValue) clock.rx clock.k ++
          x.events s.cfg .fast .fastProbe)) .cmd x.st.stop.csc) evs) := by
  rw [boostStage, if_pos rfl, answering_cfg, writeRegister_answering s _ hc hk.1 hk.2, andThen_ok, fastStage]
  dsimp only [answering_cfg, after_cfg]
  have t := selfTest_stop (State.after { s with spd := .fast, lc := .fastSelfTest }
    (registerEvents .slow (writeFrame s.cfg .clock s.cfg.clockBoostValue) clock.rx clock.k)) evs (sp := .fast)
    (probe := .fastProbe) x hc rfl hx
  simp only [hrun, if_true]
  erw [t]
  rw [andThen_raised, ← after_after]
  rfl

/-- The rest of `BEGIN` after the slow self-test. -/
def afterSlow (pass : Bool) (s : State) : Result Half :=
  (boostStage pass s).andThen fun _ s => (finalProbe s).andThen fun _ s => .ok (bringUpFlags s.slowOk s.fastOk) s

theorem beginEntry_answering : beginEntry (s.answering evs) = (beginEntry s).answering evs := rfl

/-- `BEGIN` up to the end of the slow self-test, from any bus mode and stage. -/
theorem bringUp_slowPhase {w : Option Nat} {slow : TestRun} (hw : AwaitingOk w) (hs : slow.Ok s.cfg .slowProbe) :
    bringUp (s.answering (slowPhaseEvents s.cfg w slow ++ evs)) =
      afterSlow (slow.pass s.cfg .slowProbe) (State.answering
        { s.after (slowPhaseEvents s.cfg w slow) with
          csc := .released, csd := .released, spd := .slow, fill := none, lc := .slowSelfTest,
          slowOk := slow.pass s.cfg .slowProbe, fastOk := false } evs) := by
  rw [bringUp, slowPhaseEvents, List.append_assoc, List.append_assoc, beginEntry_answering]
  have r := resetSignalling_answering (beginEntry s) (awaitingEvents w ++ (slow.events s.cfg .slow .slowProbe ++ evs))
  rw [show (beginEntry s).cfg = s.cfg from rfl] at r
  rw [r, andThen_ok]
  have a := awaitReady_awaiting
    { (((beginEntry s).after (resetEvents s.cfg)).setLatch .dat .released).setLatch .cmd .released with lc := .awaitingReady }
    (slow.events s.cfg .slow .slowProbe ++ evs) hw
  erw [a]
  have t := selfTest_run
    { (State.after { (((beginEntry s).after (resetEvents s.cfg)).setLatch .dat .released).setLatch .cmd .released with
        lc := .awaitingReady } (awaitingEvents w)) with lc := .slowSelfTest } evs (sp := .slow) (probe := .slowProbe) slow
    rfl rfl hs
  erw [t]
  rw [andThen_ok, afterSlow]
  congr 2
  simp [State.answering, State.after, State.setLatch, Nat.add_assoc, beginEntry]

/-- `BEGIN` that stops in the slow self-test. -/
theorem bringUp_stopSlow {w : Option Nat} (x : TestStop) (hw : AwaitingOk w) (hx : x.Ok s.cfg .slowProbe) :
    bringUp (s.answering (resetEvents s.cfg ++ (awaitingEvents w ++ (x.events s.cfg .slow .slowProbe ++ evs)))) =
      .raised x.st.stop.reason 0 (State.answering
        { s.after (resetEvents s.cfg ++ (awaitingEvents w ++ x.events s.cfg .slow .slowProbe)) with
          csc := x.st.stop.csc, csd := .released, spd := .slow, fill := none, lc := .slowSelfTest,
          slowOk := false, fastOk := false } evs) := by
  rw [bringUp, beginEntry_answering]
  have r := resetSignalling_answering (beginEntry s) (awaitingEvents w ++ (x.events s.cfg .slow .slowProbe ++ evs))
  rw [show (beginEntry s).cfg = s.cfg from rfl] at r
  rw [r, andThen_ok]
  have a := awaitReady_awaiting
    { (((beginEntry s).after (resetEvents s.cfg)).setLatch .dat .released).setLatch .cmd .released with lc := .awaitingReady }
    (x.events s.cfg .slow .slowProbe ++ evs) hw
  erw [a]
  have t := selfTest_stop
    { (State.after { (((beginEntry s).after (resetEvents s.cfg)).setLatch .dat .released).setLatch .cmd .released with
        lc := .awaitingReady } (awaitingEvents w)) with lc := .slowSelfTest } evs (sp := .slow) (probe := .slowProbe) x
    rfl rfl hx
  erw [t]
  rw [andThen_raised]
  congr 1
  simp [State.answering, State.after, State.setLatch, Nat.add_assoc, beginEntry]

/-- `BEGIN` up to the final probe: what the registers hold then. -/
theorem bringUp_probe {w : Option Nat} {slow fast : TestRun} {clock : Turn} (hw : AwaitingOk w)
    (hs : slow.Ok s.cfg .slowProbe) (hf : fast.Ok s.cfg .fastProbe) (hk : clock.Ok 4) :
    let c := s.cfg
    let passed := slow.pass c .slowProbe
    let reached := slowPhaseEvents c w slow ++
      (if passed then
          registerEvents .slow (writeFrame c .clock c.clockBoostValue) clock.rx clock.k ++
          (if c.runFastSelfTest then fast.events c .fast .fastProbe else [])
        else [])
    bringUp (s.answering (reached ++ evs)) =
      (finalProbe (State.answering
        { s.after reached with
          csc := .released, csd := .released, spd := if passed then Speed.fast else Speed.slow,
          lc := if passed then (if c.runFastSelfTest then .fastSelfTest else .clockBoosted) else .slowSelfTest,
          slowOk := passed, fastOk := passed && c.runFastSelfTest && fast.pass c .fastProbe, fill := none }
        evs)).andThen fun _ s => .ok (bringUpFlags s.slowOk s.fastOk) s := by
  dsimp only
  rw [List.append_assoc, bringUp_slowPhase s _ hw hs, afterSlow]
  cases hpass : slow.pass s.cfg .slowProbe with
  | false =>
    rw [boostStage, if_neg (by simp), andThen_ok]
    simp
  | true =>
    have b := boostStage_answering
      { s.after (slowPhaseEvents s.cfg w slow) with
        csc := .released, csd := .released, spd := .slow, fill := none, lc := .slowSelfTest, slowOk := true, fastOk := false }
      evs fast rfl hk hf
    simp only [if_true]
    simp only [List.append_assoc]
    erw [b]
    rw [andThen_ok]
    congr 2
    cases hrun : s.cfg.runFastSelfTest <;> simp [hrun, State.after, State.answering, Nat.add_assoc]

end Sys2Proof.Machine
end

