-- ==== Sys2Proof/Laws/Memory.lean ====
section
/-! SUPPORT. The laws of the payload buffer: a byte written reads back, every other byte is unchanged, and every write keeps
the canonical form, in which equal buffers are equal lists. -/

namespace Sys2Proof.Machine

theorem Memory.wfFrom_mono {lo lo' : Nat} {m : Memory} (h : lo ≤ lo') (hm : Memory.wfFrom lo' m = true) :
    Memory.wfFrom lo m = true := by
  cases m with
  | nil => rfl
  | cons c rest =>
    simp only [Memory.wfFrom, Bool.and_eq_true, decide_eq_true_eq] at hm ⊢
    exact ⟨⟨⟨by omega, hm.1.1.2⟩, hm.1.2⟩, hm.2⟩

/-- An index below the canonical form's start is not listed. -/
theorem Memory.read_below {lo i : Nat} {m : Memory} (hm : Memory.wfFrom lo m = true) (hi : i < lo) :
    m.read i = Memory.blank := by
  induction m generalizing lo with
  | nil => rfl
  | cons c rest ih =>
    obtain ⟨a, b⟩ := c
    simp only [Memory.wfFrom, Bool.and_eq_true, decide_eq_true_eq] at hm
    rw [Memory.read, if_neg (by omega)]
    exact ih hm.2 (by omega)

theorem Memory.read_erase {lo : Nat} {m : Memory} (hm : Memory.wfFrom lo m = true) (i a : Nat) :
    (m.erase i).read a = if a = i then Memory.blank else m.read a := by
  induction m generalizing lo with
  | nil => simp [Memory.erase, Memory.read]
  | cons c rest ih =>
    obtain ⟨x, b⟩ := c
    simp only [Memory.wfFrom, Bool.and_eq_true, decide_eq_true_eq] at hm
    rw [Memory.erase]
    by_cases hx : x = i
    · rw [if_pos hx]
      by_cases ha : a = i
      · rw [if_pos ha]; exact Memory.read_below hm.2 (by omega)
      · rw [if_neg ha, Memory.read, if_neg (by omega)]
    · rw [if_neg hx, Memory.read, Memory.read, ih hm.2]
      by_cases ha : a = i
      · rw [if_pos ha, if_neg (by omega), if_pos ha]
      · rw [if_neg ha, if_neg ha]

theorem Memory.read_insert {lo : Nat} {m : Memory} (hm : Memory.wfFrom lo m = true) (i a : Nat) (v : Byte) :
    (m.insert i v).read a = if a = i then v else m.read a := by
  induction m generalizing lo with
  | nil =>
    by_cases ha : a = i
    · simp [Memory.insert, Memory.read, ha]
    · simp [Memory.insert, Memory.read, ha, Ne.symm ha]
  | cons c rest ih =>
    obtain ⟨x, b⟩ := c
    simp only [Memory.wfFrom, Bool.and_eq_true, decide_eq_true_eq] at hm
    rw [Memory.insert]
    by_cases h1 : i < x
    · rw [if_pos h1, Memory.read]
      by_cases ha : a = i
      · rw [if_pos ha, if_pos ha.symm]
      · rw [if_neg ha, if_neg (Ne.symm ha)]
    · rw [if_neg h1]
      by_cases h2 : i = x
      · rw [if_pos h2, Memory.read]
        by_cases ha : a = i
        · rw [if_pos ha, if_pos ha.symm]
        · rw [if_neg ha, if_neg (Ne.symm ha), Memory.read, if_neg (by omega)]
      · rw [if_neg h2, Memory.read, Memory.read, ih hm.2]
        by_cases ha : a = i
        · rw [if_pos ha, if_neg (by omega), if_pos ha]
        · rw [if_neg ha, if_neg ha]

/-- Read after write (R60): the byte written, and every other byte as before. -/
theorem Memory.read_write {m : Memory} (hm : m.wf = true) (i a : Nat) (v : Byte) :
    (m.write i v).read a = if a = i then v else m.read a := by
  unfold Memory.write
  by_cases hv : v = Memory.blank
  · rw [if_pos hv, Memory.read_erase hm, hv]
  · rw [if_neg hv, Memory.read_insert hm]

theorem Memory.wfFrom_erase {lo : Nat} {m : Memory} (hm : Memory.wfFrom lo m = true) (i : Nat) :
    Memory.wfFrom lo (m.erase i) = true := by
  induction m generalizing lo with
  | nil => rfl
  | cons c rest ih =>
    obtain ⟨x, b⟩ := c
    have hm' := hm
    simp only [Memory.wfFrom, Bool.and_eq_true, decide_eq_true_eq] at hm
    rw [Memory.erase]
    by_cases hx : x = i
    · rw [if_pos hx]; exact Memory.wfFrom_mono (by omega) hm.2
    · rw [if_neg hx]
      simp only [Memory.wfFrom, Bool.and_eq_true, decide_eq_true_eq]
      exact ⟨hm.1, ih hm.2⟩

theorem Memory.wfFrom_insert {lo i : Nat} {m : Memory} {v : Byte} (hm : Memory.wfFrom lo m = true) (hlo : lo ≤ i)
    (hi : i < Memory.size) (hv : (v != Memory.blank) = true) : Memory.wfFrom lo (m.insert i v) = true := by
  induction m generalizing lo with
  | nil => simp [Memory.insert, Memory.wfFrom, hlo, hi, hv]
  | cons c rest ih =>
    obtain ⟨x, b⟩ := c
    simp only [Memory.wfFrom, Bool.and_eq_true, decide_eq_true_eq] at hm
    rw [Memory.insert]
    by_cases h1 : i < x
    · rw [if_pos h1]
      simp only [Memory.wfFrom, Bool.and_eq_true, decide_eq_true_eq]
      exact ⟨⟨⟨hlo, hi⟩, hv⟩, ⟨⟨by omega, hm.1.1.2⟩, hm.1.2⟩, hm.2⟩
    · rw [if_neg h1]
      by_cases h2 : i = x
      · rw [if_pos h2]
        simp only [Memory.wfFrom, Bool.and_eq_true, decide_eq_true_eq]
        exact ⟨⟨⟨hlo, hi⟩, hv⟩, by rw [h2]; exact hm.2⟩
      · rw [if_neg h2]
        simp only [Memory.wfFrom, Bool.and_eq_true, decide_eq_true_eq]
        exact ⟨hm.1, ih hm.2 (by omega)⟩

/-- Every write inside the buffer keeps the canonical form. -/
theorem Memory.wf_write {m : Memory} (hm : m.wf = true) {i : Nat} (hi : i < Memory.size) (v : Byte) :
    (m.write i v).wf = true := by
  unfold Memory.write
  by_cases hv : v = Memory.blank
  · rw [if_pos hv]; exact Memory.wfFrom_erase hm i
  · rw [if_neg hv]
    exact Memory.wfFrom_insert hm (Nat.zero_le i) hi (by simpa using hv)

/-- The buffer of the reset state has the canonical form. -/
theorem reset_pb_wf : State.reset.pb.wf = true := rfl

/-- The canonical form is canonical: buffers that read alike are the same list. -/
theorem Memory.ext_of_read {lo : Nat} {m m' : Memory} (h : Memory.wfFrom lo m = true) (h' : Memory.wfFrom lo m' = true)
    (hr : ∀ a, m.read a = m'.read a) : m = m' := by
  induction m generalizing lo m' with
  | nil =>
    cases m' with
    | nil => rfl
    | cons c rest =>
      obtain ⟨x, b⟩ := c
      simp only [Memory.wfFrom, Bool.and_eq_true, decide_eq_true_eq, bne_iff_ne] at h'
      have := hr x
      rw [Memory.read, Memory.read, if_pos rfl] at this
      exact absurd this.symm h'.1.2
  | cons c rest ih =>
    obtain ⟨x, b⟩ := c
    simp only [Memory.wfFrom, Bool.and_eq_true, decide_eq_true_eq, bne_iff_ne] at h
    cases m' with
    | nil =>
      have := hr x
      rw [Memory.read, Memory.read, if_pos rfl] at this
      exact absurd this h.1.2
    | cons c' rest' =>
      obtain ⟨y, d⟩ := c'
      simp only [Memory.wfFrom, Bool.and_eq_true, decide_eq_true_eq, bne_iff_ne] at h'
      have hxy : x = y := by
        rcases Nat.lt_trichotomy x y with hlt | heq | hgt
        · have := hr x
          rw [Memory.read, if_pos rfl, Memory.read, if_neg (by omega), Memory.read_below h'.2 (by omega)] at this
          exact absurd this h.1.2
        · exact heq
        · have := hr y
          rw [Memory.read, if_neg (by omega), Memory.read, if_pos rfl, Memory.read_below h.2 (by omega)] at this
          exact absurd this.symm h'.1.2
      subst hxy
      have hb := hr x
      rw [Memory.read, if_pos rfl, Memory.read, if_pos rfl] at hb
      subst hb
      rw [ih h.2 h'.2 (fun a => ?_)]
      by_cases ha : a ≤ x
      · rw [Memory.read_below h.2 (by omega), Memory.read_below h'.2 (by omega)]
      · have := hr a
        rwa [Memory.read, if_neg (by omega), Memory.read, if_neg (by omega)] at this

end Sys2Proof.Machine
end

