-- ==== Sys2Proof/Laws/PerInstr.lean ====
section
/-! SUPPORT. Statements about every instruction as syntax, one lemma per constructor. `Carrier`: a host command is carried by
a 48-bit command word, a wire frame by its own bytes (R96, R137). -/

namespace Sys2Proof.Laws.Carrier

/-- The instruction's packet is a command word exactly where its row has format CW48; the four wire frames have none
(R137). -/
def Statement (i : Instr) : Prop :=
  ∀ c : Config, (∃ w, encode c i = .command w) ↔
    i.mnemonic ∉ ["WIRE_READ_FRAME", "WIRE_WRITE_FRAME", "WIRE_DATA_CHUNK", "WIRE_FILLER_UNIT"]

/-- A host command. -/
theorem of_command {i : Instr} {w : CmdWord} (h : ∀ c, encode c i = .command w)
    (hm : i.mnemonic ∉ ["WIRE_READ_FRAME", "WIRE_WRITE_FRAME", "WIRE_DATA_CHUNK", "WIRE_FILLER_UNIT"]) : Statement i :=
  fun c => ⟨fun _ => hm, fun _ => ⟨w, h c⟩⟩

/-- A wire frame. -/
theorem of_frame {i : Instr} (h : ∀ c w, encode c i ≠ .command w)
    (hm : i.mnemonic ∈ ["WIRE_READ_FRAME", "WIRE_WRITE_FRAME", "WIRE_DATA_CHUNK", "WIRE_FILLER_UNIT"]) : Statement i :=
  fun c => ⟨fun ⟨w, hw⟩ => absurd hw (h c w), fun hn => absurd hm hn⟩

theorem selectCommand : Statement .selectCommand := of_command (fun _ => rfl) (by simp [Instr.mnemonic])
theorem deselectCommand : Statement .deselectCommand := of_command (fun _ => rfl) (by simp [Instr.mnemonic])
theorem selectData : Statement .selectData := of_command (fun _ => rfl) (by simp [Instr.mnemonic])
theorem deselectData : Statement .deselectData := of_command (fun _ => rfl) (by simp [Instr.mnemonic])
theorem awaitReady (n : Half) : Statement (.awaitReady n) := of_command (fun _ => rfl) (by simp [Instr.mnemonic])
theorem readRegister (r : ChipReg) : Statement (.readRegister r) := of_command (fun _ => rfl) (by simp [Instr.mnemonic])
theorem writeRegister (sp : Speed) (r : ChipReg) (v : Half) : Statement (.writeRegister sp r v) := of_command (fun _ => rfl) (by simp [Instr.mnemonic])
theorem scratchWrite (a d : Half) : Statement (.scratchWrite a d) := of_command (fun _ => rfl) (by simp [Instr.mnemonic])
theorem scratchRead (a : Half) : Statement (.scratchRead a) := of_command (fun _ => rfl) (by simp [Instr.mnemonic])
theorem selfTest (p : Probe) : Statement (.selfTest p) := of_command (fun _ => rfl) (by simp [Instr.mnemonic])
theorem writeStream (l n : Half) : Statement (.writeStream l n) := of_command (fun _ => rfl) (by simp [Instr.mnemonic])
theorem flushWithFillers (n : Half) : Statement (.flushWithFillers n) := of_command (fun _ => rfl) (by simp [Instr.mnemonic])
theorem stop : Statement .stop := of_command (fun _ => rfl) (by simp [Instr.mnemonic])
theorem setVolume (v : Byte) : Statement (.setVolume v) := of_command (fun _ => rfl) (by simp [Instr.mnemonic])
theorem setBalance (b : Half) : Statement (.setBalance b) := of_command (fun _ => rfl) (by simp [Instr.mnemonic])
theorem getVolume : Statement .getVolume := of_command (fun _ => rfl) (by simp [Instr.mnemonic])
theorem begin : Statement .begin := of_command (fun _ => rfl) (by simp [Instr.mnemonic])
theorem switchToMp3Mode : Statement .switchToMp3Mode := of_command (fun _ => rfl) (by simp [Instr.mnemonic])
theorem softReset : Statement .softReset := of_command (fun _ => rfl) (by simp [Instr.mnemonic])
theorem isChipConnected : Statement .isChipConnected := of_command (fun _ => rfl) (by simp [Instr.mnemonic])
theorem getChipVersion : Statement .getChipVersion := of_command (fun _ => rfl) (by simp [Instr.mnemonic])
theorem wireReadFrame (r : ChipReg) : Statement (.wireReadFrame r) := of_frame (fun _ _ => nofun) (by simp [Instr.mnemonic])
theorem wireWriteFrame (r : ChipReg) (v : Half) : Statement (.wireWriteFrame r v) := of_frame (fun _ _ => nofun) (by simp [Instr.mnemonic])
theorem wireDataChunk (b : List Byte) : Statement (.wireDataChunk b) := of_frame (fun _ _ => nofun) (by simp [Instr.mnemonic])
theorem wireFillerUnit (v : Half) : Statement (.wireFillerUnit v) := of_frame (fun _ _ => nofun) (by simp [Instr.mnemonic])

end Sys2Proof.Laws.Carrier
end

