-- ==== Sys2Proof/Laws/Step.lean ====
section
/-! SUPPORT. What one step can do, said once: wait, take a payload write, or carry out a packet, whether the host's command
word or the bus engine's frame (R71, R137, R259). -/

namespace Sys2Proof.Machine

theorem runPacket_ok {p : Packet} {s : State} {i : Instr} (h : decode s.cfg p = .ok i) : runPacket p s = exec i s := by
  simp [runPacket, h]

theorem runPacket_error {p : Packet} {s : State} {e : Illegal} (h : decode s.cfg p = .error e) :
    runPacket p s = .next (refuseIllegal s) := by
  simp [runPacket, h]

/-- A packet is the instruction it decodes to, or is refused. -/
theorem runPacket_cases {p : Packet} {s t : State} (h : runPacket p s = .next t) :
    (∃ i, decode s.cfg p = .ok i ∧ exec i s = .next t) ∨ (∃ e, decode s.cfg p = .error e ∧ t = refuseIllegal s) := by
  cases hd : decode s.cfg p with
  | ok i => exact .inl ⟨i, rfl, (runPacket_ok hd).symm.trans h⟩
  | error e =>
    rw [runPacket_error hd] at h
    cases h
    exact .inr ⟨e, rfl, rfl⟩

theorem step_of_request {s : State} {p : Packet} {rest : List Request} (h : s.requests = requestOf p :: rest) :
    step s = runPacket p s.take := by
  cases p <;> simp [step, h, requestOf]

/-- Every step is one of these. -/
theorem step_cases {s t : State} (h : step s = .next t) :
    (s.requests = [] ∧ t = s) ∨
    (∃ index value rest, s.requests = .writePayload index value :: rest ∧ t = hostWritePayload index value s.take) ∨
    (∃ p rest, s.requests = requestOf p :: rest ∧ runPacket p s.take = .next t) := by
  cases hr : s.requests with
  | nil =>
    simp only [step, hr] at h
    cases h
    exact .inl ⟨rfl, rfl⟩
  | cons r rest =>
    cases r with
    | issue w => exact .inr (.inr ⟨.command w, rest, rfl, (step_of_request (p := .command w) hr).symm.trans h⟩)
    | frame f => exact .inr (.inr ⟨.frame f, rest, rfl, (step_of_request (p := .frame f) hr).symm.trans h⟩)
    | writePayload index value =>
      simp only [step, hr] at h
      cases h
      exact .inr (.inl ⟨index, value, rest, rfl, rfl⟩)

end Sys2Proof.Machine
end

