-- ==== Sys2Proof/Laws/Volume.lean ====
section
/-! SUPPORT. The volume arithmetic at the document's values of the constants it reads (R6): the formulas as R200 to R203 write
them. -/

namespace Sys2Proof.Machine

theorem clampVol_eq (v : Nat) : clampVol v = min v 100 := rfl

theorem clampBal_eq (b : Int) : clampBal b = max (-100) (min 100 b) := rfl

theorem rightInput_eq (v : Nat) (b : Int) : rightInput v b = if b < 0 then min 100 (v + b.natAbs) else v := rfl

/-- R203: `hw(x) = floor(((100 − x) · 254 + 50) / 100)`. -/
theorem hwByte_eq (x : Nat) : hwByte x = BitVec.ofNat 8 (((100 - x) * 254 + 50) / 100) := by
  simp [hwByte, hwSpan, Config.hwLoudest, Config.hwQuietest, Config.volMax]

/-- The formula's value fits its byte, so the byte is the value. -/
theorem hwByte_toNat (x : Nat) : (hwByte x).toNat = ((100 - x) * 254 + 50) / 100 := by
  rw [hwByte_eq, BitVec.toNat_ofNat]
  omega

end Sys2Proof.Machine
end

