-- ==== Sys2Proof/Tests/Slice0.lean ====
section
/-! SUPPORT. The model's own tests. Expected results come from spec/95_test_vectors.md (the vector's name is cited) or are
written out from the rule cited. Then, for every statement of Certificates/Slice0/Obligations.lean that has hypotheses, a
witness that meets them. -/

namespace Sys2Proof.Machine.Tests

/-! ## Helpers -/

/-- The next state, if there is one. -/
def after? (o : Host.Outcome State Fault Refusal) : Option State :=
  match o with
  | .next t => some t
  | .fault _ => none
  | .refused _ => none

/-- The events and the response of an instruction whose environment answers as `evs` say. -/
def observe (i : Instr) (s : State) (evs : List Event) : Option (List Event × Option Response) :=
  (after? (exec i (s.answering evs))).map fun t => (t.events, t.response)

/-- `P(CMD,A)`, `P(CMD,R)`, `P(DAT,A)`, `P(DAT,R)`, `S=1` (R13). -/
abbrev pCA : Event := .pin .cmd .asserted .ok
abbrev pCR : Event := .pin .cmd .released .ok
abbrev pDA : Event := .pin .dat .asserted .ok
abbrev pDR : Event := .pin .dat .released .ok
abbrev s1 : Event := .sample .ready

/-- A completed exchange. -/
abbrev x (sp : Speed) (k : Kind) (tx rx : List Byte) : Event := .xfer sp k tx (.data rx)

/-- The reset state with both lines released, and with one line asserted. -/
abbrev idle : State := State.reset
abbrev inCmd : State := { State.reset with csc := .asserted }
abbrev inDat : State := { State.reset with csd := .asserted }

/-- After a bring-up: `FILL = 0x0055`, `SPD = Fast` (V-STR-10). -/
abbrev ready : State := { State.reset with fill := some 0x0055, spd := .fast, lc := .ready, slowOk := true }

/-- A binding with a short sweep and short flushes, so that whole commands can be evaluated. -/
def small : Config := { Config.bindGK with stepSlow := 1, stepFast := 2, sweepLimit := 2, flushLarge := 1, flushSmall := 1, ok := by decide }

/-- The same with a sweep of 30 steps, more than the 20 bad ones that end it. -/
def longer : Config := { Config.bindGK with stepSlow := 1, sweepLimit := 30, ok := by decide }

/-- The ready machine with the small binding. -/
abbrev readySmall : State := { ready with cfg := small }

/-! ## Decoding: words written out from R98 and R91 to R94 -/

/-- `OP`, the zero fields. -/
theorem test_decode_fixed_words :
    [0x100000000000, 0x110000000000, 0x120000000000, 0x130000000000, 0x520000000000, 0x620000000000, 0x700000000000,
      0x710000000000, 0x720000000000, 0x730000000000, 0x740000000000].map (decodeTableWord 48) =
    [some .selectCommand, some .deselectCommand, some .selectData, some .deselectData, some .stop, some .getVolume,
      some .begin, some .switchToMp3Mode, some .softReset, some .isChipConnected, some .getChipVersion] := by decide

/-- Words with operands, bit by bit: `20 00 0000 07D0`; `30 sel 0000 0000`; `31 sel 000s vvvv`; `32 00 aaaa dddd`;
`33 00 aaaa 0000`; `40 0p 0000 0000`; `50 00 LLLL cccc`; `51 00 nnnn 0000`; `60 00 0000 00vv`; `61 00 0000 bbbb`. -/
theorem test_decode_operand_words :
    [0x2000000007D0, 0x300100000000, 0x310400011234, 0x310000000804, 0x3200C0170003, 0x33001E060000, 0x400000000000,
      0x400100000000, 0x500000640020, 0x510000020000, 0x6000000000C8, 0x61000000FF6A].map (decodeTableWord 48) =
    [some (.awaitReady 2000), some (.readRegister .status), some (.writeRegister .fast .volume 0x1234),
      some (.writeRegister .slow .mode 0x0804), some (.scratchWrite 0xC017 3), some (.scratchRead 0x1E06),
      some (.selfTest .slowProbe), some (.selfTest .fastProbe), some (.writeStream 100 32), some (.flushWithFillers 2),
      some (.setVolume 200), some (.setBalance 0xFF6A)] := by decide

/-- Every selector (R99). -/
theorem test_decode_selectors :
    [0x300000000000, 0x300100000000, 0x300200000000, 0x300300000000, 0x300400000000, 0x300500000000,
      0x300600000000].map (decodeTableWord 48) =
    [some (.readRegister .mode), some (.readRegister .status), some (.readRegister .clock), some (.readRegister .audioRate),
      some (.readRegister .volume), some (.readRegister .scratchAddr), some (.readRegister .scratchData)] := by decide

/-- Wire frames under `BIND_GK`: `[03 01 FF FF]` (V-REG-1), `[02 0B 7F 00]` (V-VOL-3), one payload byte, `[00 55]`. -/
theorem test_decode_wire_frames :
    decodeTableWord 32 0x0301FFFF = some (.wireReadFrame .status) ∧
    decodeTableWord 32 0x020B7F00 = some (.wireWriteFrame .volume 0x7F00) ∧
    decodeTableWord 8 0x5A = some (.wireDataChunk [0x5A]) ∧ decodeTableWord 16 0x0055 = some (.wireFillerUnit 0x0055) ∧
    decodeTableWord 32 0x03020000 = none ∧ decodeTableWord 32 0x0301FF00 = none := by decide

/-- V-ILL-1 to V-ILL-13. -/
theorem test_illegal_words :
    [0x000000000000, 0xFF0000000000, 0x210000000000, 0x300700000000, 0x300100000001, 0x310400020000, 0x100000000001,
      0x400200000000, 0x500000640000, 0x600000000100, 0x320100000000, 0x330000000001,
      0x620000010000].all (fun w => decodeTableWord 48 w == none) = true := by decide

/-- "with `CSC = Asserted`, `0x300700000000` answers `IllegalCommand`, while `0x300100000000` answers `IllegalState`". -/
theorem test_illegal_word_answers_first :
    (after? (step (inCmd.withFetchWord 48 0x300700000000))).map State.response = some (some ⟨.illegalCommand, 0⟩) ∧
    (after? (step (inCmd.withFetchWord 48 0x300100000000))).map State.response = some (some ⟨.illegalState, 0⟩) := by decide

/-- The encoder writes the same words. -/
theorem test_encode :
    encode Config.bindGK (.writeRegister .fast .clock 0x6000) = .command 0x310200016000 ∧
    encode Config.bindGK (.selfTest .fastProbe) = .command 0x400100000000 ∧
    encode Config.bindGK (.writeStream 33 32) = .command 0x500000210020 ∧
    encode Config.bindGK (.setBalance 0x8000) = .command 0x610000008000 ∧
    encode Config.bindGK (.wireReadFrame .scratchData) = .frame (.bytes4 0x0306FFFF) ∧
    encode Config.bindGK (.wireFillerUnit 0x0055) = .frame (.bytes2 0x0055) := by decide

/-- Assembler text and its aliases (R108, R109). -/
theorem test_assembler_text :
    Instr.asm (.setBalance 0xFF6A) = "SET_BALANCE -150" ∧
    Instr.asm (.writeRegister .fast .clock 0x6000) = "WRITE_REGISTER Fast, CLOCK, 24576" ∧
    Instr.asm (.writeStreamDefault 100) = "WRITE_STREAM 100, 32" ∧ Instr.asm .awaitReadyDefault = "AWAIT_READY 2000" ∧
    Instr.asm .stopSong = "STOP" := by decide +kernel

/-! ## WellFormed refuses ill-formed terms -/

theorem test_wf_zero_chunk : Instr.wf (.writeStream 100 0) = false ∧ Instr.wf (.writeStream 0 1) = true := by decide
theorem test_wf_empty_data_chunk : Instr.wf (.wireDataChunk []) = false ∧ Instr.wf (.wireDataChunk [0]) = true := by decide
theorem test_wf_long_data_chunk : Instr.wf (.wireDataChunk (List.replicate 65536 0)) = false := by
  rw [Instr.wf, chunkBytesOk, List.length_replicate]; decide
theorem test_wf_longest_data_chunk : Instr.wf (.wireDataChunk (List.replicate 65535 0)) = true := by
  rw [Instr.wf, chunkBytesOk, List.length_replicate]; decide

/-! ## Reset and the payload buffer -/

/-- R45. -/
theorem test_reset : State.reset.mode = .idle ∧ State.reset.spd = .slow ∧ State.reset.lc = .poweredOff ∧
    State.reset.fill = none ∧ State.reset.trace = [] := by decide

/-- A byte the host writes is read back; writing what an unwritten byte reads as removes the entry. -/
theorem test_payload_write :
    Memory.write (Memory.write (Memory.write [] 9 0x11) 4 0x22) 9 0 = [(4, 0x22)] ∧
    Memory.read (Memory.write [] 65535 0x33) 65535 = 0x33 ∧ Memory.wf (Memory.write [] 65536 0x33) = false := by decide

/-- With no request the block waits; a program's word runs first. -/
theorem test_step : (after? (step State.reset)) = some State.reset ∧
    (after? (step (State.reset.withFetchWord 48 0x620000000000))).map (fun t => (t.response, t.requests)) =
      some (some ⟨.ok, 10⟩, []) := by decide +kernel

/-- Every command word of the opcode table answers a next state as the first one after reset. -/
theorem test_first_command_after_reset :
    [0x100000000000, 0x110000000000, 0x120000000000, 0x130000000000, 0x200000000000, 0x300000000000, 0x310000000000,
      0x320000000000, 0x330000000000, 0x400000000000, 0x500000000001, 0x510000000000, 0x520000000000, 0x600000000000,
      0x610000000000, 0x620000000000, 0x700000000000, 0x710000000000, 0x720000000000, 0x730000000000, 0x740000000000].all
      (fun w => (after? (core.step (core.reset.withFetchWord 48 w))).isSome) = true := by decide

/-! ## Pin Gate -/

/-- V-PIN-1, V-PIN-8, V-PIN-10. -/
theorem test_select_command :
    observe .selectCommand idle [pCA] = some ([pCA], some ⟨.ok, 0⟩) ∧
    observe .selectCommand inDat [] = some ([], some ⟨.illegalState, 0⟩) ∧
    (after? (exec .selectCommand (idle.answering [.pin .cmd .asserted .pinFault]))).map (fun t => (t.csc, t.response)) =
      some (.released, some ⟨.pinFault, 0⟩) := by decide

/-- V-PIN-5, V-PIN-6: a release is never refused. -/
theorem test_deselect_command :
    observe .deselectCommand inCmd [pCR] = some ([pCR], some ⟨.ok, 0⟩) ∧
    observe .deselectCommand idle [pCR] = some ([pCR], some ⟨.ok, 0⟩) ∧
    (after? (exec .deselectCommand (inCmd.answering [pCR]))).map State.mode = some .idle := by decide

/-- V-PIN-2, V-PIN-7. -/
theorem test_select_data :
    observe .selectData inCmd [] = some ([], some ⟨.illegalState, 0⟩) ∧
    (after? (exec .selectData (idle.answering [pDA]))).map State.mode = some .data := by decide

/-- V-PIN-9. -/
theorem test_deselect_data :
    observe .deselectData inDat [pDR] = some ([pDR], some ⟨.ok, 0⟩) ∧
    (after? (exec .deselectData (inDat.answering [pDR]))).map State.mode = some .idle := by decide

/-! ## Data-ready -/

/-- V-RDY-1, V-RDY-2: no sample for 0 polls; the timeout ends with a delay. -/
theorem test_await_ready_timeout :
    observe (.awaitReady 0) idle [] = some ([], some ⟨.dataTimeout, 0⟩) ∧
    observe (.awaitReady 1) idle [.sample .notReady, .delay 1] =
      some ([.sample .notReady, .delay 1], some ⟨.dataTimeout, 0⟩) := by decide

/-- V-RDY-4, V-RDY-5, and V-RDY-7 from command mode. -/
theorem test_await_ready_third_sample :
    observe (.awaitReady 2000) inCmd [.sample .notReady, .delay 1, .sample .notReady, .delay 1, s1] =
      some ([.sample .notReady, .delay 1, .sample .notReady, .delay 1, s1], some ⟨.ok, 0⟩) ∧
    observe (.awaitReady 2) idle [.sample .notReady, .delay 1, .sample .notReady, .delay 1, s1] =
      some ([.sample .notReady, .delay 1, .sample .notReady, .delay 1], some ⟨.dataTimeout, 0⟩) := by decide

/-! ## Register access, `BIND_GK` -/

/-- V-REG-1. -/
theorem test_read_register :
    observe (.readRegister .status) idle
        [pCA, x .slow .command [0x03, 0x01, 0xFF, 0xFF] [0, 0, 0, 0x40], s1, pCR] =
      some ([pCA, x .slow .command [0x03, 0x01, 0xFF, 0xFF] [0, 0, 0, 0x40], s1, pCR], some ⟨.ok, 0x0040⟩) := by decide

/-- V-REG-6, V-REG-7: a failed release leaves `CSC = Asserted`; the first fault wins. -/
theorem test_read_register_faults :
    (after? (exec (.readRegister .status) (idle.answering
      [pCA, x .slow .command [0x03, 0x01, 0xFF, 0xFF] [0, 0, 0, 0], s1, .pin .cmd .released .pinFault]))).map
        (fun t => (t.csc, t.response)) = some (.asserted, some ⟨.pinFault, 0⟩) ∧
    (after? (exec (.readRegister .status) (idle.answering
      [pCA, .xfer .slow .command [0x03, 0x01, 0xFF, 0xFF] .busFault, .pin .cmd .released .pinFault]))).map
        (fun t => (t.csc, t.response)) = some (.asserted, some ⟨.busFault, 0⟩) := by decide

/-- V-REG-3, V-REG-4: at the operand's speed; no ready-wait after a failed exchange. -/
theorem test_write_register :
    observe (.writeRegister .fast .clock 0x6000) idle
        [pCA, x .fast .command [0x02, 0x03, 0x60, 0x00] [0, 0, 0, 0], s1, pCR] =
      some ([pCA, x .fast .command [0x02, 0x03, 0x60, 0x00] [0, 0, 0, 0], s1, pCR], some ⟨.ok, 0⟩) ∧
    observe (.writeRegister .fast .volume 0x1234) idle
        [pCA, .xfer .fast .command [0x02, 0x0B, 0x12, 0x34] .busFault, pCR] =
      some ([pCA, .xfer .fast .command [0x02, 0x0B, 0x12, 0x34] .busFault, pCR], some ⟨.busFault, 0⟩) := by decide

/-- V-REG-9. -/
theorem test_scratch_write :
    observe (.scratchWrite 0xC017 3) idle
        [pCA, x .slow .command [0x02, 0x07, 0xC0, 0x17] [0, 0, 0, 0], s1, pCR,
         pCA, x .slow .command [0x02, 0x06, 0x00, 0x03] [0, 0, 0, 0], s1, pCR] =
      some ([pCA, x .slow .command [0x02, 0x07, 0xC0, 0x17] [0, 0, 0, 0], s1, pCR,
         pCA, x .slow .command [0x02, 0x06, 0x00, 0x03] [0, 0, 0, 0], s1, pCR], some ⟨.ok, 0⟩) := by decide

/-- V-REG-10, V-REG-11. -/
theorem test_scratch_read :
    observe (.scratchRead 0xC017) idle
        [pCA, x .slow .command [0x02, 0x07, 0xC0, 0x17] [0, 0, 0, 0], s1, pCR,
         pCA, x .slow .command [0x03, 0x06, 0xFF, 0xFF] [0, 0, 0, 3], s1, pCR] =
      some ([pCA, x .slow .command [0x02, 0x07, 0xC0, 0x17] [0, 0, 0, 0], s1, pCR,
         pCA, x .slow .command [0x03, 0x06, 0xFF, 0xFF] [0, 0, 0, 3], s1, pCR], some ⟨.ok, 3⟩) ∧
    (observe (.scratchRead 0x1E06) idle
        [pCA, x .slow .command [0x02, 0x07, 0x1E, 0x06] [0, 0, 0, 0], s1, pCR,
         pCA, .xfer .slow .command [0x03, 0x06, 0xFF, 0xFF] .busFault, pCR]).map Prod.snd =
      some (some ⟨.busFault, 0⟩) := by decide

/-! ## Self-test -/

/-- V-TST-3. -/
theorem test_self_test_not_ready :
    observe (.selfTest .fastProbe) idle [.sample .notReady] = some ([.sample .notReady], some ⟨.selfTestFailed, 0⟩) := by
  decide

/-- R170, R171 with a sweep of the two steps 0 and 1: the second read of step 1 differs, one bad step. -/
theorem test_self_test_one_bad_step :
    (observe (.selfTest .slowProbe) { idle with cfg := small }
      [s1, pCA, x .slow .command [0x02, 0x0B, 0, 0] [0, 0, 0, 0], s1, pCR,
       pCA, x .slow .command [0x03, 0x0B, 0xFF, 0xFF] [0, 0, 0, 0], s1, pCR,
       pCA, x .slow .command [0x03, 0x0B, 0xFF, 0xFF] [0, 0, 0, 0], s1, pCR,
       pCA, x .slow .command [0x02, 0x0B, 0, 1] [0, 0, 0, 0], s1, pCR,
       pCA, x .slow .command [0x03, 0x0B, 0xFF, 0xFF] [0, 0, 0, 1], s1, pCR,
       pCA, x .slow .command [0x03, 0x0B, 0xFF, 0xFF] [0, 0, 1, 1], s1, pCR]).map (fun r => (r.1.length, r.2)) =
      some (25, some ⟨.selfTestFailed, 1⟩) := by decide +kernel

/-! ## Streaming -/

/-- The payload of the vectors, `PB[k] = k mod 256`, as far as the tests read it. -/
def payload : Memory := (List.range 40).filterMap fun k => if k = 0 then none else some (k, BitVec.ofNat 8 k)

/-- V-STR-5: chunks of 32 and 1 bytes. -/
theorem test_write_stream :
    observe (.writeStream 33 32) { idle with pb := payload }
        [pDA, s1, x .slow .data ((List.range 32).map (BitVec.ofNat 8)) (List.replicate 32 0), s1,
         x .slow .data [0x20] [0], pDR] =
      some ([pDA, s1, x .slow .data ((List.range 32).map (BitVec.ofNat 8)) (List.replicate 32 0), s1,
         x .slow .data [0x20] [0], pDR], some ⟨.ok, 0⟩) := by decide +kernel

/-- V-STR-2; and a fault in the second chunk reports the bytes sent (the shape of V-STR-7). -/
theorem test_write_stream_corners :
    observe (.writeStream 0 32) idle [pDA, pDR] = some ([pDA, pDR], some ⟨.ok, 0⟩) ∧
    (observe (.writeStream 3 2) { idle with pb := payload }
      [pDA, s1, x .slow .data [0, 1] [0, 0], s1, .xfer .slow .data [2] .busFault, pDR]).map Prod.snd =
      some (some ⟨.busFault, 2⟩) := by decide

/-- V-STR-10, V-STR-9, V-STR-11. -/
theorem test_flush :
    observe (.flushWithFillers 2) ready
        [pDA, s1, x .fast .data [0x00, 0x55] [0, 0], s1, x .fast .data [0x00, 0x55] [0, 0], pDR] =
      some ([pDA, s1, x .fast .data [0x00, 0x55] [0, 0], s1, x .fast .data [0x00, 0x55] [0, 0], pDR], some ⟨.ok, 0⟩) ∧
    observe (.flushWithFillers 2) idle [] = some ([], some ⟨.illegalState, 0⟩) ∧
    observe (.flushWithFillers 0) ready [pDA, pDR] = some ([pDA, pDR], some ⟨.ok, 0⟩) := by decide

/-- R183 with flushes of one unit: the bit held for one read, then clear (the shape of V-STP-2). -/
theorem test_stop :
    (observe .stop readySmall
      [pDA, s1, x .fast .data [0x00, 0x55] [0, 0], pDR,
       pCA, x .fast .command [0x02, 0x00, 0x08, 0x08] [0, 0, 0, 0], s1, pCR,
       pDA, s1, x .fast .data [0x00, 0x55] [0, 0], pDR,
       pCA, x .fast .command [0x03, 0x00, 0xFF, 0xFF] [0, 0, 0x08, 0x08], s1, pCR,
       pDA, s1, x .fast .data [0x00, 0x55] [0, 0], pDR,
       pCA, x .fast .command [0x03, 0x00, 0xFF, 0xFF] [0, 0, 0x08, 0x00], s1, pCR]).map (fun r => (r.1.length, r.2)) =
      some (24, some ⟨.ok, 0⟩) := by decide +kernel

/-- V-STR-9. -/
theorem test_stop_refused : observe .stop idle [] = some ([], some ⟨.illegalState, 0⟩) := by decide

/-! ## Volume and balance -/

/-- V-VOL-1, entries 0, 1, 25, 50, 75, 99, 100. -/
theorem test_hw_byte : [0, 1, 25, 50, 75, 99, 100].map hwByte = [0xFE, 0xFB, 0xBF, 0x7F, 0x40, 0x03, 0x00] := by decide

/-- V-VOL-2. -/
theorem test_volume_model :
    [volumeModel 100 0, volumeModel 50 100, volumeModel 50 (-100), volumeModel 60 (-41), volumeModel 30 31,
      volumeModel 80 (-50), volumeModel 50 30] = [0x0000, 0xFE7F, 0x7F00, 0x6600, 0xFEB2, 0x3300, 0xCB7F] := by decide

/-- V-VOL-3 steps 2 and 6: the frame and the clamped volume. -/
theorem test_set_volume :
    observe (.setVolume 50) { idle with bal := -100 }
        [pCA, x .slow .command [0x02, 0x0B, 0x7F, 0x00] [0, 0, 0, 0], s1, pCR] =
      some ([pCA, x .slow .command [0x02, 0x0B, 0x7F, 0x00] [0, 0, 0, 0], s1, pCR], some ⟨.ok, 0⟩) ∧
    (after? (exec (.setVolume 200) ({ idle with bal := 100 }.answering
      [pCA, x .slow .command [0x02, 0x0B, 0xFE, 0x00] [0, 0, 0, 0], s1, pCR]))).map State.vol = some 100 := by decide

/-- V-VOL-4: the register is updated before the write that fails. V-VOL-5: refused, `VOL` unchanged. -/
theorem test_set_volume_faults :
    (after? (exec (.setVolume 50) (idle.answering
      [pCA, .xfer .slow .command [0x02, 0x0B, 0x7F, 0x7F] .busFault, pCR]))).map (fun t => (t.vol, t.response)) =
      some (50, some ⟨.busFault, 0⟩) ∧
    (after? (exec (.setVolume 50) inCmd)).map (fun t => (t.vol, t.response)) = some (10, some ⟨.illegalState, 0⟩) := by decide

/-- V-VOL-3 steps 1, 4, 10, 11 (L4), and V-VOL-5. -/
theorem test_set_balance :
    [0xFF6A, 0x0096, 0x8000, 0x7FFF, 0x001E].map (fun b => (after? (exec (.setBalance b) inCmd)).map State.bal) =
      [some (-100), some 100, some (-100), some 100, some 30] := by decide

/-- V-VOL-3 steps 3 and 7; V-VOL-5. -/
theorem test_get_volume :
    observe .getVolume { inCmd with vol := 50 } [] = some ([], some ⟨.ok, 0x0032⟩) ∧
    observe .getVolume { idle with vol := 100 } [] = some ([], some ⟨.ok, 0x0064⟩) := by decide

/-! ## Lifecycle -/

/-- V-LIF-10, V-LIF-11. -/
theorem test_begin_reset_signalling :
    (after? (exec .begin (idle.answering [pDA, .pin .cmd .asserted .pinFault, pDR]))).map
      (fun t => (t.events, t.response, t.lc, t.mode)) =
      some ([pDA, .pin .cmd .asserted .pinFault, pDR], some ⟨.pinFault, 0⟩, .resetting, .idle) ∧
    (after? (exec .begin (idle.answering [pDA, pCA, .delay 500, .pin .dat .released .pinFault, pCR]))).map
      (fun t => (t.events, t.response, t.lc, t.mode)) =
      some ([pDA, pCA, .delay 500, .pin .dat .released .pinFault, pCR], some ⟨.pinFault, 0⟩, .resetting, .data) := by decide

/-- R221 with the line ready for the `AwaitingReady` wait and not ready for the self-test: a degraded bring-up, the probe at
`Slow` (the shape of V-LIF-2 and V-LIF-3). -/
theorem test_begin_degraded :
    (after? (exec .begin (ready.answering
      [pDA, pCA, .delay 500, pDR, pCR, .delay 500, s1, .sample .notReady,
       pCA, x .slow .command [0x02, 0x07, 0x1E, 0x06] [0, 0, 0, 0], s1, pCR,
       pCA, x .slow .command [0x03, 0x06, 0xFF, 0xFF] [0, 0, 0, 0x54], s1, pCR]))).map
      (fun t => (t.trace.length, t.response, t.lc, t.spd, t.fill)) =
      some (16, some ⟨.ok, 0⟩, .ready, .slow, some 0x0054) := by decide +kernel

/-- V-LIF-7. -/
theorem test_soft_reset :
    observe .softReset { idle with spd := .fast }
        [pCA, x .fast .command [0x02, 0x00, 0x08, 0x04] [0, 0, 0, 0], s1, pCR, s1] =
      some ([pCA, x .fast .command [0x02, 0x00, 0x08, 0x04] [0, 0, 0, 0], s1, pCR, s1], some ⟨.ok, 0⟩) := by decide

/-- V-LIF-9: 22 events. -/
theorem test_switch_to_mp3_mode :
    let evs := [pCA, x .fast .command [0x02, 0x07, 0xC0, 0x17] [0, 0, 0, 0], s1, pCR,
      pCA, x .fast .command [0x02, 0x06, 0x00, 0x03] [0, 0, 0, 0], s1, pCR,
      pCA, x .fast .command [0x02, 0x07, 0xC0, 0x19] [0, 0, 0, 0], s1, pCR,
      pCA, x .fast .command [0x02, 0x06, 0x00, 0x00] [0, 0, 0, 0], s1, pCR, .delay 100,
      pCA, x .fast .command [0x02, 0x00, 0x08, 0x04] [0, 0, 0, 0], s1, pCR, s1]
    observe .switchToMp3Mode { idle with spd := .fast } evs = some (evs, some ⟨.ok, 0⟩) ∧ evs.length = 22 := by
  decide +kernel

/-- The trace of V-LIF-5 and V-LIF-6 for one status value. -/
def statusRead (hi lo : Byte) : List Event := [pCA, x .slow .command [0x03, 0x01, 0xFF, 0xFF] [0, 0, hi, lo], s1, pCR]

/-- V-LIF-5 (L8). -/
theorem test_is_chip_connected :
    [(0x00, 0x00), (0xFF, 0xFF), (0x00, 0x01), (0xFF, 0xFE), (0x00, 0x40)].map
      (fun p => (observe .isChipConnected idle (statusRead p.1 p.2)).map Prod.snd) =
    [some (some ⟨.chipAbsent, 0⟩), some (some ⟨.chipAbsent, 0⟩), some (some ⟨.ok, 1⟩), some (some ⟨.ok, 1⟩),
      some (some ⟨.ok, 1⟩)] := by decide

/-- V-LIF-6. -/
theorem test_get_chip_version :
    [(0x00, 0x40), (0xFF, 0xFF), (0x00, 0x00), (0xFF, 0xFE)].map
      (fun p => (observe .getChipVersion idle (statusRead p.1 p.2)).map Prod.snd) =
    [some (some ⟨.ok, 4⟩), some (some ⟨.ok, 15⟩), some (some ⟨.ok, 0⟩), some (some ⟨.ok, 15⟩)] := by decide

/-! ## Wire frames (R91 to R94) -/

theorem test_wire_read_frame :
    observe (.wireReadFrame .status) idle [pCA, x .slow .command [0x03, 0x01, 0xFF, 0xFF] [0, 0, 0x12, 0x34], s1, pCR] =
      some ([pCA, x .slow .command [0x03, 0x01, 0xFF, 0xFF] [0, 0, 0x12, 0x34], s1, pCR], some ⟨.ok, 0x1234⟩) := by decide

theorem test_wire_write_frame :
    observe (.wireWriteFrame .volume 0x7F00) idle [pCA, x .slow .command [0x02, 0x0B, 0x7F, 0x00] [0, 0, 0, 0], s1, pCR] =
      some ([pCA, x .slow .command [0x02, 0x0B, 0x7F, 0x00] [0, 0, 0, 0], s1, pCR], some ⟨.ok, 0⟩) := by decide

theorem test_wire_data_chunk :
    observe (.wireDataChunk [1, 2, 3]) idle [pDA, s1, x .slow .data [1, 2, 3] [0, 0, 0], pDR] =
      some ([pDA, s1, x .slow .data [1, 2, 3] [0, 0, 0], pDR], some ⟨.ok, 0⟩) ∧
    observe (.wireDataChunk [1]) inCmd [] = some ([], some ⟨.illegalState, 0⟩) := by decide

theorem test_wire_filler_unit :
    observe (.wireFillerUnit 0x1234) { idle with fill := some 0x1234 } [pDA, s1, x .slow .data [0x12, 0x34] [0, 0], pDR] =
      some ([pDA, s1, x .slow .data [0x12, 0x34] [0, 0], pDR], some ⟨.ok, 0⟩) := by decide

/-- R137: a line held by hand is not used by a frame. -/
theorem test_no_raw_bytes_while_held :
    [observe (.wireReadFrame .status) inCmd [], observe (.wireWriteFrame .mode 0) inCmd [], observe (.wireDataChunk [1]) inDat [],
      observe (.wireFillerUnit 0x0055) { ready with csd := .asserted } []].all
      (fun o => o == some ([], some ⟨.illegalState, 0⟩)) = true := by decide

/-! ## The response word and the codes (R97, R250) -/

theorem test_response_words :
    [Response.word ⟨.ok, 0x0040⟩, Response.word ⟨.pinFault, 0⟩, Response.word ⟨.busFault, 0x0040⟩,
      Response.word ⟨.dataTimeout, 0⟩, Response.word ⟨.selfTestFailed, 20⟩, Response.word ⟨.chipAbsent, 0⟩,
      Response.word ⟨.illegalState, 0⟩, Response.word ⟨.illegalCommand, 0⟩] =
    [0x000040, 0x010000, 0x020040, 0x030000, 0x040014, 0x050000, 0x0E0000, 0x0F0000] := by decide

/-! ## Witnesses: the hypotheses of the statements can be met, each clause at the ends of its range

One theorem per statement of Certificates/Slice0/Obligations.lean that has hypotheses. A statement whose only hypothesis is
`exec i s = .next t` has one for a state and an instruction of its own. -/

/-- The last sample a ready-wait may take reads `Ready`. -/
abbrev lastTurn : Turn := ⟨[0, 0, 0, 0], 1999⟩
abbrev lastUnit : Turn := ⟨[0, 0], 1999⟩

theorem lastTurn_ok : lastTurn.Ok 4 := ⟨rfl, by decide⟩

/-- The four stops of a register transaction, with both answers of the exit path's release. -/
def registerStops : List RegisterStop :=
  [.atSelect, .atExchange .ok, .atExchange .pinFault, .atWait [1, 2, 3, 4] .ok, .atWait [1, 2, 3, 4] .pinFault,
    .atRelease [1, 2, 3, 4] 0, .atRelease [1, 2, 3, 4] 1999]

theorem registerStops_ok : ∀ st ∈ registerStops, st.Ok := by
  simp [registerStops, RegisterStop.Ok]

theorem idle_idle : idle.Idle := ⟨rfl, rfl⟩
theorem inCmd_not_idle : ¬ inCmd.Idle := by simp [State.Idle]
theorem inDat_not_idle : ¬ inDat.Idle := by simp [State.Idle]

theorem witness_DecodeOfEncode :
    WellFormed (.writeStream 0xFFFF 1) ∧ WellFormed (.writeStream 0 0xFFFF) ∧ WellFormed (.wireDataChunk [0xFF]) ∧
    WellFormed (.wireDataChunk (List.replicate 65535 0)) :=
  ⟨rfl, rfl, rfl, test_wf_longest_data_chunk⟩

theorem witness_LegalWordIsItsEncoding :
    decode small (.command 0x30060000_0000) = .ok (.readRegister .scratchData) ∧
    decode small (.command 0x3106_0001_FFFF) = .ok (.writeRegister .fast .scratchData 0xFFFF) ∧
    decode small (.command 0x5000_FFFF_0001) = .ok (.writeStream 0xFFFF 1) := by decide

theorem witness_IllegalWordRefused :
    (∃ s : State, s.requests = [.issue 0x300700000000] ∧ s.mode = .command ∧
      ∀ row ∈ opcodeMap, row.selects 0x300700000000 = false) ∧
    (∃ s : State, s.requests = [.issue 0x500000640000] ∧ s.mode = .idle ∧
      ∀ row ∈ opcodeMap, row.selects 0x500000640000 = false) ∧
    ∃ s : State, s.requests = [.issue 0] ∧ ∀ row ∈ opcodeMap, row.selects 0 = false :=
  ⟨⟨{ inCmd with requests := [.issue 0x300700000000] }, rfl, rfl, by decide +kernel⟩,
    ⟨{ idle with requests := [.issue 0x500000640000] }, rfl, rfl, by decide +kernel⟩,
    ⟨{ idle with requests := [.issue 0] }, rfl, by decide +kernel⟩⟩

theorem witness_StepRunsDecoded :
    (∃ s : State, s.requests = [.issue 0x620000000000] ∧ decode s.cfg (.command 0x620000000000) = .ok .getVolume) ∧
    ∃ s : State, s.requests = [.frame (.bytes2 0x0055)] ∧ decode s.cfg (.frame (.bytes2 0x0055)) = .ok (.wireFillerUnit 0x0055) :=
  ⟨⟨{ idle with requests := [.issue 0x620000000000] }, rfl, rfl⟩,
    ⟨{ idle with requests := [.frame (.bytes2 0x0055)] }, rfl, rfl⟩⟩

theorem witness_StepWithoutCommand :
    idle.requests = [] ∧ ∃ s : State, s.pb.wf = true ∧ s.pb ≠ [] ∧ s.requests = [.writePayload 0xFFFF 0] :=
  ⟨rfl, { idle with pb := [(65535, 1)], requests := [.writePayload 0xFFFF 0] }, rfl, by decide, rfl⟩

theorem witness_SelectCommandMeaning : inDat.csd = .asserted ∧ idle.csd = .released ∧ inCmd.csd = .released := ⟨rfl, rfl, rfl⟩
theorem witness_SelectDataMeaning : inCmd.csc = .asserted ∧ idle.csc = .released ∧ inDat.csc = .released := ⟨rfl, rfl, rfl⟩

theorem witness_AwaitReadyMeaning : 0 < (1 : Half).toNat ∧ 65534 < (0xFFFF : Half).toNat ∧ (0 : Half).toNat = 0 := by decide

theorem witness_AwaitReadyBound : (∃ t, exec (.awaitReady 0) idle = .next t) ∧ ∃ t, exec (.awaitReady 0xFFFF) inCmd = .next t :=
  ⟨⟨_, rfl⟩, ⟨_, rfl⟩⟩

/-- The hypotheses the statements about one register transaction share. -/
theorem witness_register : ¬ inCmd.Idle ∧ ¬ inDat.Idle ∧ idle.Idle ∧ lastTurn.Ok 4 ∧ (1999 < 2000) ∧
    ∀ st ∈ registerStops, st.Ok :=
  ⟨inCmd_not_idle, inDat_not_idle, idle_idle, lastTurn_ok, by decide, registerStops_ok⟩

theorem witness_ReadRegisterMeaning : 7 ≤ (7 : Byte).toNat ∧ ¬ inCmd.Idle ∧ idle.Idle ∧ 1999 < 2000 ∧ ∀ st ∈ registerStops, st.Ok :=
  ⟨by decide, inCmd_not_idle, idle_idle, by decide, registerStops_ok⟩
theorem witness_WriteRegisterMeaning :
    7 ≤ (7 : Byte).toNat ∧ 1 < (2 : Half).toNat ∧ ¬ inDat.Idle ∧ idle.Idle ∧ lastTurn.Ok 4 ∧ ∀ st ∈ registerStops, st.Ok :=
  ⟨by decide, by decide, inDat_not_idle, idle_idle, lastTurn_ok, registerStops_ok⟩
theorem witness_ScratchWriteMeaning : ¬ inCmd.Idle ∧ idle.Idle ∧ lastTurn.Ok 4 ∧ ∀ st ∈ registerStops, st.Ok :=
  ⟨inCmd_not_idle, idle_idle, lastTurn_ok, registerStops_ok⟩
theorem witness_ScratchReadMeaning : ¬ inCmd.Idle ∧ idle.Idle ∧ lastTurn.Ok 4 ∧ 1999 < 2000 ∧ ∀ st ∈ registerStops, st.Ok :=
  ⟨inCmd_not_idle, idle_idle, lastTurn_ok, by decide, registerStops_ok⟩
theorem witness_SetVolumeMeaning : ¬ inCmd.Idle ∧ idle.Idle ∧ lastTurn.Ok 4 ∧ ∀ st ∈ registerStops, st.Ok :=
  ⟨inCmd_not_idle, idle_idle, lastTurn_ok, registerStops_ok⟩
theorem witness_IsChipConnectedMeaning : ¬ inCmd.Idle ∧ idle.Idle ∧ 1999 < 2000 ∧ ∀ st ∈ registerStops, st.Ok :=
  ⟨inCmd_not_idle, idle_idle, by decide, registerStops_ok⟩
theorem witness_GetChipVersionMeaning : ¬ inDat.Idle ∧ idle.Idle ∧ 1999 < 2000 ∧ ∀ st ∈ registerStops, st.Ok :=
  ⟨inDat_not_idle, idle_idle, by decide, registerStops_ok⟩
theorem witness_SoftResetMeaning : ¬ inCmd.Idle ∧ idle.Idle ∧ lastTurn.Ok 4 ∧ 1999 < 2000 ∧ ∀ st ∈ registerStops, st.Ok :=
  ⟨inCmd_not_idle, idle_idle, lastTurn_ok, by decide, registerStops_ok⟩
theorem witness_SwitchToMp3ModeMeaning :
    ¬ inCmd.Idle ∧ idle.Idle ∧ (∀ j < 5, ((fun _ => lastTurn) j : Turn).Ok 4) ∧ 4 < 5 ∧ ∀ st ∈ registerStops, st.Ok :=
  ⟨inCmd_not_idle, idle_idle, fun _ _ => lastTurn_ok, by decide, registerStops_ok⟩

/-! ### Self-test -/

/-- The answers of a chip that stores what is written, at step size 1. -/
def goodSteps : Nat → StepTurns := fun j =>
  ⟨lastTurn, ⟨[0, 0, hiByte (sweepValue j), loByte (sweepValue j)], 0⟩, ⟨[0, 0, hiByte (sweepValue j), loByte (sweepValue j)], 1999⟩⟩

/-- Answers that make every step before index 0xFFFF bad. -/
def badSteps : Nat → StepTurns := fun _ => ⟨lastTurn, ⟨[0, 0, 0xFF, 0xFF], 0⟩, ⟨[0, 0, 0xFF, 0xFF], 0⟩⟩

/-- A full clean sweep, a sweep that the 20th bad step ends, and a full sweep with bad steps. -/
theorem witness_SelfTestSweepMeaning :
    idle.Idle ∧ SweepLength small .slowProbe goodSteps 2 ∧ SweepLength longer .slowProbe badSteps 20 ∧
    SweepLength small .slowProbe badSteps 2 := by
  refine ⟨idle_idle, ?_, ?_, ?_⟩ <;> simp only [SweepLength, StepTurns.Ok, Turn.Ok] <;> decide +kernel

theorem witness_SelfTestNotReadyFailsFast : idle.Idle := idle_idle

/-- A stop in the first and in the last step of a sweep, at each of its three transactions. -/
theorem witness_SelfTestFaultPropagates :
    idle.Idle ∧ TestStop.Ok small .slowProbe ⟨goodSteps, 0, .atWrite .atSelect⟩ ∧
    TestStop.Ok small .slowProbe ⟨goodSteps, 1, .atRead1 lastTurn (.atExchange .pinFault)⟩ ∧
    TestStop.Ok longer .slowProbe ⟨badSteps, 19, .atRead2 lastTurn lastTurn (.atRelease [1, 2, 3, 4] 1999)⟩ := by
  refine ⟨idle_idle, ?_, ?_, ?_⟩ <;>
    simp only [TestStop.Ok, StepTurns.Ok, Turn.Ok, StepStop.Ok, RegisterStop.Ok] <;> decide +kernel

/-- The response of a self-test under given answers. -/
def selfTestAnswer (c : Config) (evs : List Event) : Option (Option Response) :=
  (after? (exec (.selfTest .slowProbe) ({ idle with cfg := c }.answering evs))).map State.response

theorem witness_SelfTestCountBound :
    selfTestAnswer small (s1 :: sweepEvents small .slow .slowProbe
      (fun j => ⟨⟨[0, 0, 0, 0], 0⟩, ⟨[0, 0, hiByte (sweepValue j), loByte (sweepValue j)], 0⟩,
        ⟨[0, 0, hiByte (sweepValue j), loByte (sweepValue j)], 1⟩⟩) 2) = some (some ⟨.ok, 0⟩) ∧
    selfTestAnswer small [.sample .notReady] = some (some ⟨.selfTestFailed, 0⟩) ∧
    selfTestAnswer small (s1 :: sweepEvents small .slow .slowProbe (fun _ => ⟨⟨[0, 0, 0, 0], 0⟩, ⟨[0, 0, 0, 0], 0⟩, ⟨[0, 0, 0, 0], 0⟩⟩) 2) =
      some (some ⟨.selfTestFailed, 1⟩) ∧
    selfTestAnswer longer (s1 :: sweepEvents longer .slow .slowProbe
      (fun _ => ⟨⟨[0, 0, 0, 0], 0⟩, ⟨[0, 0, 0xFF, 0xFF], 0⟩, ⟨[0, 0, 0xFF, 0xFF], 0⟩⟩) 20) =
      some (some ⟨.selfTestFailed, 20⟩) := by decide +kernel

/-! ### Streaming -/

theorem witness_WriteStreamMeaning :
    (0 : Half) = 0 ∧ (1 : Half) ≠ 0 ∧ ¬ inCmd.Idle ∧ idle.Idle ∧
    UnitsOk (chunkBytes payload 33 32) (chunkCount 33 32) (fun j => ⟨List.replicate (if j = 0 then 32 else 1) 0, 1999⟩) ∧
    UnitsOk (chunkBytes payload 0 32) (chunkCount 0 32) (fun _ => lastUnit) ∧
    BurstStop.Ok (chunkBytes payload 3 2) (chunkCount 3 2) .atSelect ∧
    BurstStop.Ok (chunkBytes payload 3 2) (chunkCount 3 2) (.atUnit (fun _ => lastUnit) 1 (.atExchange 1999 .pinFault)) ∧
    BurstStop.Ok (chunkBytes payload 3 2) (chunkCount 3 2) (.atUnit (fun _ => lastUnit) 0 (.atWait .ok)) ∧
    BurstStop.Ok (chunkBytes payload 2 2) (chunkCount 2 2) (.atRelease (fun _ => lastUnit)) := by
  refine ⟨rfl, by decide, inCmd_not_idle, idle_idle, ?_, ?_, trivial, ?_, ?_, ?_⟩ <;>
    simp only [BurstStop.Ok, UnitsOk, Turn.Ok, UnitStop.Ok] <;> decide +kernel

theorem witness_StreamChunkLaw :
    (∃ t, exec (.writeStream 0 1) (idle.answering [pDA, pDR]) = .next t ∧ t.response = some ⟨.ok, 0⟩) ∧
    ∃ t, exec (.writeStream 3 2) ({ idle with pb := payload }.answering
      [pDA, s1, x .slow .data [0, 1] [0, 0], s1, x .slow .data [2] [0], pDR]) = .next t ∧ t.response = some ⟨.ok, 0⟩ :=
  ⟨⟨_, rfl, by decide⟩, ⟨_, rfl, by decide⟩⟩

theorem witness_FlushMeaning :
    idle.fill = none ∧ ¬ inCmd.Idle ∧ ready.Idle ∧ ready.fill = some 0x0055 ∧
    UnitsOk (fillerPayload 0x0055) 2 (fun _ => lastUnit) ∧ UnitsOk (fillerPayload 0x0055) 0 (fun _ => lastUnit) ∧
    BurstStop.Ok (fillerPayload 0x0055) 2 .atSelect ∧
    BurstStop.Ok (fillerPayload 0x0055) 2 (.atUnit (fun _ => lastUnit) 1 (.atWait .pinFault)) ∧
    BurstStop.Ok (fillerPayload 0x0055) 2 (.atRelease (fun _ => lastUnit)) := by
  refine ⟨rfl, inCmd_not_idle, ⟨rfl, rfl⟩, rfl, ?_, ?_, trivial, ?_, ?_⟩ <;>
    simp only [BurstStop.Ok, UnitsOk, Turn.Ok, UnitStop.Ok] <;> decide +kernel

/-- A stop whose cancel bit reads clear in iteration `n` alone. -/
def stopRun (n : Nat) : StopRun where
  large := fun _ => lastUnit
  write := lastTurn
  small := fun _ _ => lastUnit
  read := fun i => ⟨[0, 0, 0x08, if i = n then 0x00 else 0x08], 1999⟩

theorem stopRun_ok (k n : Nat) : (stopRun k).Ok small n :=
  ⟨fun _ _ => ⟨rfl, show 1999 < 2000 by decide⟩, lastTurn_ok,
    fun _ _ => ⟨fun _ _ => ⟨rfl, show 1999 < 2000 by decide⟩, ⟨rfl, show 1999 < 2000 by decide⟩⟩⟩

/-- Clean on the first and on the last iteration; forced. -/
theorem witness_StopCleanAndForced :
    readySmall.Idle ∧ readySmall.fill = some 0x0055 ∧ readySmall.cfg = small ∧
    ((stopRun 0).Ok small 1 ∧ (stopRun 0).held 0 = false) ∧
    ((stopRun 199).Ok small 200 ∧ (∀ i < 199, (stopRun 199).held i = true) ∧ (stopRun 199).held 199 = false) ∧
    ((stopRun 200).Ok small 200 ∧ ∀ i < 200, (stopRun 200).held i = true) :=
  ⟨⟨rfl, rfl⟩, rfl, rfl, ⟨stopRun_ok 0 1, by decide⟩, ⟨stopRun_ok _ _, by decide +kernel, by decide⟩,
    ⟨stopRun_ok _ _, by decide +kernel⟩⟩

theorem witness_StopFaultsAbort :
    readySmall.Idle ∧ readySmall.fill = some 0x0055 ∧ 199 < 200 ∧ (stopRun 200).Ok readySmall.cfg 199 ∧
    (∀ i < 199, (stopRun 200).held i = true) ∧ (∀ st ∈ registerStops, st.Ok) ∧
    BurstStop.Ok (fillerPayload 0x0055) readySmall.cfg.flushSmall.toNat (.atUnit (fun _ => lastUnit) 0 (.atExchange 1999 .ok)) ∧
    BurstStop.Ok (fillerPayload 0x0055) readySmall.cfg.flushLarge.toNat .atSelect ∧
    UnitsOk (fillerPayload 0x0055) readySmall.cfg.flushSmall.toNat (fun _ => lastUnit) := by
  refine ⟨⟨rfl, rfl⟩, rfl, by decide, stopRun_ok _ _, by decide +kernel, registerStops_ok, ?_, trivial, ?_⟩
  · simp only [BurstStop.Ok, UnitsOk, Turn.Ok, UnitStop.Ok]; decide +kernel
  · simp only [UnitsOk, Turn.Ok]; decide +kernel

theorem witness_DataOnlyAfterReady :
    (Instr.composite (.writeStream 1 1) = true ∧ ∃ t, exec (.writeStream 1 1) idle = .next t) ∧
    (Instr.composite .stop = true ∧ ∃ t, exec .stop ready = .next t) :=
  ⟨⟨rfl, _, rfl⟩, ⟨rfl, _, rfl⟩⟩

/-! ### Volume and balance -/

theorem witness_HwByteIsNearest : (0 ≤ 100 ∧ 100 ≤ 100) ∧ (25 : Nat) < 100 := by decide
theorem witness_VolumeModelPacking : ∀ b ∈ [(-100 : Int), -1, 0, 1, 100], (100 : Nat) ≤ 100 ∧ -100 ≤ b ∧ b ≤ 100 := by decide
theorem witness_VolumeModelProperties : ∀ b ∈ [(-100 : Int), 0, 100], (0 : Nat) ≤ 100 ∧ -100 ≤ b ∧ b ≤ 100 := by decide

/-- The clauses meet at −100 and 100. -/
theorem witness_SetBalanceMeaning :
    (0xFF9B : Half).toInt < -100 ∧ 100 < (0x0065 : Half).toInt ∧ (0xFF9C : Half).toInt = -100 ∧ (0x0064 : Half).toInt = 100 ∧
    (0x8000 : Half).toInt < -100 ∧ 100 < (0x7FFF : Half).toInt := by decide

theorem witness_GetVolumeMeaning : idle.vol ≤ 100 ∧ ({ idle with vol := 100 } : State).vol ≤ 100 := by decide

/-! ### Lifecycle -/

theorem small_good : SweepLength small .slowProbe goodSteps 2 := witness_SelfTestSweepMeaning.2.1
theorem small_fast : SweepLength small .fastProbe goodSteps 1 := by
  simp only [SweepLength, StepTurns.Ok, Turn.Ok]; decide +kernel

/-- Both outcomes of the first wait; a passed, a failed and a not-ready slow self-test; a passed fast one. -/
theorem witness_BeginCompletes :
    readySmall.cfg = small ∧ AwaitingOk none ∧ AwaitingOk (some 1999) ∧ TestRun.Ok small .slowProbe .notReady ∧
    (TestRun.Ok small .slowProbe (.swept goodSteps 2) ∧ TestRun.pass small .slowProbe (.swept goodSteps 2) = true) ∧
    (TestRun.Ok small .slowProbe (.swept badSteps 2) ∧ TestRun.pass small .slowProbe (.swept badSteps 2) = false) ∧
    (TestRun.Ok small .fastProbe (.swept goodSteps 1) ∧ TestRun.pass small .fastProbe (.swept goodSteps 1) = true) ∧
    small.runFastSelfTest = true ∧ lastTurn.Ok 4 ∧ ProbeTurns.Ok ⟨lastTurn, lastTurn⟩ :=
  ⟨rfl, trivial, show 1999 < 2000 by decide, trivial, ⟨small_good, by decide +kernel⟩,
    ⟨witness_SelfTestSweepMeaning.2.2.2, by decide +kernel⟩, ⟨small_fast, by decide +kernel⟩, rfl, lastTurn_ok,
    ⟨lastTurn_ok, lastTurn_ok⟩⟩

theorem witness_BeginLaterStops :
    AwaitingOk (some 1999) ∧ TestRun.Ok small .slowProbe (.swept goodSteps 2) ∧
    TestRun.pass small .slowProbe (.swept goodSteps 2) = true ∧ TestRun.Ok small .fastProbe (.swept goodSteps 1) ∧
    lastTurn.Ok 4 ∧ (∀ st ∈ registerStops, st.Ok) ∧ small.runFastSelfTest = true ∧
    TestStop.Ok small .slowProbe ⟨goodSteps, 1, .atWrite (.atWait [1, 2, 3, 4] .ok)⟩ ∧
    TestStop.Ok small .fastProbe ⟨goodSteps, 0, .atWrite .atSelect⟩ := by
  refine ⟨show 1999 < 2000 by decide, small_good, by decide +kernel, small_fast, lastTurn_ok, registerStops_ok, rfl, ?_, ?_⟩ <;>
    simp only [TestStop.Ok, StepTurns.Ok, Turn.Ok, StepStop.Ok, RegisterStop.Ok] <;> decide +kernel

theorem witness_BeginOutcomes : (∃ t, exec .begin idle = .next t) ∧ ∃ t, exec .begin inCmd = .next t := ⟨⟨_, rfl⟩, ⟨_, rfl⟩⟩

/-! ### Wire frames -/

theorem witness_WireRegisterFrameMeanings : idle.Idle ∧ lastTurn.Ok 4 ∧ ∀ st ∈ registerStops, st.Ok :=
  ⟨idle_idle, lastTurn_ok, registerStops_ok⟩

/-- A chunk of one byte and one of the longest length; every stop of a bracket of one unit. -/
theorem witness_WireDataFrameMeanings :
    idle.Idle ∧ [(0 : Byte)] ≠ [] ∧ (List.replicate 65535 (0 : Byte)) ≠ [] ∧
    (List.replicate 65535 (0 : Byte)).length ≤ 65535 ∧ Turn.Ok ⟨[0], 1999⟩ [(0 : Byte)].length ∧
    ready.Idle ∧ ready.fill = some 0x0055 ∧ lastUnit.Ok 2 ∧
    (∀ st ∈ [BurstStop.atSelect, .atUnit (fun _ => lastUnit) 0 (.atWait .ok),
      .atUnit (fun _ => lastUnit) 0 (.atExchange 1999 .pinFault), .atRelease (fun _ => lastUnit)],
      st.Ok (fun _ => [(0x00 : Byte), 0x55]) 1) := by
  refine ⟨idle_idle, by decide, by rw [Ne, List.replicate_eq_nil_iff]; decide, by rw [List.length_replicate],
    ⟨rfl, by decide⟩, ⟨rfl, rfl⟩, rfl, ⟨rfl, by decide⟩, ?_⟩
  simp [BurstStop.Ok, UnitsOk, UnitStop.Ok, Turn.Ok]

theorem witness_WireFramesRefused :
    ¬ inCmd.Idle ∧ ¬ inDat.Idle ∧ [(0 : Byte)] ≠ [] ∧ 65535 < (List.replicate 65536 (0 : Byte)).length ∧
    ¬ State.Idle { ready with csd := .asserted } ∧ idle.fill ≠ some 0x0055 ∧ ready.fill ≠ some 0x0054 ∧
    decode Config.bindGK (.command 0x740000000000) = .ok .getChipVersion :=
  ⟨inCmd_not_idle, inDat_not_idle, by decide, by rw [List.length_replicate]; decide, by simp [State.Idle], by decide,
    by decide, rfl⟩

/-! ### All instructions -/

/-- Admitted and refused, for each line of the admission table. -/
theorem witness_AdmissionTable :
    (∃ t, exec .selectCommand inDat = .next t) ∧ (∃ t, exec .selectData inCmd = .next t) ∧
    (∃ t, exec (.readRegister .mode) inCmd = .next t) ∧ Instr.composite (.readRegister .mode) = true ∧
    (∃ t, exec .stop idle = .next t) ∧ (∃ t, exec (.flushWithFillers 0) ready = .next t) ∧
    (∃ t, exec .begin inCmd = .next t) ∧ (∃ t, exec (.wireFillerUnit 0x0054) ready = .next t) ∧
    WellFormed (.readRegister .mode) ∧ WellFormed .stop ∧ WellFormed (.wireFillerUnit 0x0054) :=
  ⟨⟨_, rfl⟩, ⟨_, rfl⟩, ⟨_, rfl⟩, rfl, ⟨_, rfl⟩, ⟨_, rfl⟩, ⟨_, rfl⟩, ⟨_, rfl⟩, rfl, rfl, rfl⟩

/-- A composite command, a Pin Gate command, a frame, and no request, with a line held by hand. -/
theorem witness_NoBytesWhileHeldByHand :
    ∀ reqs ∈ [[Request.issue 0x300100000000], [.issue 0x110000000000], [.frame (.chunk [1])], [], [.issue 0x700000000001]],
      ¬ State.Idle { inCmd with requests := reqs } ∧
      (∀ rest, ({ inCmd with requests := reqs } : State).requests ≠ .issue 0x700000000000 :: rest) ∧
      ∃ t, step { inCmd with requests := reqs } = .next t := by
  intro reqs h
  simp only [List.mem_cons, List.not_mem_nil, or_false] at h
  rcases h with rfl | rfl | rfl | rfl | rfl <;>
    exact ⟨by simp [State.Idle], by simp, _, rfl⟩

theorem witness_OthersAssignNoRegister :
    Instr.assignsRegisters .stop = false ∧ ∃ t, exec .stop (readySmall.answering [.pin .dat .asserted .pinFault]) = .next t :=
  ⟨rfl, _, rfl⟩

theorem witness_AssigningCommandsFrame :
    idle.Idle ∧ ¬ inCmd.Idle ∧ (∃ t, exec (.setVolume 0xFF) idle = .next t) ∧ (∃ t, exec (.setVolume 0) inCmd = .next t) ∧
    (∃ t, exec (.setBalance 0x8000) inDat = .next t) ∧ ∃ t, exec .begin idle = .next t :=
  ⟨idle_idle, inCmd_not_idle, ⟨_, rfl⟩, ⟨_, rfl⟩, ⟨_, rfl⟩, ⟨_, rfl⟩⟩

theorem witness_SurroundingsFrame : ∃ t, exec (.writeStream 3 2) { idle with pb := payload } = .next t := ⟨_, rfl⟩

/-- With no drive failing, and with a failing one. -/
theorem witness_CompositePairsItsSelects :
    Instr.composite (.readRegister .status) = true ∧ idle.Idle ∧
    (∃ t, exec (.readRegister .status) (idle.answering (statusRead 0 0)) = .next t ∧
      t.events.all (fun e => !e.isPinFault) = true) ∧
    ∃ t, exec (.readRegister .status) (idle.answering [.pin .cmd .asserted .pinFault]) = .next t ∧
      t.events.all (fun e => !e.isPinFault) = false :=
  ⟨rfl, idle_idle, ⟨_, rfl, by decide⟩, ⟨_, rfl, by decide⟩⟩

/-! ### Invariants -/

/-- Mid-session: command-select asserted, one exchange of kind `C` made, a request waiting. -/
def midSession : State :=
  { inCmd with
    trace := [x .slow .command [0x03, 0x01, 0xFF, 0xFF] [0, 0, 0, 0], pCA]
    requests := [.issue 0x110000000000] }

theorem witness_StepKeepsTrafficFramed : TrafficOk midSession ∧ ∃ t, step midSession = .next t := ⟨⟨rfl, rfl, trivial⟩, _, rfl⟩

/-- A state in each resting stage, and one with both latches asserted. -/
theorem witness_StepKeepsStages :
    StageOk idle ∧ RangesOk idle ∧ BothOnlyResetting idle ∧ (∃ t, step idle = .next t) ∧
    StageOk { ready with slowOk := true } ∧ BothOnlyResetting ready ∧
    (StageOk { idle with lc := .resetting } ∧ BothOnlyResetting { idle with lc := .resetting, csc := .asserted, csd := .asserted }) ∧
    StageOk { idle with lc := .slowSelfTest, slowOk := true } ∧
    StageOk { idle with lc := .fastSelfTest, spd := .fast, slowOk := true } ∧
    RangesOk { idle with vol := 0, bal := -100 } ∧ RangesOk { idle with vol := 100, bal := 100 } := by
  have range : ∀ s : State, s.vol ≤ 100 → -100 ≤ s.bal → s.bal ≤ 100 → RangesOk s := fun _ h1 h2 h3 => ⟨h1, h2, h3⟩
  exact ⟨⟨rfl, rfl, rfl, rfl⟩, range _ (by decide) (by decide) (by decide), fun h _ => absurd h (by decide), ⟨_, rfl⟩,
    ⟨by decide, by decide, fun h => absurd h (by decide)⟩, fun h _ => absurd h (by decide),
    ⟨⟨rfl, rfl, rfl, rfl⟩, fun _ _ => rfl⟩, ⟨rfl, rfl, rfl⟩, ⟨rfl, rfl, rfl, rfl⟩,
    range _ (by decide) (by decide) (by decide), range _ (by decide) (by decide) (by decide)⟩

theorem witness_StepKeepsPayloadCanonical :
    ∃ s : State, s.pb.wf = true ∧ s.pb ≠ [] ∧ ∃ t, step s = .next t :=
  ⟨{ idle with pb := payload, requests := [.writePayload 0xFFFF 0xAA] }, by decide +kernel, by decide +kernel, _, rfl⟩

end Sys2Proof.Machine.Tests
end

/-! SUPPORT. How a command ends (R14, R250): refused before anything happens, or run to the end of its procedure; and the
statuses each instruction can answer. -/

namespace Sys2Proof.Machine

/-- The statuses an instruction returns when no fault stops it: `OK`, or the advisory of its own command (R254, R255). -/
def MayReturn (i : Instr) (st : Status) : Prop :=
  st = .ok ∨ (st = .selfTestFailed ∧ ∃ p, i = .selfTest p) ∨ (st = .chipAbsent ∧ i = .isChipConnected)

/-- A procedure that, unless a fault stops it, returns a response the instruction may answer with. -/
def Returns (i : Instr) (r : Result Response) : Prop := ∀ resp u, r = .ok resp u → MayReturn i resp.status

theorem Returns.pure {i : Instr} {r : Response} (h : MayReturn i r.status) (s : State) : Returns i (.ok r s) := by
  rintro _ _ ⟨⟩
  exact h

theorem Returns.raised (i : Instr) (f : AbortReason) (d : Half) (s : State) : Returns i (.raised f d s) := by
  rintro _ _ ⟨⟩

/-- A procedure whose value a command turns into its response, without a further step. -/
theorem Returns.map {i : Instr} {α : Type} {f : α → Response} (h : ∀ v, MayReturn i (f v).status) (r : Result α) :
    Returns i (r.andThen fun v s => .ok (f v) s) := by
  cases r with
  | ok v s => exact .pure (h v) s
  | raised e d s => exact .raised i e d s

theorem Returns.answer (i : Instr) (r : Result Half) : Returns i r.answer := .map (fun _ => .inl rfl) r

theorem Returns.done (i : Instr) (r : Result Unit) : Returns i r.done := .map (fun _ => .inl rfl) r

theorem mayReturn_selfTestResponse (p : Probe) (pass : Bool) (cnt : Nat) :
    MayReturn (.selfTest p) (selfTestResponse pass cnt).status := by
  cases pass
  · exact .inr (.inl ⟨rfl, p, rfl⟩)
  · exact .inl rfl

theorem mayReturn_connectedResponse (v : Half) : MayReturn .isChipConnected (connectedResponse v).status := by
  unfold connectedResponse
  split
  · exact .inr (.inr ⟨rfl, rfl⟩)
  · exact .inl rfl

/-- How an instruction comes from one state to the next: refused for the state it met (R257), refused for its own operands
(R256), or run to the end of a procedure (R11). -/
inductive Ending (i : Instr) (s : State) : State → Prop
  | refused : Ending i s (refuse .illegalState s)
  | malformed (h : ¬ WellFormed i) : Ending i s (refuse .illegalCommand s)
  | ran {r : Result Response} (h : Returns i r) : Ending i s r.finish

theorem Ending.whenIdle {i : Instr} {k : State → Result Response} (s : State) (h : Returns i (k s)) :
    Ending i s (whenIdle k s) := by
  by_cases hi : s.Idle
  · rw [whenIdle_of_idle hi]
    exact .ran h
  · rw [whenIdle_of_not_idle hi]
    exact .refused

theorem Ending.whenIdleFilled {i : Instr} {k : Half → State → Result Response} (s : State)
    (h : ∀ v, Returns i (k v s)) : Ending i s (whenIdleFilled k s) := by
  obtain hf | ⟨v, hf⟩ := Option.eq_none_or_eq_some s.fill
  · rw [whenIdleFilled_none hf]
    exact .refused
  · rw [whenIdleFilled_some hf]
    exact .whenIdle s (h v)

/-- The admission check of a command that holds a line by hand (R131, R133). -/
theorem Ending.refusedIf {i : Instr} {s t : State} {p : Prop} [Decidable p] (h : Ending i s t) :
    Ending i s (if p then refuse .illegalState s else t) := by
  split
  · exact .refused
  · exact h

/-- The check of an instruction's own operands, before any check of the state (R259). -/
theorem Ending.checked {i : Instr} {s t : State} {b : Bool} (hb : i.wf = b) (h : Ending i s t) :
    Ending i s (if b then t else refuse .illegalCommand s) := by
  split
  · exact h
  · next hf => exact .malformed (by rwa [WellFormed, hb])

/-- Every instruction answers a next state, and comes to it in one of the three ways (R14, R264). -/
theorem exec_ending (i : Instr) (s : State) : ∃ t, exec i s = .next t ∧ Ending i s t := by
  cases i with
  | selectCommand => exact ⟨_, rfl, .refusedIf (.ran (.done _ _))⟩
  | deselectCommand => exact ⟨_, rfl, .ran (.done _ _)⟩
  | selectData => exact ⟨_, rfl, .refusedIf (.ran (.done _ _))⟩
  | deselectData => exact ⟨_, rfl, .ran (.done _ _)⟩
  | awaitReady n => exact ⟨_, rfl, .ran (.done _ _)⟩
  | readRegister r => exact ⟨_, rfl, .whenIdle s (.answer _ _)⟩
  | writeRegister sp r v => exact ⟨_, rfl, .whenIdle s (.done _ _)⟩
  | scratchWrite a d => exact ⟨_, rfl, .whenIdle s (.done _ _)⟩
  | scratchRead a => exact ⟨_, rfl, .whenIdle s (.answer _ _)⟩
  | selfTest p => exact ⟨_, rfl, .whenIdle s (.map (fun _ => mayReturn_selfTestResponse ..) _)⟩
  | writeStream l n => exact ⟨_, rfl, .checked rfl (.whenIdle s (.done _ _))⟩
  | flushWithFillers n => exact ⟨_, rfl, .whenIdleFilled s fun _ => .done _ _⟩
  | stop => exact ⟨_, rfl, .whenIdleFilled s fun _ => .map (fun _ => .inl rfl) _⟩
  | setVolume v => exact ⟨_, rfl, .whenIdle s (.done _ _)⟩
  | setBalance b => exact ⟨_, rfl, .ran (.pure (.inl rfl) _)⟩
  | getVolume => exact ⟨_, rfl, .ran (.pure (.inl rfl) _)⟩
  | begin => exact ⟨_, rfl, .ran (.answer _ _)⟩
  | switchToMp3Mode => exact ⟨_, rfl, .whenIdle s (.done _ _)⟩
  | softReset => exact ⟨_, rfl, .whenIdle s (.done _ _)⟩
  | isChipConnected => exact ⟨_, rfl, .whenIdle s (.map mayReturn_connectedResponse _)⟩
  | getChipVersion => exact ⟨_, rfl, .whenIdle s (.map (fun _ => .inl rfl) _)⟩
  | wireReadFrame r => exact ⟨_, rfl, .whenIdle s (.map (fun _ => .inl rfl) _)⟩
  | wireWriteFrame r v => exact ⟨_, rfl, .whenIdle s (.map (fun _ => .inl rfl) _)⟩
  | wireDataChunk bytes => exact ⟨_, rfl, .checked rfl (.whenIdle s (.done _ _))⟩
  | wireFillerUnit v =>
    by_cases hv : s.fill = some v
    · exact ⟨_, by rw [exec, execWireFillerUnit, if_pos hv]; rfl, .whenIdle s (.done _ _)⟩
    · exact ⟨_, by rw [exec, execWireFillerUnit, if_neg hv]; rfl, .refused⟩

/-- A procedure's end answers with a fault's status, or with one the instruction may return. -/
theorem Returns.finish_response {i : Instr} {r : Result Response} (h : Returns i r) :
    ∃ st d, r.finish.response = some ⟨st, d⟩ ∧ ((∃ f : AbortReason, st = f.status) ∨ MayReturn i st) := by
  cases r with
  | ok resp u => exact ⟨resp.status, resp.rdata, rfl, .inr (h resp u rfl)⟩
  | raised f d u => exact ⟨f.status, d, rfl, .inl ⟨f, rfl⟩⟩

theorem abortStatus_not_refusal_nor_advisory (f : AbortReason) :
    f.status ≠ .illegalCommand ∧ f.status ≠ .illegalState ∧ f.status ≠ .selfTestFailed ∧ f.status ≠ .chipAbsent := by
  cases f <;> decide

/-- Settles O44: an instruction is refused with nothing but the response changed, or answers what its procedure's end says,
which is never a refusal and is an advisory for the command that has it. -/
theorem everyInstructionAnswers : Obligations.EveryInstructionAnswers := by
  intro i s
  obtain ⟨t, ht, he⟩ := exec_ending i s
  cases he with
  | refused => exact ⟨_, .illegalState, 0, ht, rfl, fun _ => ⟨rfl, rfl⟩, nofun, nofun, nofun⟩
  | malformed hw => exact ⟨_, .illegalCommand, 0, ht, rfl, fun _ => ⟨rfl, rfl⟩, nofun, nofun, fun _ => hw⟩
  | ran hr =>
    obtain ⟨st, d, hresp, hst⟩ := hr.finish_response
    refine ⟨_, st, d, ht, hresp, ?_⟩
    rcases hst with ⟨f, rfl⟩ | rfl | ⟨rfl, hp⟩ | ⟨rfl, hi⟩
    · obtain ⟨hc, hs, hf, ha⟩ := abortStatus_not_refusal_nor_advisory f
      exact ⟨fun h => (h.elim hc hs).elim, fun h => absurd h hf, fun h => absurd h ha, fun h => absurd h hc⟩
    · exact ⟨nofun, nofun, nofun, nofun⟩
    · exact ⟨nofun, fun _ => hp, nofun, nofun⟩
    · exact ⟨nofun, nofun, fun _ => hi, nofun⟩

end Sys2Proof.Machine

/-! SUPPORT. The invariant of R24 along every step, the steps that carry out no command, and the state construction
leaves. -/

namespace Sys2Proof.Machine

/-! ## Traffic framed by the latches (R24) -/

/-- Whatever an instruction other than `BEGIN` does, its events are framed from the latches it began with. -/
theorem Effect.keeps_traffic {i : Instr} {s u : State} {resp : Response} (he : Effect i s u resp) (h : TrafficOk s) :
    TrafficOk u := by
  obtain ⟨_, _, evs, hm, hl, hf, _⟩ := he.moves
  exact h.extend hm.trace hl hf

theorem bringUp_keeps_traffic {s : State} (h : TrafficOk s) : TrafficOk (bringUp s).state := by
  rcases bringUp_cases s with ⟨t, he, _, _, hend⟩ | ⟨f, t, he, _, _, hend⟩
  · rw [he]
    exact hend.traffic h
  · rw [he]
    exact hend.traffic h

/-- Turning a procedure's value into the command's data is no further step. -/
@[simp] theorem answer_state (r : Result Half) : r.answer.state = r.state := by
  cases r <;> rfl

/-- `BEGIN` leaves the state bring-up leaves, but for the response (R221). -/
theorem exec_begin_eq (s : State) : ∃ resp, exec .begin s = .next { (bringUp s).state with response := some resp } := by
  obtain ⟨resp, hr⟩ := finish_eq (bringUp s).answer
  rw [answer_state] at hr
  exact ⟨resp, congrArg Host.Outcome.next hr⟩

theorem exec_keeps_traffic {i : Instr} {s t : State} (h : TrafficOk s) (he : exec i s = .next t) : TrafficOk t := by
  by_cases hb : i = .begin
  · subst hb
    obtain ⟨resp, hbegin⟩ := exec_begin_eq s
    obtain rfl := Host.Outcome.next.inj (hbegin.symm.trans he)
    exact bringUp_keeps_traffic h
  · obtain ⟨u, resp, heff⟩ := exec_effect s hb
    obtain rfl := Host.Outcome.next.inj (heff.answer.symm.trans he)
    exact heff.keeps_traffic h

theorem runPacket_keeps_traffic {p : Packet} {s t : State} (h : TrafficOk s) (hp : runPacket p s = .next t) :
    TrafficOk t := by
  rcases runPacket_cases hp with ⟨i, _, he⟩ | ⟨_, _, rfl⟩
  · exact exec_keeps_traffic h he
  · exact h

/-- Settles O50: a step waits, takes a payload write, refuses a packet or executes an instruction, and only the last
adds events, which are framed from the latches it began with. -/
theorem stepKeepsTrafficFramed : Obligations.StepKeepsTrafficFramed := by
  intro s t h hs
  rcases step_cases hs with ⟨_, rfl⟩ | ⟨_, _, _, _, rfl⟩ | ⟨p, _, _, hp⟩
  · exact h
  · exact h
  · exact runPacket_keeps_traffic (s := s.take) h hp

/-! ## Steps without a command (R45, R63) -/

theorem step_of_no_request {s : State} (h : s.requests = []) : step s = .next s := by
  simp only [step, h]

theorem step_of_writePayload {s : State} {index : Half} {value : Byte} {rest : List Request}
    (h : s.requests = .writePayload index value :: rest) :
    step s = .next { s with requests := rest, pb := s.pb.write index.toNat value } := by
  simp only [step, hostWritePayload, State.take, h, List.tail_cons]

/-- Settles O7: without a request the state stays, and a payload write is `Memory.write`, whose reads in canonical form
are those of `Memory.read_write`. -/
theorem stepWithoutCommand : Obligations.StepWithoutCommand :=
  ⟨fun _ h => step_of_no_request h,
    fun _ i b _ hwf hreq => ⟨_, step_of_writePayload hreq, fun a => Memory.read_write hwf i.toNat a b⟩⟩

/-! ## Construction (R45) -/

theorem construct_trafficOk (c : Config) : TrafficOk (State.construct c) := ⟨rfl, trivial⟩

theorem construct_stageOk (c : Config) : StageOk (State.construct c) := ⟨rfl, rfl, rfl, rfl⟩

/-- The ranges R7 gives `VOL_RESET` and `BAL_RESET` are those of the registers. -/
theorem construct_rangesOk (c : Config) : RangesOk (State.construct c) := by
  obtain ⟨_, _, _, _, _, _, _, hvol, hlow, hhigh⟩ := c.ok
  exact ⟨hvol, hlow, hhigh⟩

theorem construct_bothOnlyResetting (c : Config) : BothOnlyResetting (State.construct c) := by
  intro hc
  cases hc

/-- Settles O53: no event, the first stage, the binding's ranges, both latches released, an empty buffer; and the reset
state is the construction with `BIND_GK` by definition. -/
theorem constructionMeetsInvariants : Obligations.ConstructionMeetsInvariants :=
  ⟨fun c => ⟨construct_trafficOk c, construct_stageOk c, construct_rangesOk c, construct_bothOnlyResetting c, rfl⟩, rfl⟩

end Sys2Proof.Machine

/-! SUPPORT. Carrying out a packet that decodes (R71, R74); what no instruction writes, which keeps the payload buffer
canonical along every step (R44, R63); and the ready sample before every data exchange of a composite command (R72). -/

namespace Sys2Proof.Machine

/-! ## The step (R71, R74) -/

theorem take_of_requests {s : State} {r : Request} {rest : List Request} (h : s.requests = r :: rest) :
    s.take = { s with requests := rest } := by
  rw [State.take, h, List.tail_cons]

/-- Taking the request leaves the configuration, so the packet decodes as it did before. -/
theorem step_of_decoded {s : State} {p : Packet} {rest : List Request} {i : Instr}
    (hreq : s.requests = requestOf p :: rest) (hd : decode s.cfg p = .ok i) :
    step s = exec i { s with requests := rest } := by
  rw [step_of_request hreq, runPacket_ok (s := s.take) hd, take_of_requests hreq]

/-- Settles O6: a command word and a frame are the two packets of `step_of_decoded`. -/
theorem stepRunsDecoded : Obligations.StepRunsDecoded :=
  fun _ _ _ => ⟨fun w hreq hd => step_of_decoded (p := .command w) hreq hd,
    fun f hreq hd => step_of_decoded (p := .frame f) hreq hd⟩

/-! ## What no instruction writes (R44, R63) -/

theorem Kept.sameSurroundings {s t : State} (h : Kept s t) : SameSurroundings s t := by
  obtain ⟨hcfg, _, _, hpb, hreq, evs, htrace⟩ := h
  exact ⟨hcfg, hpb, hreq, evs, by simp [State.events, htrace]⟩

theorem bringUp_kept (s : State) : Kept s (bringUp s).state := by
  rcases bringUp_cases s with ⟨t, he, _, _, hend⟩ | ⟨f, t, he, _, _, hend⟩
  · rw [he]
    exact hend.kept
  · rw [he]
    exact hend.kept

/-- The registers an instruction other than `BEGIN` may write are none of the surroundings. -/
theorem Effect.sameSurroundings {i : Instr} {s u : State} {resp : Response} (h : Effect i s u resp) :
    SameSurroundings s u := by
  obtain ⟨_, _, evs, hm, _⟩ := h.moves
  exact ⟨hm.cfg, hm.pb, hm.requests, evs, hm.events⟩

theorem exec_sameSurroundings {i : Instr} {s t : State} (he : exec i s = .next t) : SameSurroundings s t := by
  by_cases hb : i = .begin
  · subst hb
    obtain ⟨resp, hbegin⟩ := exec_begin_eq s
    obtain rfl := Host.Outcome.next.inj (hbegin.symm.trans he)
    exact (bringUp_kept s).sameSurroundings
  · obtain ⟨u, resp, heff⟩ := exec_effect s hb
    obtain rfl := Host.Outcome.next.inj (heff.answer.symm.trans he)
    exact heff.sameSurroundings

theorem exec_pb {i : Instr} {s t : State} (he : exec i s = .next t) : t.pb = s.pb := by
  obtain ⟨_, hpb, _⟩ := exec_sameSurroundings he
  exact hpb

/-- Settles O48: `BEGIN` keeps the surroundings by bring-up's cases, every other instruction by its effect; the buffer
is the same list, so every byte of it is the same. -/
theorem surroundingsFrame : Obligations.SurroundingsFrame :=
  fun _ _ _ he => ⟨exec_sameSurroundings he, fun _ => by rw [exec_pb he]⟩

/-! ## The buffer's canonical form along every step (R63) -/

theorem hostWritePayload_keeps_pb_wf {s : State} (h : s.pb.wf = true) (index : Half) (value : Byte) :
    (hostWritePayload index value s).pb.wf = true :=
  Memory.wf_write h index.isLt value

theorem runPacket_pb {p : Packet} {s t : State} (hp : runPacket p s = .next t) : t.pb = s.pb := by
  rcases runPacket_cases hp with ⟨i, _, he⟩ | ⟨_, _, rfl⟩
  · exact exec_pb he
  · rfl

/-- Settles O52: only the host's payload write changes the buffer, and its 16-bit index is inside it. -/
theorem stepKeepsPayloadCanonical : Obligations.StepKeepsPayloadCanonical := by
  intro s t h hs
  rcases step_cases hs with ⟨_, rfl⟩ | ⟨index, value, _, _, rfl⟩ | ⟨p, _, _, hp⟩
  · exact h
  · exact hostWritePayload_keeps_pb_wf (s := s.take) h index value
  · rw [runPacket_pb hp]
    exact h

/-! ## Data exchanges after a ready sample (R72) -/

/-- The response is no event: a command adds the events of its procedure. -/
theorem Clean.finish_events {s : State} {r : Result Response} (h : Clean s r) :
    ∃ evs, r.finish.events = s.events ++ evs ∧ readyBeforeData false evs = true := by
  obtain ⟨evs, hm, _, _, hready, _⟩ := h
  obtain ⟨resp, hr⟩ := finish_eq r
  rw [hr]
  exact ⟨evs, hm.events, hready⟩

/-- Settles O27: a refused command adds no event, and an admitted one adds those of its procedure, each of whose data
exchanges follows a ready sample. -/
theorem dataOnlyAfterReady : Obligations.DataOnlyAfterReady := by
  intro i s t hc he
  rcases exec_composite s hc with ⟨st, _, hrefuse⟩ | ⟨_, vol, r, hrun, hclean, _⟩
  · obtain rfl := Host.Outcome.next.inj (hrefuse.symm.trans he)
    exact ⟨[], (List.append_nil _).symm, rfl⟩
  · obtain rfl := Host.Outcome.next.inj (hrun.symm.trans he)
    exact hclean.finish_events

end Sys2Proof.Machine

/-! SUPPORT. The encoding (30_encoding.md): a word selects a row of the opcode map field by field, each row's words are the
encodings of its command, and decoding undoes encoding. -/

namespace Sys2Proof

open Machine (opcodeMap OpcodeRow)

/-! ## Masks and operands, field by field (R96, R98) -/

/-- A word has a row's fixed bits exactly when each of its fields has its own. -/
theorem packWord_and_eq_iff {op a : Byte} {b c : Half} {mask fixed : CmdWord} :
    packWord op a b c &&& mask = fixed ↔
      op &&& mask.extractLsb' 40 8 = fixed.extractLsb' 40 8 ∧ a &&& mask.extractLsb' 32 8 = fixed.extractLsb' 32 8 ∧
      b &&& mask.extractLsb' 16 16 = fixed.extractLsb' 16 16 ∧ c &&& mask.extractLsb' 0 16 = fixed.extractLsb' 0 16 := by
  conv_lhs => rw [← packWord_fields mask, ← packWord_fields fixed, packWord_and, packWord_inj]
  rfl

/-- The mask of a whole field, as the numeral a row's mask computes to. -/
@[simp] theorem byte_and_ones (x : Byte) : x &&& 0xFF#8 = x := BitVec.and_allOnes

@[simp] theorem half_and_ones (x : Half) : x &&& 0xFFFF#16 = x := BitVec.and_allOnes

theorem getElem_packWord_speedBit (op a : Byte) (b c : Half) : (packWord op a b c)[16] = b[0] := by
  rw [← BitVec.getLsbD_eq_getElem, packWord_getLsbD, if_neg (by omega), if_pos (by omega), BitVec.getLsbD_eq_getElem]

theorem getElem_packWord_probeBit (op a : Byte) (b c : Half) : (packWord op a b c)[32] = a[0] := by
  rw [← BitVec.getLsbD_eq_getElem, packWord_getLsbD, if_neg (by omega), if_neg (by omega), if_pos (by omega),
    BitVec.getLsbD_eq_getElem]

theorem volumeOperand_packWord (op a : Byte) (b c : Half) : volumeOperand (packWord op a b c) = c.setWidth 8 := by
  ext i hi
  rw [volumeOperand, BitVec.getElem_extractLsb', packWord_getLsbD, if_pos (by omega), Nat.zero_add,
    BitVec.getElem_setWidth]

/-- A value has no bit from `k` up exactly when its lowest `k` bits are all of it. -/
theorem and_high_eq_zero_iff {n k : Nat} {x : BitVec n} :
    x &&& BitVec.allOnes n <<< k = 0 ↔ ∃ y : BitVec k, y.setWidth n = x := by
  constructor
  · intro h
    refine ⟨x.setWidth k, ?_⟩
    ext i hi
    have hbit : (x &&& BitVec.allOnes n <<< k).getLsbD i = false := by rw [h]; exact BitVec.getLsbD_zero
    by_cases hk : i < k
    · simp [hi, hk]
    · simpa [hi, hk] using hbit
  · rintro ⟨y, rfl⟩
    ext i hi
    by_cases hk : i < k
    · simp [hk]
    · simp [BitVec.getLsbD_of_ge y i (Nat.le_of_not_lt hk)]

/-- The mask of `WRITE_REGISTER` leaves the speed bit of `B` free, and no other (R100). -/
theorem and_speedMask_eq_zero_iff {b : Half} : b &&& 0xFFFE#16 = 0#16 ↔ ∃ sp, (bitOfSpeed sp).setWidth 16 = b := by
  refine (and_high_eq_zero_iff (k := 1)).trans ⟨?_, ?_⟩
  · rintro ⟨y, rfl⟩
    obtain rfl | rfl := y.eq_zero_or_eq_one
    · exact ⟨.slow, rfl⟩
    · exact ⟨.fast, rfl⟩
  · rintro ⟨sp, rfl⟩
    exact ⟨(bitOfSpeed sp).setWidth 1, by cases sp <;> rfl⟩

/-- The mask of `SELF_TEST` leaves the probe bit of `A` free, and no other (R101). -/
theorem and_probeMask_eq_zero_iff {a : Byte} : a &&& 0xFE#8 = 0#8 ↔ ∃ p, bitOfProbe p = a := by
  refine (and_high_eq_zero_iff (k := 1)).trans ⟨?_, ?_⟩
  · rintro ⟨y, rfl⟩
    obtain rfl | rfl := y.eq_zero_or_eq_one
    · exact ⟨.slowProbe, rfl⟩
    · exact ⟨.fastProbe, rfl⟩
  · rintro ⟨p, rfl⟩
    exact ⟨(bitOfProbe p).setWidth 1, by cases p <;> rfl⟩

/-- The mask of `SET_VOLUME` leaves the low byte of `C` free, and no other bit (R103). -/
theorem and_volumeMask_eq_zero_iff {c : Half} : c &&& 0xFF00#16 = 0#16 ↔ ∃ v : Byte, v.setWidth 16 = c :=
  and_high_eq_zero_iff (k := 8)

theorem exists_selectorOf {a : Byte} (h : a.toNat ≤ 6) : ∃ r, selectorOf r = a :=
  (regOfSelector_of_le h).imp fun _ => regOfSelector_some

theorem selectorOf_le_of_regOfSelector {a : Byte} {r : ChipReg} (h : regOfSelector a = some r) : a.toNat ≤ 6 := by
  rw [← regOfSelector_some h]
  cases r <;> decide

/-! ## When a row selects a word (R98) -/

section
variable (m : String) (mask fixed w : CmdWord)

theorem selects_none : OpcodeRow.selects ⟨m, mask, fixed, .none⟩ w = true ↔ w &&& mask = fixed := by
  simp [OpcodeRow.selects]

theorem selects_selectorAtMost6 :
    OpcodeRow.selects ⟨m, mask, fixed, .selectorAtMost6⟩ w = true ↔ w &&& mask = fixed ∧ (fieldA w).toNat ≤ 6 := by
  simp only [OpcodeRow.selects, Bool.and_eq_true, beq_iff_eq, decide_eq_true_eq, fieldA]

theorem selects_chunkNotZero :
    OpcodeRow.selects ⟨m, mask, fixed, .chunkNotZero⟩ w = true ↔ w &&& mask = fixed ∧ fieldC w ≠ 0 := by
  simp only [OpcodeRow.selects, Bool.and_eq_true, beq_iff_eq, bne_iff_ne, fieldC]

end

/-! ## The words of each row are encodings (R98) -/

/-- Every word a row selects is the encoding of a well-formed command with the row's mnemonic. -/
def RowEncodes (row : OpcodeRow) : Prop :=
  ∀ w, row.selects w = true → ∃ i, WellFormed i ∧ i.mnemonic = row.mnemonic ∧ ∀ cfg, encode cfg i = .command w

/-- A row's words, given by their fields. -/
theorem rowEncodes_of_fields {row : OpcodeRow}
    (h : ∀ op a b c, row.selects (packWord op a b c) = true →
      ∃ i, WellFormed i ∧ i.mnemonic = row.mnemonic ∧ ∀ cfg, encode cfg i = .command (packWord op a b c)) :
    RowEncodes row := by
  intro w hw
  rw [← packWord_fields w] at hw ⊢
  exact h _ _ _ _ hw

/-- A row without an operand selects one word. -/
theorem rowEncodes_fixed {m : String} {fixed : CmdWord} (i : Instr) (hwf : WellFormed i) (hm : i.mnemonic = m)
    (he : ∀ cfg, encode cfg i = .command fixed) : RowEncodes ⟨m, 0xFFFFFFFFFFFF, fixed, .none⟩ := by
  intro w h
  obtain rfl : w = fixed := BitVec.and_allOnes.symm.trans ((selects_none ..).1 h)
  exact ⟨i, hwf, hm, he⟩

theorem rowEncodes_awaitReady : RowEncodes ⟨"AWAIT_READY", 0xFFFFFFFF0000, 0x200000000000, .none⟩ := by
  refine rowEncodes_of_fields fun op a b c h => ?_
  obtain ⟨rfl, rfl, rfl⟩ : op = 0x20 ∧ a = 0 ∧ b = 0 := by simpa [selects_none, packWord_and_eq_iff] using h
  exact ⟨.awaitReady c, rfl, rfl, fun _ => rfl⟩

theorem rowEncodes_readRegister : RowEncodes ⟨"READ_REGISTER", 0xFF00FFFFFFFF, 0x300000000000, .selectorAtMost6⟩ := by
  refine rowEncodes_of_fields fun op a b c h => ?_
  obtain ⟨⟨rfl, rfl, rfl⟩, ha⟩ : (op = 0x30 ∧ b = 0 ∧ c = 0) ∧ a.toNat ≤ 6 := by
    simpa [selects_selectorAtMost6, packWord_and_eq_iff] using h
  obtain ⟨r, rfl⟩ := exists_selectorOf ha
  exact ⟨.readRegister r, rfl, rfl, fun _ => rfl⟩

theorem rowEncodes_writeRegister : RowEncodes ⟨"WRITE_REGISTER", 0xFF00FFFE0000, 0x310000000000, .selectorAtMost6⟩ := by
  refine rowEncodes_of_fields fun op a b c h => ?_
  obtain ⟨⟨rfl, hb⟩, ha⟩ : (op = 0x31 ∧ b &&& 0xFFFE#16 = 0#16) ∧ a.toNat ≤ 6 := by
    simpa [selects_selectorAtMost6, packWord_and_eq_iff] using h
  obtain ⟨r, rfl⟩ := exists_selectorOf ha
  obtain ⟨sp, rfl⟩ := and_speedMask_eq_zero_iff.1 hb
  exact ⟨.writeRegister sp r c, rfl, rfl, fun _ => rfl⟩

theorem rowEncodes_scratchWrite : RowEncodes ⟨"SCRATCH_WRITE", 0xFFFF00000000, 0x320000000000, .none⟩ := by
  refine rowEncodes_of_fields fun op a b c h => ?_
  obtain ⟨rfl, rfl⟩ : op = 0x32 ∧ a = 0 := by simpa [selects_none, packWord_and_eq_iff] using h
  exact ⟨.scratchWrite b c, rfl, rfl, fun _ => rfl⟩

theorem rowEncodes_scratchRead : RowEncodes ⟨"SCRATCH_READ", 0xFFFF0000FFFF, 0x330000000000, .none⟩ := by
  refine rowEncodes_of_fields fun op a b c h => ?_
  obtain ⟨rfl, rfl, rfl⟩ : op = 0x33 ∧ a = 0 ∧ c = 0 := by simpa [selects_none, packWord_and_eq_iff] using h
  exact ⟨.scratchRead b, rfl, rfl, fun _ => rfl⟩

theorem rowEncodes_selfTest : RowEncodes ⟨"SELF_TEST", 0xFFFEFFFFFFFF, 0x400000000000, .none⟩ := by
  refine rowEncodes_of_fields fun op a b c h => ?_
  obtain ⟨rfl, ha, rfl, rfl⟩ : op = 0x40 ∧ a &&& 0xFE#8 = 0#8 ∧ b = 0 ∧ c = 0 := by
    simpa [selects_none, packWord_and_eq_iff] using h
  obtain ⟨p, rfl⟩ := and_probeMask_eq_zero_iff.1 ha
  exact ⟨.selfTest p, rfl, rfl, fun _ => rfl⟩

theorem rowEncodes_writeStream : RowEncodes ⟨"WRITE_STREAM", 0xFFFF00000000, 0x500000000000, .chunkNotZero⟩ := by
  refine rowEncodes_of_fields fun op a b c h => ?_
  obtain ⟨⟨rfl, rfl⟩, hc⟩ : (op = 0x50 ∧ a = 0) ∧ c ≠ 0 := by
    simpa [selects_chunkNotZero, packWord_and_eq_iff] using h
  exact ⟨.writeStream b c, bne_iff_ne.2 hc, rfl, fun _ => rfl⟩

theorem rowEncodes_flushWithFillers : RowEncodes ⟨"FLUSH_WITH_FILLERS", 0xFFFF0000FFFF, 0x510000000000, .none⟩ := by
  refine rowEncodes_of_fields fun op a b c h => ?_
  obtain ⟨rfl, rfl, rfl⟩ : op = 0x51 ∧ a = 0 ∧ c = 0 := by simpa [selects_none, packWord_and_eq_iff] using h
  exact ⟨.flushWithFillers b, rfl, rfl, fun _ => rfl⟩

theorem rowEncodes_setVolume : RowEncodes ⟨"SET_VOLUME", 0xFFFFFFFFFF00, 0x600000000000, .none⟩ := by
  refine rowEncodes_of_fields fun op a b c h => ?_
  obtain ⟨rfl, rfl, rfl, hc⟩ : op = 0x60 ∧ a = 0 ∧ b = 0 ∧ c &&& 0xFF00#16 = 0#16 := by
    simpa [selects_none, packWord_and_eq_iff] using h
  obtain ⟨v, rfl⟩ := and_volumeMask_eq_zero_iff.1 hc
  exact ⟨.setVolume v, rfl, rfl, fun _ => rfl⟩

theorem rowEncodes_setBalance : RowEncodes ⟨"SET_BALANCE", 0xFFFFFFFF0000, 0x610000000000, .none⟩ := by
  refine rowEncodes_of_fields fun op a b c h => ?_
  obtain ⟨rfl, rfl, rfl⟩ : op = 0x61 ∧ a = 0 ∧ b = 0 := by simpa [selects_none, packWord_and_eq_iff] using h
  exact ⟨.setBalance c, rfl, rfl, fun _ => rfl⟩

theorem opcodeMap_rowEncodes : ∀ row ∈ opcodeMap, RowEncodes row := by
  simp only [opcodeMap, List.forall_mem_cons]
  exact ⟨
    rowEncodes_fixed .selectCommand rfl rfl fun _ => rfl,
    rowEncodes_fixed .deselectCommand rfl rfl fun _ => rfl,
    rowEncodes_fixed .selectData rfl rfl fun _ => rfl,
    rowEncodes_fixed .deselectData rfl rfl fun _ => rfl,
    rowEncodes_awaitReady, rowEncodes_readRegister, rowEncodes_writeRegister, rowEncodes_scratchWrite,
    rowEncodes_scratchRead, rowEncodes_selfTest, rowEncodes_writeStream, rowEncodes_flushWithFillers,
    rowEncodes_fixed .stop rfl rfl fun _ => rfl,
    rowEncodes_setVolume, rowEncodes_setBalance,
    rowEncodes_fixed .getVolume rfl rfl fun _ => rfl,
    rowEncodes_fixed .begin rfl rfl fun _ => rfl,
    rowEncodes_fixed .switchToMp3Mode rfl rfl fun _ => rfl,
    rowEncodes_fixed .softReset rfl rfl fun _ => rfl,
    rowEncodes_fixed .isChipConnected rfl rfl fun _ => rfl,
    rowEncodes_fixed .getChipVersion rfl rfl fun _ => rfl,
    nofun⟩

/-! ## The row of a word that decodes (R98) -/

/-- Some row of the opcode map with this mnemonic selects the word. -/
def SelectedAs (w : CmdWord) (m : String) : Prop := ∃ row ∈ opcodeMap, row.selects w = true ∧ row.mnemonic = m

/-- A word the decoder matches against a row without an extra condition. -/
theorem selectedAs_of_matchRow {w mask fixed : CmdWord} {i j : Instr} (h : matchRow w mask fixed i = .ok j)
    (hrow : ⟨i.mnemonic, mask, fixed, .none⟩ ∈ opcodeMap) : SelectedAs w j.mnemonic := by
  obtain ⟨hm, rfl⟩ := matchRow_ok.1 h
  exact ⟨_, hrow, (selects_none ..).2 hm, rfl⟩

/-- A word the decoder matches against a row whose field `A` names a register. -/
theorem selectedAs_of_selector {w mask fixed : CmdWord} {r : ChipReg} {i j : Instr}
    (hr : regOfSelector (fieldA w) = some r) (h : matchRow w mask fixed i = .ok j)
    (hrow : ⟨i.mnemonic, mask, fixed, .selectorAtMost6⟩ ∈ opcodeMap) : SelectedAs w j.mnemonic := by
  obtain ⟨hm, rfl⟩ := matchRow_ok.1 h
  exact ⟨_, hrow, (selects_selectorAtMost6 ..).2 ⟨hm, selectorOf_le_of_regOfSelector hr⟩, rfl⟩

theorem selectedAs_of_decodeCommand {w : CmdWord} {i : Instr} (h : decodeCommand w = .ok i) :
    SelectedAs w i.mnemonic := by
  unfold decodeCommand at h
  split at h
  case h_6 => -- READ_REGISTER
    split at h
    · next r hr => exact selectedAs_of_selector hr h (by simp [Instr.mnemonic, opcodeMap])
    · nomatch h
  case h_7 => -- WRITE_REGISTER
    split at h
    · next r hr => exact selectedAs_of_selector hr h (by simp [Instr.mnemonic, opcodeMap])
    · nomatch h
  case h_11 => -- WRITE_STREAM
    split at h
    · nomatch h
    · next hc =>
      obtain ⟨hm, rfl⟩ := matchRow_ok.1 h
      exact ⟨_, by simp [opcodeMap], (selects_chunkNotZero "WRITE_STREAM" ..).2 ⟨hm, hc⟩, rfl⟩
  case h_22 => nomatch h -- no opcode of the map
  all_goals exact selectedAs_of_matchRow h (by simp [Instr.mnemonic, opcodeMap])

/-! ## Decoding a wire frame (R90 to R92) -/

section
variable (b0 b1 b2 b3 : Byte) (v : Half) (c : Config) (r : ChipReg)

/-- The four bytes of a number written first byte most significant. -/
theorem extractLsb'_bytes4 :
    BitVec.extractLsb' (n := 8 + 8 + 8 + 8) 24 8 (b0 ++ b1 ++ b2 ++ b3) = b0 ∧
    BitVec.extractLsb' (n := 8 + 8 + 8 + 8) 16 8 (b0 ++ b1 ++ b2 ++ b3) = b1 ∧
    BitVec.extractLsb' (n := 8 + 8 + 8 + 8) 8 8 (b0 ++ b1 ++ b2 ++ b3) = b2 ∧
    BitVec.extractLsb' (n := 8 + 8 + 8 + 8) 0 8 (b0 ++ b1 ++ b2 ++ b3) = b3 := by
  simp (disch := omega) only [BitVec.extractLsb'_append_eq_of_le, BitVec.extractLsb'_append_eq_of_add_le, Nat.reduceSub,
    BitVec.extractLsb'_eq_self, and_self]

/-- Two bytes and a 16-bit value, the first byte most significant. -/
theorem extractLsb'_bytes2_half :
    BitVec.extractLsb' (n := 8 + 8 + 16) 24 8 (b0 ++ b1 ++ v) = b0 ∧
    BitVec.extractLsb' (n := 8 + 8 + 16) 16 8 (b0 ++ b1 ++ v) = b1 ∧
    BitVec.extractLsb' (n := 8 + 8 + 16) 0 16 (b0 ++ b1 ++ v) = v := by
  simp (disch := omega) only [BitVec.extractLsb'_append_eq_of_le, BitVec.extractLsb'_append_eq_of_add_le, Nat.reduceSub,
    BitVec.extractLsb'_eq_self, and_self]

theorem decodeFrame32_readFrameWord : decodeFrame32 c (readFrameWord c r) = .ok (.wireReadFrame r) := by
  obtain ⟨hop, haddr, hfill, hfill'⟩ := extractLsb'_bytes4 c.opRead (wireAddress c r) c.readFillByte c.readFillByte
  simp only [decodeFrame32, readFrameWord]
  rw [haddr, regOfWireAddress_wireAddress]
  exact if_pos ⟨hop, hfill, hfill'⟩

/-- R8 keeps the two opcodes apart, so a write frame is no read frame, whatever its value. -/
theorem decodeFrame32_writeFrameWord : decodeFrame32 c (writeFrameWord c r v) = .ok (.wireWriteFrame r v) := by
  obtain ⟨hop, haddr, hvalue⟩ := extractLsb'_bytes2_half c.opWrite (wireAddress c r) v
  have hne : c.opWrite ≠ c.opRead := c.ok.1.symm
  simp only [decodeFrame32, writeFrameWord]
  rw [haddr, regOfWireAddress_wireAddress]
  simp [hop, hvalue, hne]
end

/-! ## Decoding undoes encoding, and a legal word has one spelling -/

/-- Settles O2: without an operand by computation; with operands field by field, each operand field being what the row's
mask leaves free; a frame by the bytes of its number. -/
theorem decodeOfEncode : Obligations.DecodeOfEncode := by
  intro c i h
  cases i with
  | selectCommand | deselectCommand | selectData | deselectData | stop | getVolume | begin | switchToMp3Mode
  | softReset | isChipConnected | getChipVersion => rfl
  | awaitReady _ | readRegister _ | scratchWrite _ _ | scratchRead _ | flushWithFillers _ | setBalance _ =>
    simp [encode, decode, decodeCommand, matchRow, packWord_and_eq_iff]
  | writeRegister sp r v =>
    have hbit : speedOfBit ((bitOfSpeed sp).setWidth 16)[0] = sp := by cases sp <;> rfl
    simp [encode, decode, decodeCommand, matchRow, packWord_and_eq_iff, getElem_packWord_speedBit,
      and_speedMask_eq_zero_iff.2 ⟨sp, rfl⟩, -BitVec.getElem_setWidth, hbit]
  | selfTest p =>
    have hbit : probeOfBit (bitOfProbe p)[0] = p := probeOfBit_bitOfProbe p
    simp [encode, decode, decodeCommand, matchRow, packWord_and_eq_iff, getElem_packWord_probeBit,
      and_probeMask_eq_zero_iff.2 ⟨p, rfl⟩, hbit]
  | writeStream l n =>
    have hn : n ≠ 0#16 := bne_iff_ne.1 h
    simp [encode, decode, decodeCommand, matchRow, packWord_and_eq_iff, hn]
  | setVolume v =>
    simp [encode, decode, decodeCommand, matchRow, packWord_and_eq_iff, volumeOperand_packWord,
      and_volumeMask_eq_zero_iff.2 ⟨v, rfl⟩]
  | wireReadFrame r => exact decodeFrame32_readFrameWord c r
  | wireWriteFrame r v => exact decodeFrame32_writeFrameWord v c r
  | wireDataChunk bytes => exact if_pos h
  | wireFillerUnit v => rfl

/-- Settles O3: the row that selects the word makes it the encoding of some command, and decoding that encoding gives the
command back. -/
theorem legalWordIsItsEncoding : Obligations.LegalWordIsItsEncoding := by
  intro c w i h
  obtain ⟨row, hrow, hsel, _⟩ := selectedAs_of_decodeCommand h
  obtain ⟨j, hwf, _, henc⟩ := opcodeMap_rowEncodes row hrow w hsel
  have hj : decode c (.command w) = .ok j := henc c ▸ decodeOfEncode c j hwf
  obtain rfl : i = j := Except.ok.inj (h.symm.trans hj)
  exact ⟨hwf, henc c⟩

/-- Settles O4: a row's word is the encoding of a command with the row's mnemonic, which decodes; and the decoder matches
every legal word against a row of the map. -/
theorem decoderIsTheOpcodeMap : Obligations.DecoderIsTheOpcodeMap := by
  intro c w m
  constructor
  · rintro ⟨row, hrow, hsel, rfl⟩
    obtain ⟨i, hwf, hm, henc⟩ := opcodeMap_rowEncodes row hrow w hsel
    exact ⟨i, henc c ▸ decodeOfEncode c i hwf, hm⟩
  · rintro ⟨i, hi, rfl⟩
    exact selectedAs_of_decodeCommand hi

/-- Settles O1, by evaluating the decoder. -/
theorem sampleWordsDecode : Obligations.SampleWordsDecode :=
  fun _ => ⟨rfl, rfl, rfl, rfl, rfl, rfl, rfl⟩

end Sys2Proof

namespace Sys2Proof.Machine

/-! ## A word that no row selects (R106, R256) -/

/-- The refusal of a packet takes the request and answers, and nothing else. -/
theorem step_of_illegal {s : State} {p : Packet} {rest : List Request} {e : Illegal}
    (hreq : s.requests = requestOf p :: rest) (hd : decode s.cfg p = .error e) :
    step s = .next { s with requests := rest, response := some ⟨.illegalCommand, 0⟩ } := by
  rw [step_of_request hreq, runPacket_error (s := s.take) hd, take_of_requests hreq]
  rfl

/-- Settles O5: a word that decodes is selected by a row, so this one is refused. -/
theorem illegalWordRefused : Obligations.IllegalWordRefused := by
  intro s w rest hreq hnone
  cases hd : decode s.cfg (.command w) with
  | error e => exact step_of_illegal (p := .command w) hreq hd
  | ok i =>
    obtain ⟨row, hrow, hsel, _⟩ := selectedAs_of_decodeCommand hd
    exact absurd hsel (by rw [hnone row hrow]; decide)

end Sys2Proof.Machine

/-! SUPPORT. The wire frames as instructions of the bus engine (R91 to R94): a register frame does what the register command
at `SPD` does, a data frame is one unit in a bracket of its own; and where a frame is refused (R257). -/

namespace Sys2Proof.Machine

/-! ## Register frames (R91, R92) -/

theorem exec_wireReadFrame_of_idle {s : State} (h : s.Idle) (r : ChipReg) :
    exec (.wireReadFrame r) s = .next (readRegister r s).answer.finish := by
  rw [exec, execWireReadFrame, whenIdle_of_idle h, readRegister]
  cases registerTransaction s.spd (readFrame s.cfg r) s <;> rfl

theorem exec_wireWriteFrame_of_idle {s : State} (h : s.Idle) (r : ChipReg) (v : Half) :
    exec (.wireWriteFrame r v) s = .next (writeRegister s.spd r v s).done.finish := by
  rw [exec, execWireWriteFrame, whenIdle_of_idle h, writeRegister]
  cases registerTransaction s.spd (writeFrame s.cfg r v) s <;> rfl

/-- A register read from `Idle`: the answer when it completes. -/
theorem readRegister_finish {s : State} {r : ChipReg} {rx : List Byte} {k : Nat} (h : s.Idle) (hr : rx.length = 4)
    (hk : k < 2000) :
    (readRegister r (s.answering (registerEvents s.spd (readFrame s.cfg r) rx k))).answer.finish =
      { s.after (registerEvents s.spd (readFrame s.cfg r) rx k) with response := some ⟨.ok, readValue rx⟩ } := by
  have hrun := readRegister_answering s [] h.1 rfl hr hk (r := r)
  rw [List.append_nil] at hrun
  rw [hrun]
  rfl

/-- A register read from `Idle`: the answer and the latch at each stop. -/
theorem readRegister_finish_stop {s : State} {r : ChipReg} {st : RegisterStop} (h : s.Idle) (hst : st.Ok) :
    (readRegister r (s.answering (st.events s.spd (readFrame s.cfg r)))).answer.finish =
      { s.after (st.events s.spd (readFrame s.cfg r)) with csc := st.csc, response := some ⟨st.status, 0⟩ } := by
  have hrun := readRegister_stop s [] st h.1 rfl hst (r := r)
  rw [List.append_nil] at hrun
  rw [hrun, ← reason_status]
  rfl

/-- A register write from `Idle`: the answer when it completes. -/
theorem writeRegister_finish {s : State} {sp : Speed} {r : ChipReg} {v : Half} {t : Turn} (h : s.Idle) (ht : t.Ok 4) :
    (writeRegister sp r v (s.answering (registerEvents sp (writeFrame s.cfg r v) t.rx t.k))).done.finish =
      { s.after (registerEvents sp (writeFrame s.cfg r v) t.rx t.k) with response := some ⟨.ok, 0⟩ } := by
  have hrun := writeRegister_answering s [] h.1 ht.1 ht.2 (sp := sp) (r := r) (v := v)
  rw [List.append_nil] at hrun
  rw [hrun]
  rfl

/-- A register write from `Idle`: the answer and the latch at each stop. -/
theorem writeRegister_finish_stop {s : State} {sp : Speed} {r : ChipReg} {v : Half} {st : RegisterStop} (h : s.Idle)
    (hst : st.Ok) :
    (writeRegister sp r v (s.answering (st.events sp (writeFrame s.cfg r v)))).done.finish =
      { s.after (st.events sp (writeFrame s.cfg r v)) with csc := st.csc, response := some ⟨st.status, 0⟩ } := by
  have hrun := writeRegister_stop s [] st h.1 hst (sp := sp) (r := r) (v := v)
  rw [List.append_nil] at hrun
  rw [hrun, ← reason_status]
  rfl

/-- Settles O42: a register frame runs the register procedure at `SPD`, whose completion and four stops are known. -/
theorem wireRegisterFrameMeanings : Obligations.WireRegisterFrameMeanings := by
  intro s r v hidle
  have hread (evs : List Event) := exec_wireReadFrame_of_idle (s := s.answering evs) hidle r
  have hwrite (evs : List Event) := exec_wireWriteFrame_of_idle (s := s.answering evs) hidle r v
  refine ⟨fun b0 b1 hi lo k hk => ?_, fun t ht => ?_, fun st hst => ⟨?_, ?_⟩⟩
  · exact (hread _).trans (congrArg _ (readRegister_finish hidle rfl hk))
  · exact (hwrite _).trans (congrArg _ (writeRegister_finish hidle ht))
  · exact (hread _).trans (congrArg _ (readRegister_finish_stop hidle hst))
  · exact (hwrite _).trans (congrArg _ (writeRegister_finish_stop hidle hst))

/-! ## Data frames (R93, R94) -/

theorem chunkBytesOk_iff {bytes : List Byte} : chunkBytesOk bytes = true ↔ bytes ≠ [] ∧ bytes.length ≤ 65535 := by
  simp [chunkBytesOk]

theorem exec_wireDataChunk_of_idle {s : State} {bytes : List Byte} (hb : chunkBytesOk bytes = true) (h : s.Idle) :
    exec (.wireDataChunk bytes) s = .next (dataTransaction bytes s).done.finish := by
  rw [exec, execWireDataChunk, if_pos hb, whenIdle_of_idle h, answered]

theorem exec_wireFillerUnit_of_idle {s : State} {v : Half} (hv : s.fill = some v) (h : s.Idle) :
    exec (.wireFillerUnit v) s = .next (dataTransaction (fillerUnit v) s).done.finish := by
  rw [exec, execWireFillerUnit, if_pos hv, whenIdle_of_idle h, answered]

/-- One unit in its bracket, from `Idle`: the answer when it completes. -/
theorem dataTransaction_finish {s : State} {tx : List Byte} {t : Turn} (h : s.Idle) (ht : t.Ok tx.length) :
    (dataTransaction tx (s.answering (burstEvents s.spd (fun _ => tx) 1 fun _ => t))).done.finish =
      { s.after (burstEvents s.spd (fun _ => tx) 1 fun _ => t) with response := some ⟨.ok, 0⟩ } := by
  have hrun := dataTransaction_answering s [] h.2 rfl ht
  rw [List.append_nil] at hrun
  rw [hrun]
  rfl

/-- One unit in its bracket, from `Idle`: the answer and the latch at each stop. -/
theorem dataTransaction_finish_stop {s : State} {tx : List Byte} {st : BurstStop} (h : s.Idle)
    (hst : st.Ok (fun _ => tx) 1) :
    (dataTransaction tx (s.answering (st.events s.spd (fun _ => tx) 1))).done.finish =
      { s.after (st.events s.spd (fun _ => tx) 1) with csd := st.csd, response := some ⟨st.status, 0⟩ } := by
  have hrun := dataTransaction_stop s [] st h.2 rfl hst
  rw [List.append_nil] at hrun
  rw [hrun, ← burstReason_status]
  rfl

/-- Settles O54: both data frames are one unit in its bracket, of the chunk's bytes or the filler unit's. -/
theorem wireDataFrameMeanings : Obligations.WireDataFrameMeanings := by
  intro s hidle
  refine ⟨fun bytes hne hle => ?_, fun v hv => ?_⟩
  · have hexec (evs : List Event) :=
      exec_wireDataChunk_of_idle (s := s.answering evs) (chunkBytesOk_iff.2 ⟨hne, hle⟩) hidle
    exact ⟨fun t ht => (hexec _).trans (congrArg _ (dataTransaction_finish hidle ht)),
      fun st hst => (hexec _).trans (congrArg _ (dataTransaction_finish_stop hidle hst))⟩
  · have hexec (evs : List Event) := exec_wireFillerUnit_of_idle (s := s.answering evs) hv hidle
    exact ⟨fun t ht => (hexec _).trans (congrArg _ (dataTransaction_finish (tx := fillerUnit v) hidle ht)),
      fun st hst => (hexec _).trans (congrArg _ (dataTransaction_finish_stop (tx := fillerUnit v) hidle hst))⟩

/-! ## Refusals (R137, R257) -/

theorem exec_wireReadFrame_of_not_idle {s : State} (h : ¬ s.Idle) (r : ChipReg) :
    exec (.wireReadFrame r) s = .next (refuse .illegalState s) := by
  rw [exec, execWireReadFrame, whenIdle_of_not_idle h, answered]

theorem exec_wireWriteFrame_of_not_idle {s : State} (h : ¬ s.Idle) (r : ChipReg) (v : Half) :
    exec (.wireWriteFrame r v) s = .next (refuse .illegalState s) := by
  rw [exec, execWireWriteFrame, whenIdle_of_not_idle h, answered]

theorem exec_wireDataChunk_of_not_idle {s : State} {bytes : List Byte} (hb : chunkBytesOk bytes = true) (h : ¬ s.Idle) :
    exec (.wireDataChunk bytes) s = .next (refuse .illegalState s) := by
  rw [exec, execWireDataChunk, if_pos hb, whenIdle_of_not_idle h, answered]

theorem exec_wireDataChunk_of_bad_length {bytes : List Byte} (hb : ¬ chunkBytesOk bytes = true) (s : State) :
    exec (.wireDataChunk bytes) s = .next (refuse .illegalCommand s) := by
  rw [exec, execWireDataChunk, if_neg hb, answered]

theorem exec_wireFillerUnit_refused {s : State} {v : Half} (h : ¬ s.Idle ∨ s.fill ≠ some v) :
    exec (.wireFillerUnit v) s = .next (refuse .illegalState s) := by
  rw [exec, execWireFillerUnit]
  split
  · next hv => rw [whenIdle_of_not_idle (h.resolve_right (not_not_intro hv)), answered]
  · rfl

/-- A command word decodes only to an instruction that a command word carries (R137). -/
theorem encode_ne_frame_of_decode {c : Config} {w : CmdWord} {i : Instr} (h : decode c (.command w) = .ok i)
    (f : Frame) : encode c i ≠ .frame f := by
  rw [(legalWordIsItsEncoding c w i h).2]
  exact nofun

/-- Settles O43: each admission check of a frame, and the carrier of a command being its word. -/
theorem wireFramesRefused : Obligations.WireFramesRefused := by
  intro s
  refine ⟨fun hn r v => ⟨exec_wireReadFrame_of_not_idle hn r, exec_wireWriteFrame_of_not_idle hn r v⟩,
    fun bytes => ⟨fun hn hne hle => exec_wireDataChunk_of_not_idle (chunkBytesOk_iff.2 ⟨hne, hle⟩) hn, fun hbad => ?_⟩,
    fun v hv => exec_wireFillerUnit_refused hv, fun c w i hi => ?_⟩
  · refine exec_wireDataChunk_of_bad_length (fun hok => ?_) s
    obtain ⟨hne, hle⟩ := chunkBytesOk_iff.1 hok
    exact hbad.elim hne (Nat.not_lt.2 hle)
  · have hframe := encode_ne_frame_of_decode hi
    exact ⟨fun _ h => hframe _ (congrArg (encode c) h), fun _ _ h => hframe _ (congrArg (encode c) h),
      fun _ h => hframe _ (congrArg (encode c) h), fun _ h => hframe _ (congrArg (encode c) h)⟩

end Sys2Proof.Machine

/-! SUPPORT. The Pin Gate (40_pin_gate.md): one drive under each answer (R130 to R135), the select bracket of every
composite command (R136), and no byte on the bus while a line is held by hand (R137). -/

namespace Sys2Proof.Machine

/-! ## One drive of a line (R131 to R134) -/

/-- A Pin Gate command's drive answered `ok`: the latch takes the level. -/
theorem drive_finish_ok (l : Line) (v : Level) (s : State) :
    (drive l v (s.answering [.pin l v .ok])).done.finish =
      { (s.after [.pin l v .ok]).setLatch l v with response := some ⟨.ok, 0⟩ } := by
  rw [drive_answering_ok, answering_nil, done_ok, finish_ok]

/-- A Pin Gate command's drive answered `PinFault`: the latch keeps its value (R135). -/
theorem drive_finish_pinFault (l : Line) (v : Level) (s : State) :
    (drive l v (s.answering [.pin l v .pinFault])).done.finish =
      { s.after [.pin l v .pinFault] with response := some ⟨.pinFault, 0⟩ } := by
  rw [drive_answering_pinFault, answering_nil, done_raised, finish_raised, AbortReason.status]

theorem exec_selectCommand_of_asserted {s : State} (h : s.csd = .asserted) :
    exec .selectCommand s = .next (refuse .illegalState s) := by
  rw [exec, execSelectCommand, if_pos h, answered]

theorem exec_selectCommand_of_released {s : State} (h : s.csd = .released) :
    exec .selectCommand s = .next (drive .cmd .asserted s).done.finish := by
  rw [exec, execSelectCommand, if_neg (by rw [h]; decide), answered, selectCommand]

theorem exec_selectData_of_asserted {s : State} (h : s.csc = .asserted) :
    exec .selectData s = .next (refuse .illegalState s) := by
  rw [exec, execSelectData, if_pos h, answered]

theorem exec_selectData_of_released {s : State} (h : s.csc = .released) :
    exec .selectData s = .next (drive .dat .asserted s).done.finish := by
  rw [exec, execSelectData, if_neg (by rw [h]; decide), answered, selectData]

theorem exec_deselectCommand_eq (s : State) : exec .deselectCommand s = .next (drive .cmd .released s).done.finish := by
  rw [exec, execDeselectCommand, answered, deselectCommand]

theorem exec_deselectData_eq (s : State) : exec .deselectData s = .next (drive .dat .released s).done.finish := by
  rw [exec, execDeselectData, answered, deselectData]

/-- Settles O9: the refusal, or the one drive under each of its two answers. -/
theorem selectCommandMeaning : Obligations.SelectCommandMeaning := by
  refine fun s => ⟨exec_selectCommand_of_asserted, fun h => ⟨?_, ?_⟩⟩
  · rw [exec_selectCommand_of_released (s := s.answering _) h, drive_finish_ok]
    rfl
  · rw [exec_selectCommand_of_released (s := s.answering _) h, drive_finish_pinFault]

/-- Settles O10: the refusal, or the one drive under each of its two answers. -/
theorem selectDataMeaning : Obligations.SelectDataMeaning := by
  refine fun s => ⟨exec_selectData_of_asserted, fun h => ⟨?_, ?_⟩⟩
  · rw [exec_selectData_of_released (s := s.answering _) h, drive_finish_ok]
    rfl
  · rw [exec_selectData_of_released (s := s.answering _) h, drive_finish_pinFault]

/-- Settles O11: the two words by evaluating the encoder; then the one drive of each line under each of its two
answers, with no check before it. -/
theorem deselectMeanings : Obligations.DeselectMeanings := by
  refine fun s => ⟨rfl, rfl, ?_, ?_, ?_, ?_⟩
  · rw [exec_deselectCommand_eq, drive_finish_ok]
    rfl
  · rw [exec_deselectCommand_eq, drive_finish_pinFault]
  · rw [exec_deselectData_eq, drive_finish_ok]
    rfl
  · rw [exec_deselectData_eq, drive_finish_pinFault]

/-! ## Composite commands pair their selects (R136, R261) -/

theorem IdleAfter.idle {α : Type} {r : Result α} {evs : List Event} (h : IdleAfter r evs)
    (hn : noPinFault evs = true) : r.state.Idle := by
  cases r with
  | ok a t => exact h
  | raised f d t => exact h.1 hn

/-- A procedure that pairs its selects leaves both lines released when no drive of its own failed, and so does the
command that answers with it. -/
theorem Clean.finish_idle {s : State} {r : Result Response} (h : Clean s r) :
    ∃ evs, r.finish.events = s.events ++ evs ∧ (noPinFault evs = true → r.finish.Idle) := by
  obtain ⟨evs, hm, _, _, _, hidle⟩ := h
  obtain ⟨resp, hr⟩ := finish_eq r
  rw [hr]
  exact ⟨evs, hm.events, hidle.idle⟩

/-- Settles O49: a refused command stays in `Idle` without an event, and an admitted one ends as its procedure does. -/
theorem compositePairsItsSelects : Obligations.CompositePairsItsSelects := by
  intro i s t hc hi he
  rcases exec_composite s hc with ⟨st, _, hrefuse⟩ | ⟨_, vol, r, hrun, hclean, _⟩
  · obtain rfl := Host.Outcome.next.inj (hrefuse.symm.trans he)
    exact ⟨[], (List.append_nil _).symm, fun _ => hi⟩
  · obtain rfl := Host.Outcome.next.inj (hrun.symm.trans he)
    exact hclean.finish_idle

/-! ## No byte while a line is held by hand (R137) -/

/-- The bus engine's frames are composite instructions, none of them `BEGIN`. -/
theorem composite_of_decode_frame {c : Config} {f : Frame} {i : Instr} (h : decode c (.frame f) = .ok i) :
    i.composite = true := by
  cases f with
  | bytes4 w =>
    simp only [decode, decodeFrame, decodeFrame32] at h
    split at h
    · cases h
    · split_ifs at h <;> cases h <;> rfl
  | bytes2 w => cases h; rfl
  | chunk bytes =>
    simp only [decode, decodeFrame] at h
    split_ifs at h
    cases h
    rfl

/-- `BEGIN` has one packet: its command word. -/
theorem requestOf_of_decode_begin {c : Config} {p : Packet} (h : decode c p = .ok .begin) :
    requestOf p = .issue 0x700000000000 := by
  cases p with
  | command w => exact congrArg requestOf (legalWordIsItsEncoding c w .begin h).2.symm
  | frame f => exact absurd (composite_of_decode_frame h) (by decide)

/-- With a line held by hand, an instruction other than `BEGIN` makes no exchange. -/
theorem exec_noXfer_of_not_idle {i : Instr} {s t : State} (hb : i ≠ .begin) (hn : ¬ s.Idle) (he : exec i s = .next t) :
    ∃ evs, t.events = s.events ++ evs ∧ noXfer evs = true := by
  obtain ⟨u, resp, heff⟩ := exec_effect s hb
  obtain rfl := Host.Outcome.next.inj (heff.answer.symm.trans he)
  obtain ⟨_, _, evs, hm, _, _, _, _, hx⟩ := heff.moves
  exact ⟨evs, hm.events, hx hn⟩

/-- Settles O55: a step without an instruction adds no event, and no instruction but `BEGIN`, whose only packet is its
word, makes an exchange from a held line. -/
theorem noBytesWhileHeldByHand : Obligations.NoBytesWhileHeldByHand := by
  intro s t hn hreq hs
  rcases step_cases hs with ⟨_, rfl⟩ | ⟨_, _, _, _, rfl⟩ | ⟨p, rest, hp, hrun⟩
  · exact ⟨[], (List.append_nil _).symm, rfl⟩
  · exact ⟨[], (List.append_nil _).symm, rfl⟩
  · rcases runPacket_cases hrun with ⟨i, hd, he⟩ | ⟨_, _, rfl⟩
    · refine exec_noXfer_of_not_idle (s := s.take) ?_ hn he
      rintro rfl
      exact hreq rest (by rw [hp, requestOf_of_decode_begin hd])
    · exact ⟨[], (List.append_nil _).symm, rfl⟩

end Sys2Proof.Machine

/-! SUPPORT. The ready-wait as a command (41_data_ready.md): `AWAIT_READY` under a given line (R140, R141), and its bound
whatever the line answers (R143). -/

namespace Sys2Proof.Machine

theorem exec_awaitReady_eq (n : Half) (s : State) :
    exec (.awaitReady n) s = .next (awaitOrRaise n.toNat 0 id s).done.finish := by
  rw [exec, execAwaitReady, answered, countOf]

/-- Settles O12: the wait that succeeds on sample `k + 1`, and the one whose samples all read `NotReady`. -/
theorem awaitReadyMeaning : Obligations.AwaitReadyMeaning := by
  refine fun s n => ⟨fun k hk => ?_, ?_⟩
  · have hwait := awaitOrRaise_wait s [] hk 0 id
    rw [List.append_nil, answering_nil] at hwait
    rw [exec_awaitReady_eq, hwait, done_ok, finish_ok]
  · have htimeout := awaitOrRaise_timeout s [] n.toNat 0 id
    rw [List.append_nil, answering_nil] at htimeout
    rw [exec_awaitReady_eq, htimeout, done_raised, finish_raised, AbortReason.status, id]

/-- Settles O13: the wait ends on a `Ready` sample before the bound or after `n` samples that read `NotReady`. -/
theorem awaitReadyBound : Obligations.AwaitReadyBound := by
  intro s t n he
  rw [exec_awaitReady_eq] at he
  obtain rfl := Host.Outcome.next.inj he
  rcases awaitOrRaise_cases n.toNat 0 id s with ⟨k, u, hk, hwait, hends⟩ | ⟨u, htimeout, hends⟩
  · rw [hwait, done_ok, finish_ok]
    exact ⟨k, hk.le, .inl ⟨hk, hends.events, rfl⟩⟩
  · rw [htimeout, done_raised, finish_raised]
    exact ⟨n.toNat, le_rfl, .inr ⟨rfl, hends.events, rfl⟩⟩

end Sys2Proof.Machine

/-! SUPPORT. The Register Access Protocol (42_register_access.md): the words of the register commands that are no command
(R106), and the four commands under given answers (R151 to R154), with the stops of R155. -/

namespace Sys2Proof

/-! ## Words of no command (R106) -/

theorem regOfSelector_eq_none {sel : Byte} (h : 7 ≤ sel.toNat) : regOfSelector sel = none := by
  cases hr : regOfSelector sel with
  | none => rfl
  | some r => exact absurd (selectorOf_le_of_regOfSelector hr) (by omega)

/-- A `READ_REGISTER` or `WRITE_REGISTER` word with a selector that names no register. -/
theorem decodeCommand_badSelector {op sel : Byte} (hop : op = 0x30 ∨ op = 0x31) (h : 7 ≤ sel.toNat) (b c : Half) :
    decodeCommand (packWord op sel b c) = .error .badSelector := by
  obtain rfl | rfl := hop <;> simp [decodeCommand, regOfSelector_eq_none h]

/-- The decoder admits a `WRITE_REGISTER` word only if its `B` is a speed's bit (R100). -/
theorem speed_le_one_of_decode_writeRegister {sel : Byte} {b v : Half} {i : Instr}
    (h : decodeCommand (packWord 0x31 sel b v) = .ok i) : b.toNat ≤ 1 := by
  cases hr : regOfSelector sel with
  | none => simp [decodeCommand, hr] at h
  | some r =>
    simp only [decodeCommand, fieldOp_packWord, fieldA_packWord, hr] at h
    obtain ⟨-, -, hb, -⟩ := packWord_and_eq_iff.1 (matchRow_ok.1 h).1
    obtain ⟨sp, rfl⟩ := and_speedMask_eq_zero_iff.1 hb
    cases sp <;> decide

end Sys2Proof

namespace Sys2Proof.Machine

/-! ## Admission (R257): from `Idle` the command is its procedure, else it is refused -/

theorem exec_readRegister_of_idle {s : State} (h : s.Idle) (r : ChipReg) :
    exec (.readRegister r) s = .next (readRegister r s).answer.finish := by
  rw [exec, execReadRegister, whenIdle_of_idle h, answered]

theorem exec_readRegister_of_not_idle {s : State} (h : ¬ s.Idle) (r : ChipReg) :
    exec (.readRegister r) s = .next (refuse .illegalState s) := by
  rw [exec, execReadRegister, whenIdle_of_not_idle h, answered]

theorem exec_writeRegister_of_idle {s : State} (h : s.Idle) (sp : Speed) (r : ChipReg) (v : Half) :
    exec (.writeRegister sp r v) s = .next (writeRegister sp r v s).done.finish := by
  rw [exec, execWriteRegister, whenIdle_of_idle h, answered]

theorem exec_writeRegister_of_not_idle {s : State} (h : ¬ s.Idle) (sp : Speed) (r : ChipReg) (v : Half) :
    exec (.writeRegister sp r v) s = .next (refuse .illegalState s) := by
  rw [exec, execWriteRegister, whenIdle_of_not_idle h, answered]

theorem exec_scratchWrite_of_idle {s : State} (h : s.Idle) (a d : Half) :
    exec (.scratchWrite a d) s = .next (scratchWrite a d s).done.finish := by
  rw [exec, execScratchWrite, whenIdle_of_idle h, answered]

theorem exec_scratchWrite_of_not_idle {s : State} (h : ¬ s.Idle) (a d : Half) :
    exec (.scratchWrite a d) s = .next (refuse .illegalState s) := by
  rw [exec, execScratchWrite, whenIdle_of_not_idle h, answered]

theorem exec_scratchRead_of_idle {s : State} (h : s.Idle) (a : Half) :
    exec (.scratchRead a) s = .next (scratchRead a s).answer.finish := by
  rw [exec, execScratchRead, whenIdle_of_idle h, answered]

theorem exec_scratchRead_of_not_idle {s : State} (h : ¬ s.Idle) (a : Half) :
    exec (.scratchRead a) s = .next (refuse .illegalState s) := by
  rw [exec, execScratchRead, whenIdle_of_not_idle h, answered]

/-! ## One register transaction (R151, R152) -/

/-- Settles O14: a selector without a register is refused by the decoder; from `Idle` the command is the procedure, whose
completion and four stops are known. -/
theorem readRegisterMeaning : Obligations.ReadRegisterMeaning := by
  refine fun s r => ⟨rfl, fun sel hsel i hdec => ?_, fun hn => exec_readRegister_of_not_idle hn r, fun hidle => ?_⟩
  · exact nomatch (decodeCommand_badSelector (.inl rfl) hsel 0 0).symm.trans hdec
  · have hrun (evs : List Event) := exec_readRegister_of_idle (s := s.answering evs) hidle r
    exact ⟨fun b0 b1 hi lo k hk => (hrun _).trans (congrArg _ (readRegister_finish hidle rfl hk)),
      fun st hst => (hrun _).trans (congrArg _ (readRegister_finish_stop hidle hst))⟩

/-- Settles O15: a selector without a register and a `B` that is no speed's bit are refused by the decoder; from `Idle` the
command is the procedure, whose completion and four stops are known. -/
theorem writeRegisterMeaning : Obligations.WriteRegisterMeaning := by
  refine fun s sp r v => ⟨by cases sp <;> rfl, fun sel b hbad i hdec => ?_,
    fun hn => exec_writeRegister_of_not_idle hn sp r v, fun hidle => ?_⟩
  · rcases hbad with hsel | hb
    · exact nomatch (decodeCommand_badSelector (.inr rfl) hsel b v).symm.trans hdec
    · exact absurd (speed_le_one_of_decode_writeRegister hdec) (Nat.not_le.2 hb)
  · have hrun (evs : List Event) := exec_writeRegister_of_idle (s := s.answering evs) hidle sp r v
    exact ⟨fun t ht => (hrun _).trans (congrArg _ (writeRegister_finish hidle ht)),
      fun st hst => (hrun _).trans (congrArg _ (writeRegister_finish_stop hidle hst))⟩

/-! ## The pointer write of the scratch commands (R153, R154) -/

/-- The events of a completed pointer write, at `SPD`. -/
def pointerEvents (s : State) (a : Half) (t : Turn) : List Event :=
  registerEvents s.spd (writeFrame s.cfg .scratchAddr a) t.rx t.k

/-- The events of a pointer write that stops. -/
def pointerStopEvents (s : State) (a : Half) (st : RegisterStop) : List Event :=
  st.events s.spd (writeFrame s.cfg .scratchAddr a)

section
variable {s : State} {a d : Half} {t : Turn} {st : RegisterStop}

/-- The pointer written, the command goes on. -/
theorem pointer_andThen {α : Type} (h : s.Idle) (ht : t.Ok 4) (evs : List Event) (k : Unit → State → Result α) :
    (writeRegister s.spd .scratchAddr a (s.answering (pointerEvents s a t ++ evs))).andThen k =
      k () ((s.after (pointerEvents s a t)).answering evs) := by
  rw [pointerEvents, writeRegister_answering s evs h.1 ht.1 ht.2, andThen_ok]

/-- A stop of the pointer write ends the command, whatever was to follow (R260). -/
theorem pointer_stop_andThen {α : Type} (h : s.Idle) (hst : st.Ok) (k : Unit → State → Result α) :
    (writeRegister s.spd .scratchAddr a (s.answering (pointerStopEvents s a st))).andThen k =
      .raised st.reason 0 ((s.after (pointerStopEvents s a st)).setLatch .cmd st.csc) := by
  have hstop := writeRegister_stop s [] st h.1 hst (sp := s.spd) (r := .scratchAddr) (v := a)
  rw [List.append_nil, answering_nil] at hstop
  rw [pointerStopEvents, hstop, andThen_raised]

/-! ## `SCRATCH_WRITE` (R153) -/

theorem scratchWrite_of_pointer (h : s.Idle) (ht : t.Ok 4) (evs : List Event) :
    scratchWrite a d (s.answering (pointerEvents s a t ++ evs)) =
      writeRegister s.spd .scratchData d ((s.after (pointerEvents s a t)).answering evs) :=
  pointer_andThen h ht evs _

/-- A stop of the pointer write: the data register is not written. -/
theorem scratchWrite_finish_pointerStop (h : s.Idle) (hst : st.Ok) :
    (scratchWrite a d (s.answering (pointerStopEvents s a st))).done.finish =
      { s.after (pointerStopEvents s a st) with csc := st.csc, response := some ⟨st.status, 0⟩ } := by
  rw [scratchWrite, answering_spd, pointer_stop_andThen h hst, done_raised, finish_raised, reason_status]
  rfl

/-- The pointer written, the data write completes. -/
theorem scratchWrite_finish {t2 : Turn} (h : s.Idle) (ht : t.Ok 4) (h2 : t2.Ok 4) :
    (scratchWrite a d (s.answering (pointerEvents s a t ++
        registerEvents s.spd (writeFrame s.cfg .scratchData d) t2.rx t2.k))).done.finish =
      { s.after (pointerEvents s a t ++ registerEvents s.spd (writeFrame s.cfg .scratchData d) t2.rx t2.k) with
        response := some ⟨.ok, 0⟩ } := by
  rw [scratchWrite_of_pointer h ht, ← after_after]
  exact writeRegister_finish (s := s.after _) h h2

/-- The pointer written, the data write stops. -/
theorem scratchWrite_finish_dataStop (h : s.Idle) (ht : t.Ok 4) (hst : st.Ok) :
    (scratchWrite a d (s.answering (pointerEvents s a t ++
        st.events s.spd (writeFrame s.cfg .scratchData d)))).done.finish =
      { s.after (pointerEvents s a t ++ st.events s.spd (writeFrame s.cfg .scratchData d)) with
        csc := st.csc, response := some ⟨st.status, 0⟩ } := by
  rw [scratchWrite_of_pointer h ht, ← after_after]
  exact writeRegister_finish_stop (s := s.after _) h hst

/-! ## `SCRATCH_READ` (R154) -/

theorem scratchRead_of_pointer (h : s.Idle) (ht : t.Ok 4) (evs : List Event) :
    scratchRead a (s.answering (pointerEvents s a t ++ evs)) =
      readRegister .scratchData ((s.after (pointerEvents s a t)).answering evs) :=
  pointer_andThen h ht evs _

/-- A stop of the pointer write: the data register is not read. -/
theorem scratchRead_finish_pointerStop (h : s.Idle) (hst : st.Ok) :
    (scratchRead a (s.answering (pointerStopEvents s a st))).answer.finish =
      { s.after (pointerStopEvents s a st) with csc := st.csc, response := some ⟨st.status, 0⟩ } := by
  rw [scratchRead, answering_spd, pointer_stop_andThen h hst, answer_raised, finish_raised, reason_status]
  rfl

/-- The pointer written, the read completes. -/
theorem scratchRead_finish {rx : List Byte} {k : Nat} (h : s.Idle) (ht : t.Ok 4) (hr : rx.length = 4) (hk : k < 2000) :
    (scratchRead a (s.answering (pointerEvents s a t ++
        registerEvents s.spd (readFrame s.cfg .scratchData) rx k))).answer.finish =
      { s.after (pointerEvents s a t ++ registerEvents s.spd (readFrame s.cfg .scratchData) rx k) with
        response := some ⟨.ok, readValue rx⟩ } := by
  rw [scratchRead_of_pointer h ht, ← after_after]
  exact readRegister_finish (s := s.after _) h hr hk

/-- The pointer written, the read stops. -/
theorem scratchRead_finish_readStop (h : s.Idle) (ht : t.Ok 4) (hst : st.Ok) :
    (scratchRead a (s.answering (pointerEvents s a t ++
        st.events s.spd (readFrame s.cfg .scratchData)))).answer.finish =
      { s.after (pointerEvents s a t ++ st.events s.spd (readFrame s.cfg .scratchData)) with
        csc := st.csc, response := some ⟨st.status, 0⟩ } := by
  rw [scratchRead_of_pointer h ht, ← after_after]
  exact readRegister_finish_stop (s := s.after _) h hst

end

/-- Settles O16: the pointer write's stops end the command; once the pointer is written, the data write is a register write
from `Idle`, whose completion and four stops are known. -/
theorem scratchWriteMeaning : Obligations.ScratchWriteMeaning := by
  refine fun s a d => ⟨rfl, fun hn => exec_scratchWrite_of_not_idle hn a d, fun hidle => ?_⟩
  have hrun (evs : List Event) := exec_scratchWrite_of_idle (s := s.answering evs) hidle a d
  exact ⟨fun t1 t2 h1 h2 => (hrun _).trans (congrArg _ (scratchWrite_finish hidle h1 h2)),
    fun st hst => (hrun _).trans (congrArg _ (scratchWrite_finish_pointerStop hidle hst)),
    fun t1 st h1 hst => (hrun _).trans (congrArg _ (scratchWrite_finish_dataStop hidle h1 hst))⟩

/-- Settles O17: the pointer write's stops end the command; once the pointer is written, the rest is a register read from
`Idle`, whose completion and four stops are known. -/
theorem scratchReadMeaning : Obligations.ScratchReadMeaning := by
  refine fun s a => ⟨rfl, fun hn => exec_scratchRead_of_not_idle hn a, fun hidle => ?_⟩
  have hrun (evs : List Event) := exec_scratchRead_of_idle (s := s.answering evs) hidle a
  exact ⟨fun t1 b0 b1 hi lo k h1 hk => (hrun _).trans (congrArg _ (scratchRead_finish hidle h1 rfl hk)),
    fun st hst => (hrun _).trans (congrArg _ (scratchRead_finish_pointerStop hidle hst)),
    fun t1 st h1 hst => (hrun _).trans (congrArg _ (scratchRead_finish_readStop hidle h1 hst))⟩

end Sys2Proof.Machine

/-! SUPPORT. `SELF_TEST` (43_self_test.md): the command from `Idle` under given answers (R170 to R173, R175), how many
exchanges a sweep makes, and the bounds on its count whatever the environment answers (R172). -/

namespace Sys2Proof.Machine

/-! ## Admission (R257) -/

theorem exec_selfTest_of_idle {s : State} (h : s.Idle) (probe : Probe) :
    exec (.selfTest probe) s =
      .next ((selfTest probe s).andThen fun r s => .ok (selfTestResponse r.1 r.2) s).finish := by
  rw [exec, execSelfTest, whenIdle_of_idle h, answered]

theorem exec_selfTest_of_not_idle {s : State} (h : ¬ s.Idle) (probe : Probe) :
    exec (.selfTest probe) s = .next (refuse .illegalState s) := by
  rw [exec, execSelfTest, whenIdle_of_not_idle h, answered]

/-! ## Under given answers (R170 to R173, R175) -/

/-- A sweep passes exactly when it counted no bad step (R170). -/
theorem selfTestResponse_count (cnt : Nat) :
    selfTestResponse (cnt == 0) cnt = if cnt = 0 then ⟨.ok, 0⟩ else ⟨.selfTestFailed, BitVec.ofNat 16 cnt⟩ := by
  by_cases h : cnt = 0 <;> simp [selfTestResponse, okResponse, h]

/-- `OK` is answered for the count 0 alone, with data 0. -/
theorem eq_zero_of_selfTestResponse_ok {cnt : Nat} {d : Half} (h : selfTestResponse (cnt == 0) cnt = ⟨.ok, d⟩) :
    cnt = 0 ∧ d = 0 := by
  rw [selfTestResponse_count] at h
  split at h
  · next hc => exact ⟨hc, (congrArg Response.rdata h).symm⟩
  · exact nomatch congrArg Response.status h

/-- `SelfTestFailed` reports the count, which is not 0. -/
theorem toNat_of_selfTestResponse_failed {cnt : Nat} {d : Half} (hcnt : cnt < 2 ^ 16)
    (h : selfTestResponse (cnt == 0) cnt = ⟨.selfTestFailed, d⟩) : cnt ≠ 0 ∧ d.toNat = cnt := by
  rw [selfTestResponse_count] at h
  split at h
  · exact nomatch congrArg Response.status h
  · next hc =>
    obtain rfl : BitVec.ofNat 16 cnt = d := congrArg Response.rdata h
    exact ⟨hc, Nat.mod_eq_of_lt hcnt⟩

/-- From `Idle`, a self-test that returns answers with its pass and its count. -/
theorem exec_selfTest_run {s : State} {probe : Probe} {run : TestRun} (h : s.Idle) (hrun : run.Ok s.cfg probe) :
    exec (.selfTest probe) (s.answering (run.events s.cfg s.spd probe)) =
      .next { s.after (run.events s.cfg s.spd probe) with
        response := some (selfTestResponse (run.pass s.cfg probe) (run.count s.cfg probe)) } := by
  have hret := selfTest_run s [] run h.1 rfl hrun
  rw [List.append_nil, answering_nil] at hret
  rw [exec_selfTest_of_idle (s := s.answering _) h, hret, andThen_ok, finish_ok]

/-- From `Idle`, a self-test that stops in a step answers with that stop's fault. -/
theorem exec_selfTest_stop {s : State} {probe : Probe} {x : TestStop} (h : s.Idle) (hx : x.Ok s.cfg probe) :
    exec (.selfTest probe) (s.answering (x.events s.cfg s.spd probe)) =
      .next { s.after (x.events s.cfg s.spd probe) with
        csc := x.st.stop.csc, response := some ⟨x.st.stop.status, 0⟩ } := by
  have hstop := selfTest_stop s [] x h.1 rfl hx
  rw [List.append_nil, answering_nil] at hstop
  rw [exec_selfTest_of_idle (s := s.answering _) h, hstop, andThen_raised, finish_raised, reason_status]
  rfl

/-- Settles O18: the run of a ready line and a sweep, whose pass is a count of 0. -/
theorem selfTestSweepMeaning : Obligations.SelfTestSweepMeaning := by
  intro s probe a n hidle hn evs cnt
  rw [← selfTestResponse_count]
  exact exec_selfTest_run (run := .swept a n) hidle hn

/-- Settles O19: the run that the entry sample ends. -/
theorem selfTestNotReadyFailsFast : Obligations.SelfTestNotReadyFailsFast :=
  fun _ _ hidle => exec_selfTest_run (run := .notReady) hidle trivial

/-- Settles O20: the steps before the stop complete, and the stop's fault goes through the sweep. -/
theorem selfTestFaultPropagates : Obligations.SelfTestFaultPropagates :=
  fun _ _ _ hidle hx => exec_selfTest_stop hidle hx

/-! ## The exchanges of a sweep (R170, R172) -/

theorem payloads_append (kind : Kind) (a b : List Event) : payloads kind (a ++ b) = payloads kind a ++ payloads kind b :=
  List.filterMap_append

theorem payloads_timeoutEvents (kind : Kind) (n : Nat) : payloads kind (timeoutEvents n) = [] := by
  induction n with
  | zero => rfl
  | succ n ih => exact ih

theorem payloads_waitEvents (kind : Kind) (k : Nat) : payloads kind (waitEvents k) = [] := by
  rw [waitEvents, payloads_append, payloads_timeoutEvents]; rfl

/-- A register transaction exchanges its frame and nothing else. -/
theorem payloads_registerEvents (sp : Speed) (tx rx : List Byte) (k : Nat) :
    payloads .command (registerEvents sp tx rx k) = [tx] := by
  have htail : payloads .command (waitEvents k ++ [.pin .cmd .released .ok]) = [] := by
    rw [payloads_append, payloads_waitEvents]; rfl
  exact congrArg (tx :: ·) htail

/-- A sweep step exchanges the written frame and the two read frames. -/
theorem payloads_stepEvents_length (c : Config) (sp : Speed) (i : Nat) (a : StepTurns) :
    (payloads .command (stepEvents c sp i a)).length = 3 := by
  rw [stepEvents, payloads_append, payloads_append, payloads_registerEvents, payloads_registerEvents,
    payloads_registerEvents]
  rfl

theorem payloads_sweepEvents_length (c : Config) (sp : Speed) (probe : Probe) (a : Nat → StepTurns) (n : Nat) :
    (payloads .command (sweepEvents c sp probe a n)).length = 3 * n := by
  induction n with
  | zero => rfl
  | succ n ih =>
    rw [sweepEvents_succ, payloads_append, List.length_append, ih, payloads_stepEvents_length]
    omega

/-- The entry sample is no exchange. -/
theorem payloads_swept_length (c : Config) (sp : Speed) (probe : Probe) (a : Nat → StepTurns) (n : Nat) :
    (payloads .command (TestRun.events c sp probe (.swept a n))).length = 3 * n :=
  payloads_sweepEvents_length c sp probe a n

/-! ## The count whatever the environment answers (R172, R173) -/

theorem badCount_le (step : Nat) (a : Nat → StepTurns) (n : Nat) : badCount step a n ≤ n :=
  (List.length_filter_le _ _).trans_eq List.length_range

/-- Each step adds at most 1, and the count before the last step was below 20. -/
theorem SweepLength.badCount_le_limit {c : Config} {probe : Probe} {a : Nat → StepTurns} {n : Nat}
    (h : SweepLength c probe a n) : badCount (stepOf c probe) a n ≤ 20 := by
  obtain ⟨-, -, hbad, -⟩ := h
  cases n with
  | zero => exact (badCount_le _ a 0).trans (by omega)
  | succ m =>
    have hm := hbad m m.lt_succ_self
    rw [badCount_succ]
    split <;> omega

/-- A sweep short of the full one has counted 20. -/
theorem SweepLength.full_of_lt_limit {c : Config} {probe : Probe} {a : Nat → StepTurns} {n : Nat}
    (h : SweepLength c probe a n) (hlt : badCount (stepOf c probe) a n < 20) : n = fullSweep c probe := by
  obtain ⟨-, -, -, hend⟩ := h
  exact hend.resolve_right hlt.ne

theorem abortStatus_ne_ok (f : AbortReason) : f.status ≠ .ok := by cases f <;> decide

/-- How `SELF_TEST` ends, whatever the environment answers: refused, returned from a run, or stopped in a step. -/
theorem exec_selfTest_cases {s t : State} {probe : Probe} (he : exec (.selfTest probe) s = .next t) :
    (t.events = s.events ∧ t.response = some ⟨.illegalState, 0⟩) ∨
    (∃ run : TestRun, run.Ok s.cfg probe ∧ t.events = s.events ++ run.events s.cfg s.spd probe ∧
      t.response = some (selfTestResponse (run.pass s.cfg probe) (run.count s.cfg probe))) ∨
    (∃ (x : TestStop) (f : AbortReason), t.events = s.events ++ x.events s.cfg s.spd probe ∧
      t.response = some ⟨f.status, 0⟩) := by
  by_cases hidle : s.Idle
  · rw [exec_selfTest_of_idle hidle] at he
    obtain rfl := Host.Outcome.next.inj he
    rcases selfTest_cases (probe := probe) hidle.1 with ⟨run, u, hok, hrun, hends⟩ | ⟨x, u, -, hstop, hends⟩
    · rw [hrun, andThen_ok, finish_ok]
      exact .inr (.inl ⟨run, hok, hends.events, rfl⟩)
    · rw [hstop, andThen_raised, finish_raised]
      exact .inr (.inr ⟨x, x.st.stop.reason, hends.events, rfl⟩)
  · rw [exec_selfTest_of_not_idle hidle] at he
    obtain rfl := Host.Outcome.next.inj he
    exact .inl ⟨rfl, rfl⟩

/-- Settles O21: a refused self-test and one that stops answer neither status; one that returns has sampled a line not ready,
or swept to the limit or to the 20th bad step, three exchanges a step. -/
theorem selfTestCountBound : Obligations.SelfTestCountBound := by
  intro s t probe d he
  rcases exec_selfTest_cases he with ⟨hevs, hresp⟩ | ⟨run, hok, hevs, hresp⟩ | ⟨x, f, hevs, hresp⟩
  · exact ⟨[], hevs.trans (List.append_nil _).symm, hresp ▸ nofun, hresp ▸ nofun⟩
  · refine ⟨_, hevs, ?_⟩
    rw [hresp]
    cases run with
    | notReady =>
      refine ⟨nofun, fun h => ?_⟩
      obtain rfl : 0 = d := congrArg Response.rdata (Option.some.inj h)
      exact ⟨by decide, Nat.zero_le _, fun _ => rfl, fun hne => absurd rfl hne, nofun⟩
    | swept a n =>
      have ⟨_, hn, _, _⟩ : SweepLength s.cfg probe a n := hok
      have hle := SweepLength.badCount_le_limit hok
      have hfull := SweepLength.full_of_lt_limit hok
      have hsteps := badCount_le (stepOf s.cfg probe) a n
      rw [payloads_swept_length, TestRun.pass, TestRun.count]
      refine ⟨fun h => ?_, fun h => ?_⟩
      · obtain ⟨hclean, hd⟩ := eq_zero_of_selfTestResponse_ok (Option.some.inj h)
        exact ⟨hd, by rw [hfull (by omega)]⟩
      · obtain ⟨hdirty, hd⟩ := toNat_of_selfTestResponse_failed (by omega) (Option.some.inj h)
        exact ⟨by omega, by omega, fun h0 => absurd (hd.symm.trans (congrArg BitVec.toNat h0)) hdirty,
          fun _ hlt => by rw [hfull (by omega)], fun h20 => by omega⟩
  · obtain ⟨-, -, hfailed, -⟩ := abortStatus_not_refusal_nor_advisory f
    rw [hresp]
    exact ⟨_, hevs, fun h => absurd (congrArg Response.status (Option.some.inj h)) (abortStatus_ne_ok f),
      fun h => absurd (congrArg Response.status (Option.some.inj h)) hfailed⟩

end Sys2Proof.Machine

/-! SUPPORT. The Streaming Writer (44_streaming.md): `WRITE_STREAM`, `FLUSH_WITH_FILLERS` and `STOP` under given answers
(R180, R182, R183), and the chunk law whatever the environment answers (R181). -/

namespace Sys2Proof.Machine

/-! ## `WRITE_STREAM` under given answers (R180) -/

theorem exec_writeStream_of_zero_chunk (s : State) (len : Half) :
    exec (.writeStream len 0) s = .next (refuse .illegalCommand s) := rfl

theorem exec_writeStream_of_nonzero_chunk {chunk : Half} (h : chunk ≠ 0) (s : State) (len : Half) :
    exec (.writeStream len chunk) s =
      .next (whenIdle (fun s => (writeStream len.toNat chunk.toNat s).done) s) := by
  rw [exec, execWriteStream, if_pos (show chunkSizeOk chunk = true from bne_iff_ne.2 h), answered, countOf, countOf]

theorem exec_writeStream_of_idle {s : State} {chunk : Half} (hc : chunk ≠ 0) (h : s.Idle) (len : Half) :
    exec (.writeStream len chunk) s = .next (writeStream len.toNat chunk.toNat s).done.finish := by
  rw [exec_writeStream_of_nonzero_chunk hc, whenIdle_of_idle h]

theorem exec_writeStream_of_not_idle {s : State} {chunk : Half} (hc : chunk ≠ 0) (h : ¬ s.Idle) (len : Half) :
    exec (.writeStream len chunk) s = .next (refuse .illegalState s) := by
  rw [exec_writeStream_of_nonzero_chunk hc, whenIdle_of_not_idle h]

section
variable {s : State} {len chunk : Nat}

/-- A stream from `Idle`: the answer when every chunk is sent. -/
theorem writeStream_finish {t : Nat → Turn} (hc : 0 < chunk) (h : s.Idle)
    (ht : UnitsOk (chunkBytes s.pb len chunk) (chunkCount len chunk) t) :
    (writeStream len chunk (s.answering
        (burstEvents s.spd (chunkBytes s.pb len chunk) (chunkCount len chunk) t))).done.finish =
      { s.after (burstEvents s.spd (chunkBytes s.pb len chunk) (chunkCount len chunk) t) with
        response := some ⟨.ok, 0⟩ } := by
  have hrun := writeStream_answering s [] hc h.2 rfl ht
  rw [List.append_nil, answering_nil] at hrun
  rw [hrun, done_ok, finish_ok]

/-- A stream from `Idle`: the answer, with the bytes already sent, and the latch at each stop. -/
theorem writeStream_finish_stop {st : BurstStop} (hc : 0 < chunk) (h : s.Idle)
    (hst : st.Ok (chunkBytes s.pb len chunk) (chunkCount len chunk)) :
    (writeStream len chunk (s.answering
        (st.events s.spd (chunkBytes s.pb len chunk) (chunkCount len chunk)))).done.finish =
      { s.after (st.events s.spd (chunkBytes s.pb len chunk) (chunkCount len chunk)) with
        csd := st.csd, response := some ⟨st.status, BitVec.ofNat 16 (st.unitsSent * chunk)⟩ } := by
  have hstop := writeStream_stop s [] st hc h.2 rfl hst
  rw [List.append_nil, answering_nil] at hstop
  rw [hstop, done_raised, finish_raised, burstReason_status]
  rfl

end

theorem toNat_pos_of_ne_zero {n : Half} (h : n ≠ 0) : 0 < n.toNat :=
  Nat.pos_of_ne_zero fun h0 => h (BitVec.eq_of_toNat_eq h0)

/-- Settles O22: the two refusals; from `Idle` the command is the procedure, whose completion and stops are known. -/
theorem writeStreamMeaning : Obligations.WriteStreamMeaning := by
  refine fun s len chunk => ⟨?_, fun hc hn => exec_writeStream_of_not_idle hc hn len, fun hc hidle => ?_⟩
  · rintro rfl
    exact exec_writeStream_of_zero_chunk s len
  · have hpos := toNat_pos_of_ne_zero hc
    have hexec (evs : List Event) := exec_writeStream_of_idle (s := s.answering evs) hc hidle len
    exact ⟨fun t ht => (hexec _).trans (congrArg _ (writeStream_finish hpos hidle ht)),
      fun st hst => (hexec _).trans (congrArg _ (writeStream_finish_stop hpos hidle hst))⟩

/-! ## Procedures that completed, whatever the environment answered -/

theorem andThen_eq_ok {α β : Type} {r : Result α} {k : α → State → Result β} {b : β} {t : State} :
    r.andThen k = .ok b t ↔ ∃ a u, r = .ok a u ∧ k a u = .ok b t := by
  cases r <;> simp

theorem ends_of_drive_ok {l : Line} {v : Level} {s t : State} (h : drive l v s = .ok () t) :
    Ends (s.setLatch l v) t [.pin l v .ok] := by
  rcases drive_cases l v s with ⟨u, hok, hends⟩ | ⟨u, hraised, _⟩
  · obtain ⟨-, rfl⟩ := Result.ok.inj (hok.symm.trans h)
    exact hends
  · exact nomatch hraised.symm.trans h

theorem ends_of_sendUnit_ok {tx : List Byte} {d : Half} {s t : State} (hd : s.csd = .asserted)
    (h : sendUnit tx d s = .ok () t) : ∃ rx k, Ends s t (unitEvents s.spd tx rx k) := by
  rcases sendUnit_cases tx d hd with ⟨rx, k, u, _, _, hok, hends⟩ | ⟨st, u, _, hraised, _⟩
  · obtain ⟨-, rfl⟩ := Result.ok.inj (hok.symm.trans h)
    exact ⟨rx, k, hends⟩
  · exact nomatch hraised.symm.trans h

/-! ## The chunk law (R181) -/

/-- The exchanges of these events are those of kind `D` with these payloads. -/
def SendsData (evs : List Event) (chunks : List (List Byte)) : Prop :=
  payloads .data evs = chunks ∧ payloads .command evs = []

theorem SendsData.append {a b : List Event} {p q : List (List Byte)} (ha : SendsData a p) (hb : SendsData b q) :
    SendsData (a ++ b) (p ++ q) := by
  obtain ⟨had, hac⟩ := ha
  obtain ⟨hbd, hbc⟩ := hb
  exact ⟨by rw [payloads_append, had, hbd], by rw [payloads_append, hac, hbc, List.append_nil]⟩

theorem sendsData_pin (l : Line) (v : Level) (a : PinAnswer) : SendsData [.pin l v a] [] := ⟨rfl, rfl⟩

theorem sendsData_waitEvents (k : Nat) : SendsData (waitEvents k) [] :=
  ⟨payloads_waitEvents .data k, payloads_waitEvents .command k⟩

theorem sendsData_unitEvents (sp : Speed) (tx rx : List Byte) (k : Nat) : SendsData (unitEvents sp tx rx k) [tx] :=
  (sendsData_waitEvents k).append ⟨rfl, rfl⟩

/-- The `n` chunks from chunk `j` to the last, when all are sent. -/
theorem streamLoop_sends {len chunk : Nat} (hc : 0 < chunk) {u : State} (n : Nat) :
    ∀ (j fuel : Nat) (s : State), s.csd = .asserted → j + n = chunkCount len chunk → n ≤ fuel →
      streamLoop len chunk fuel (min (j * chunk) len) s = .ok () u →
      ∃ evs, Ends s u evs ∧ SendsData evs ((List.range' j n).map (chunkBytes s.pb len chunk)) := by
  induction n with
  | zero =>
    intro j fuel s _ hj _ hrun
    have hend : len ≤ min (j * chunk) len := by
      have := len_le_chunkCount len hc
      rw [← hj] at this
      exact le_min this le_rfl
    rw [streamLoop_end s hend] at hrun
    obtain ⟨-, rfl⟩ := Result.ok.inj hrun
    exact ⟨[], .refl s, rfl, rfl⟩
  | succ n ih =>
    intro j fuel s hd hj hfuel hrun
    obtain ⟨fuel, rfl⟩ : ∃ f, fuel = f + 1 := ⟨fuel - 1, by omega⟩
    have hlt : j * chunk < len := mul_lt_of_lt_chunkCount hc (by omega)
    rw [Nat.min_eq_left hlt.le, streamLoop, if_pos hlt, memRead_chunk s hlt, cursor_succ hlt] at hrun
    obtain ⟨⟨⟩, s1, hunit, hrest⟩ := andThen_eq_ok.1 hrun
    obtain ⟨rx, k, hends⟩ := ends_of_sendUnit_ok hd hunit
    obtain ⟨evs, hends', hsends⟩ := ih (j + 1) fuel s1 (hends.csd.trans hd) (by omega) (by omega) hrest
    rw [hends.pb] at hsends
    rw [List.range'_succ, List.map_cons]
    exact ⟨_, hends.trans hends', (sendsData_unitEvents _ _ rx k).append hsends⟩

/-- A stream that completed has sent every chunk in order. -/
theorem writeStream_sends {len chunk : Nat} (hc : 0 < chunk) {s u : State} (h : writeStream len chunk s = .ok () u) :
    ∃ evs, u.events = s.events ++ evs ∧
      SendsData evs ((List.range (chunkCount len chunk)).map (chunkBytes s.pb len chunk)) := by
  obtain ⟨⟨⟩, s1, hselect, h⟩ := andThen_eq_ok.1 h
  obtain ⟨⟨⟩, s2, hloop, hrelease⟩ := andThen_eq_ok.1 h
  have hends1 := ends_of_drive_ok hselect
  have hends3 := ends_of_drive_ok hrelease
  obtain ⟨evs, hends2, hsends⟩ := streamLoop_sends hc (chunkCount len chunk) 0 len s1 hends1.csd (Nat.zero_add _)
    (chunkCount_le len hc) (by rwa [Nat.zero_mul, Nat.zero_min])
  rw [← List.range_eq_range', hends1.pb, setLatch_pb] at hsends
  refine ⟨_, ((hends1.moves_setLatch.trans hends2.moves).trans hends3.moves_setLatch).events, ?_⟩
  have hall := ((sendsData_pin .dat .asserted .ok).append hsends).append (sendsData_pin .dat .released .ok)
  rwa [List.nil_append, List.append_nil] at hall

/-- The first `m` chunks one after the other are the buffer up to the cursor after them. -/
theorem flatten_chunkBytes (pb : Memory) (len chunk m : Nat) :
    ((List.range m).map (chunkBytes pb len chunk)).flatten = (List.range (min (m * chunk) len)).map pb.read := by
  induction m with
  | zero => rw [Nat.zero_mul, Nat.zero_min]; rfl
  | succ m ih =>
    rw [List.range_succ, List.map_append, List.flatten_append, ih, List.map_singleton, List.flatten_singleton, chunkBytes]
    have hstep : (m + 1) * chunk = m * chunk + chunk := Nat.succ_mul m chunk
    rcases Nat.le_total (m * chunk) len with hle | hge
    · rw [Nat.min_eq_left hle]
      conv_rhs => rw [show min ((m + 1) * chunk) len = m * chunk + (min ((m + 1) * chunk) len - m * chunk) by omega,
        List.range_add, List.map_append, List.map_map]
      rfl
    · rw [show min ((m + 1) * chunk) len - m * chunk = 0 by omega, show min ((m + 1) * chunk) len = len by omega,
        Nat.min_eq_right hge, List.range_zero, List.map_nil, List.append_nil]

/-- All chunks one after the other are the stream. -/
theorem flatten_allChunks (pb : Memory) (len : Nat) {chunk : Nat} (hc : 0 < chunk) :
    ((List.range (chunkCount len chunk)).map (chunkBytes pb len chunk)).flatten = (List.range len).map pb.read := by
  rw [flatten_chunkBytes, Nat.min_eq_right (len_le_chunkCount len hc)]

/-- A `WRITE_STREAM` that answers `OK` was admitted, and its procedure completed. -/
theorem writeStream_of_answered_ok {s t : State} {len chunk d : Half} (he : exec (.writeStream len chunk) s = .next t)
    (hr : t.response = some ⟨.ok, d⟩) :
    0 < chunk.toNat ∧ ∃ u, writeStream len.toNat chunk.toNat s = .ok () u ∧ t.events = u.events := by
  have hstatus : t.response.map Response.status = some .ok := by rw [hr]; rfl
  by_cases hc : chunk = 0
  · subst hc
    obtain rfl := Host.Outcome.next.inj he
    exact nomatch hstatus
  by_cases hi : s.Idle
  · rw [exec_writeStream_of_idle hc hi] at he
    obtain rfl := Host.Outcome.next.inj he
    cases hw : writeStream len.toNat chunk.toNat s with
    | ok a u => exact ⟨toNat_pos_of_ne_zero hc, u, rfl, rfl⟩
    | raised f i u =>
      rw [hw] at hstatus
      exact absurd (Option.some.inj hstatus) (abortStatus_ne_ok f)
  · rw [exec_writeStream_of_not_idle hc hi] at he
    obtain rfl := Host.Outcome.next.inj he
    exact nomatch hstatus

/-- Settles O23: the procedure completed, so it sent every chunk in order; that each follows a ready sample holds of every
composite command. -/
theorem streamChunkLaw : Obligations.StreamChunkLaw := by
  intro s t len chunk he hr
  obtain ⟨hpos, u, hw, hevents⟩ := writeStream_of_answered_ok he hr
  obtain ⟨evs, hu, hdata, hcommand⟩ := writeStream_sends hpos hw
  obtain ⟨evs', ht, hready⟩ := dataOnlyAfterReady (.writeStream len chunk) s t rfl he
  obtain rfl : evs = evs' := List.append_cancel_left ((hu.symm.trans hevents.symm).trans ht)
  exact ⟨evs, ht, hdata, by rw [hdata, flatten_allChunks s.pb len.toNat hpos], hcommand, hready⟩

/-! ## `FLUSH_WITH_FILLERS` under given answers (R182) -/

theorem exec_flushWithFillers_of_idle {s : State} {v : Half} (h : s.Idle) (hf : s.fill = some v) (len : Half) :
    exec (.flushWithFillers len) s = .next (flushWithFillers v len.toNat s).done.finish := by
  rw [exec, execFlushWithFillers, whenIdleFilled_some hf, whenIdle_of_idle h, answered, countOf]

theorem exec_flushWithFillers_of_not_idle {s : State} (h : ¬ s.Idle) (len : Half) :
    exec (.flushWithFillers len) s = .next (refuse .illegalState s) := by
  rw [exec, execFlushWithFillers, whenIdleFilled_of_not_idle h, answered]

theorem exec_flushWithFillers_of_unlatched {s : State} (h : s.fill = none) (len : Half) :
    exec (.flushWithFillers len) s = .next (refuse .illegalState s) := by
  rw [exec, execFlushWithFillers, whenIdleFilled_none h, answered]

/-- A flush from `Idle`: the answer when every unit is sent. -/
theorem flushWithFillers_finish {s : State} {v : Half} {n : Nat} {t : Nat → Turn} (h : s.Idle)
    (ht : UnitsOk (fillerPayload v) n t) :
    (flushWithFillers v n (s.answering (burstEvents s.spd (fillerPayload v) n t))).done.finish =
      { s.after (burstEvents s.spd (fillerPayload v) n t) with response := some ⟨.ok, 0⟩ } := by
  have hrun := flushWithFillers_answering s [] h.2 rfl ht
  rw [List.append_nil, answering_nil] at hrun
  rw [hrun, done_ok, finish_ok]

/-- A flush from `Idle`: the answer and the latch at each stop. -/
theorem flushWithFillers_finish_stop {s : State} {v : Half} {n : Nat} {st : BurstStop} (h : s.Idle)
    (hst : st.Ok (fillerPayload v) n) :
    (flushWithFillers v n (s.answering (st.events s.spd (fillerPayload v) n))).done.finish =
      { s.after (st.events s.spd (fillerPayload v) n) with csd := st.csd, response := some ⟨st.status, 0⟩ } := by
  have hstop := flushWithFillers_stop s [] st h.2 rfl hst
  rw [List.append_nil, answering_nil] at hstop
  rw [hstop, done_raised, finish_raised, burstReason_status]
  rfl

/-- Settles O24: the two refusals; from `Idle` with `FILL` latched the command is the procedure, whose units are the two
bytes of `FILL`. -/
theorem flushMeaning : Obligations.FlushMeaning := by
  refine fun s len => ⟨fun hf => exec_flushWithFillers_of_unlatched hf len,
    fun hn => exec_flushWithFillers_of_not_idle hn len, fun v hidle hf => ?_⟩
  have hexec (evs : List Event) := exec_flushWithFillers_of_idle (s := s.answering evs) hidle hf len
  exact ⟨fun t ht => (hexec _).trans (congrArg _ (flushWithFillers_finish (v := v) hidle ht)),
    fun st hst => (hexec _).trans (congrArg _ (flushWithFillers_finish_stop (v := v) hidle hst))⟩

/-! ## The parts of `STOP` under given answers (R183) -/

section
variable {s : State} {v : Half} {r : StopRun} {n left : Nat} {t : Nat → Turn}

theorem exec_stop_of_idle (h : s.Idle) (hf : s.fill = some v) :
    exec .stop s =
      .next ((stopSequence v s).andThen fun forced s => .ok (okResponse (forcedFlag forced)) s).finish := by
  rw [exec, execStop, whenIdleFilled_some hf, whenIdle_of_idle h, answered]

/-- A `STOP` that completes answers whether it was forced. -/
theorem exec_stop_of_ok {forced : Bool} {evs : List Event} (h : s.Idle) (hf : s.fill = some v)
    (hrun : stopSequence v (s.answering evs) = .ok forced (s.after evs)) :
    exec .stop (s.answering evs) = .next { s.after evs with response := some ⟨.ok, forcedFlag forced⟩ } := by
  rw [exec_stop_of_idle (s := s.answering evs) h hf, hrun, andThen_ok, finish_ok, okResponse]

/-- A `STOP` whose procedure raises a fault answers with it. -/
theorem exec_stop_of_raised {f : AbortReason} {l : Line} {level : Level} {evs : List Event} (h : s.Idle)
    (hf : s.fill = some v)
    (hrun : stopSequence v (s.answering evs) = .raised f 0 ((s.after evs).setLatch l level)) :
    exec .stop (s.answering evs) =
      .next { (s.after evs).setLatch l level with response := some ⟨f.status, 0⟩ } := by
  rw [exec_stop_of_idle (s := s.answering evs) h hf, hrun, andThen_raised, finish_raised]

/-- The large flush sent, the cancel write and the polling loop follow. -/
theorem stopSequence_of_largeFlush (h : s.Idle) (ht : UnitsOk (fillerPayload v) s.cfg.flushLarge.toNat t)
    (evs : List Event) :
    stopSequence v (s.answering (burstEvents s.spd (fillerPayload v) s.cfg.flushLarge.toNat t ++ evs)) =
      (writeRegister s.spd .mode s.cfg.modeCancelValue
        ((s.after (burstEvents s.spd (fillerPayload v) s.cfg.flushLarge.toNat t)).answering evs)).andThen
        fun _ s => stopLoop v Config.stopRetryBound s := by
  rw [stopSequence, answering_cfg, countOf, flushWithFillers_answering s evs h.2 rfl ht, andThen_ok]
  rfl

/-- The small flush of an iteration sent, the read of `MODE` decides whether the loop goes on. -/
theorem stopLoop_of_smallFlush (h : s.Idle) (ht : UnitsOk (fillerPayload v) s.cfg.flushSmall.toNat t)
    (evs : List Event) :
    stopLoop v (left + 1) (s.answering (burstEvents s.spd (fillerPayload v) s.cfg.flushSmall.toNat t ++ evs)) =
      (readRegister .mode
        ((s.after (burstEvents s.spd (fillerPayload v) s.cfg.flushSmall.toNat t)).answering evs)).andThen
        fun m s => if cancelSet m then stopLoop v left s else .ok false s := by
  rw [stopLoop, answering_cfg, countOf, flushWithFillers_answering s evs h.2 rfl ht, andThen_ok]

theorem stopEvents_succ (c : Config) (sp : Speed) :
    r.events c sp v (n + 1) = r.events c sp v n ++ r.iteration c sp v n := by
  rw [StopRun.events, StopRun.events, eventsUpTo_succ, ← List.append_assoc]
  rfl

/-- After `n` iterations that all read the cancel bit set, the loop goes on with the rest of its 200. -/
theorem stopSequence_of_held (h : s.Idle) (hn : n + left = 200) (hok : r.Ok s.cfg n)
    (hheld : ∀ i < n, r.held i = true) (evs : List Event) :
    stopSequence v (s.answering (r.events s.cfg s.spd v n ++ evs)) =
      stopLoop v left ((s.after (r.events s.cfg s.spd v n)).answering evs) := by
  obtain ⟨hlarge, hwrite, hiter⟩ := hok
  have hloop := stopLoop_answering (sp := s.spd) (fill := v) evs r n (s.after (r.headEvents s.cfg s.spd v)) 0 left
    h.1 h.2 rfl (fun i hi => by rw [Nat.zero_add]; exact ⟨(hiter i hi).1, (hiter i hi).2, hheld i hi⟩)
  simp only [Nat.zero_add, hn, after_cfg, after_after] at hloop
  rw [StopRun.events, List.append_assoc, stopHead_answering s _ r h.1 h.2 rfl hlarge hwrite]
  exact hloop

/-- An iteration that reads the cancel bit clear ends the loop. -/
theorem stopLoop_of_cleared {i : Nat} (h : s.Idle) (ht : UnitsOk (fillerPayload v) s.cfg.flushSmall.toNat (r.small i))
    (hread : (r.read i).Ok 4) (hclear : r.held i = false) :
    stopLoop v (left + 1) (s.answering (r.iteration s.cfg s.spd v i)) =
      .ok false (s.after (r.iteration s.cfg s.spd v i)) := by
  have hmode := readRegister_answering (r := .mode)
    (s.after (burstEvents s.spd (fillerPayload v) s.cfg.flushSmall.toNat (r.small i))) [] h.1 rfl hread.1 hread.2
  simp only [List.append_nil, answering_nil, after_after, after_cfg, after_spd] at hmode
  have hcancel : ¬ cancelSet (readValue (r.read i).rx) = true := Bool.eq_false_iff.1 hclear
  rw [StopRun.iteration, stopLoop_of_smallFlush h ht, hmode, andThen_ok, if_neg hcancel]

end

/-- Settles O25: the iterations that read the bit set lead to the loop's next iteration, which reads it clear, or to its
end. -/
theorem stopCleanAndForced : Obligations.StopCleanAndForced := by
  refine fun s v r hidle hf => ⟨fun n hn hok hheld hclear => ?_, fun hok hheld => ?_⟩
  · obtain ⟨hlarge, hwrite, hiter⟩ := hok
    obtain ⟨hsmall, hread⟩ := hiter n n.lt_succ_self
    refine exec_stop_of_ok (forced := false) hidle hf ?_
    rw [stopEvents_succ, stopSequence_of_held (left := 200 - n - 1 + 1) hidle (by omega)
      ⟨hlarge, hwrite, fun i hi => hiter i (hi.trans n.lt_succ_self)⟩ hheld, ← after_after]
    exact stopLoop_of_cleared (s := s.after _) hidle hsmall hread hclear
  · refine exec_stop_of_ok (forced := true) hidle hf ?_
    have hend := stopSequence_of_held (v := v) (left := 0) hidle rfl hok hheld []
    rw [List.append_nil, answering_nil] at hend
    exact hend

/-! ## The stops of `STOP` (R183, R260) -/

section
variable {s : State} {v : Half} {n left : Nat} {t : Nat → Turn}

theorem stopSequence_stop_largeFlush {b : BurstStop} (h : s.Idle)
    (hb : b.Ok (fillerPayload v) s.cfg.flushLarge.toNat) :
    stopSequence v (s.answering (b.events s.spd (fillerPayload v) s.cfg.flushLarge.toNat)) =
      .raised b.reason 0 ((s.after (b.events s.spd (fillerPayload v) s.cfg.flushLarge.toNat)).setLatch .dat b.csd) := by
  have hstop := flushWithFillers_stop s [] b h.2 rfl hb
  rw [List.append_nil, answering_nil] at hstop
  rw [stopSequence, answering_cfg, countOf, hstop, andThen_raised]

theorem stopSequence_stop_cancelWrite {st : RegisterStop} (h : s.Idle)
    (ht : UnitsOk (fillerPayload v) s.cfg.flushLarge.toNat t) (hst : st.Ok) :
    stopSequence v (s.answering (burstEvents s.spd (fillerPayload v) s.cfg.flushLarge.toNat t ++
        st.events s.spd (writeFrame s.cfg .mode s.cfg.modeCancelValue))) =
      .raised st.reason 0 ((s.after (burstEvents s.spd (fillerPayload v) s.cfg.flushLarge.toNat t ++
        st.events s.spd (writeFrame s.cfg .mode s.cfg.modeCancelValue))).setLatch .cmd st.csc) := by
  have hstop := writeRegister_stop (sp := s.spd) (r := .mode) (v := s.cfg.modeCancelValue)
    (s.after (burstEvents s.spd (fillerPayload v) s.cfg.flushLarge.toNat t)) [] st h.1 hst
  simp only [List.append_nil, answering_nil, after_after, after_cfg] at hstop
  rw [stopSequence_of_largeFlush h ht, hstop, andThen_raised]

theorem stopLoop_stop_smallFlush {b : BurstStop} (h : s.Idle)
    (hb : b.Ok (fillerPayload v) s.cfg.flushSmall.toNat) :
    stopLoop v (left + 1) (s.answering (b.events s.spd (fillerPayload v) s.cfg.flushSmall.toNat)) =
      .raised b.reason 0 ((s.after (b.events s.spd (fillerPayload v) s.cfg.flushSmall.toNat)).setLatch .dat b.csd) := by
  have hstop := flushWithFillers_stop s [] b h.2 rfl hb
  rw [List.append_nil, answering_nil] at hstop
  rw [stopLoop, answering_cfg, countOf, hstop, andThen_raised]

theorem stopLoop_stop_modeRead {st : RegisterStop} (h : s.Idle)
    (ht : UnitsOk (fillerPayload v) s.cfg.flushSmall.toNat t) (hst : st.Ok) :
    stopLoop v (left + 1) (s.answering (burstEvents s.spd (fillerPayload v) s.cfg.flushSmall.toNat t ++
        st.events s.spd (readFrame s.cfg .mode))) =
      .raised st.reason 0 ((s.after (burstEvents s.spd (fillerPayload v) s.cfg.flushSmall.toNat t ++
        st.events s.spd (readFrame s.cfg .mode))).setLatch .cmd st.csc) := by
  have hstop := readRegister_stop (r := .mode)
    (s.after (burstEvents s.spd (fillerPayload v) s.cfg.flushSmall.toNat t)) [] st h.1 rfl hst
  simp only [List.append_nil, answering_nil, after_after, after_cfg, after_spd] at hstop
  rw [stopLoop_of_smallFlush h ht, hstop, andThen_raised]

/-- A stop of the loop's next iteration, after `n` that all read the cancel bit set, is a stop of `STOP`. -/
theorem stopSequence_stop_of_held {r : StopRun} {f : AbortReason} {l : Line} {level : Level} {evs : List Event}
    (h : s.Idle) (hn : n < 200) (hok : r.Ok s.cfg n) (hheld : ∀ i < n, r.held i = true)
    (hstop : stopLoop v (200 - n - 1 + 1) ((s.after (r.events s.cfg s.spd v n)).answering evs) =
      .raised f 0 (((s.after (r.events s.cfg s.spd v n)).after evs).setLatch l level)) :
    stopSequence v (s.answering (r.events s.cfg s.spd v n ++ evs)) =
      .raised f 0 ((s.after (r.events s.cfg s.spd v n ++ evs)).setLatch l level) := by
  rw [stopSequence_of_held (left := 200 - n - 1 + 1) h (by omega) hok hheld, hstop, after_after]

end

/-- Settles O26: a stop of the large flush or of the cancel write, or of the small flush or the read of the iteration that
the iterations before it lead to. -/
theorem stopFaultsAbort : Obligations.StopFaultsAbort := by
  intro s v r n hidle hf hn hok hheld
  have ⟨hlarge, _, _⟩ := hok
  refine ⟨fun b hb => ?_, fun st hst => ?_, fun b hb => ?_, fun t st ht hst => ?_⟩
  · rw [← burstReason_status]
    exact exec_stop_of_raised hidle hf (stopSequence_stop_largeFlush hidle hb)
  · rw [← reason_status]
    exact exec_stop_of_raised hidle hf (stopSequence_stop_cancelWrite hidle hlarge hst)
  · rw [← burstReason_status]
    have hstop := stopSequence_stop_of_held hidle hn hok hheld (stopLoop_stop_smallFlush (s := s.after _) hidle hb)
    exact exec_stop_of_raised hidle hf hstop
  · rw [← reason_status]
    have hstop := stopSequence_stop_of_held hidle hn hok hheld (stopLoop_stop_modeRead (s := s.after _) hidle ht hst)
    exact exec_stop_of_raised hidle hf hstop

end Sys2Proof.Machine

/-! SUPPORT. The volume model (45_volume_balance.md): the hardware byte, the channel inputs and the packing (R202 to R204,
R208), the three commands under given answers (R205 to R207), and what the assigning commands keep whatever the environment
answers (R205, R206, R228). -/

namespace Sys2Proof.Machine

/-! ## The hardware byte (R203) -/

theorem hwByte_le_quietest (x : Nat) : (hwByte x).toNat ≤ 0xFE := by
  rw [hwByte_toNat]
  omega

theorem hwByte_anti {x y : Nat} (h : x ≤ y) : hwByte y ≤ hwByte x := by
  rw [BitVec.le_def, hwByte_toNat, hwByte_toNat]
  omega

theorem hwByte_strictAnti {x y : Nat} (hy : y ≤ 100) (h : x < y) : (hwByte y).toNat < (hwByte x).toNat := by
  rw [hwByte_toNat, hwByte_toNat]
  omega

/-- Settles O28: the byte is the rounded quotient, which lies within half of the exact one; a step of `x` moves the exact
one by more than 2. -/
theorem hwByteIsNearest : Obligations.HwByteIsNearest := by
  intro x hx
  have hbyte := hwByte_toNat x
  exact ⟨by omega, by omega, hwByte_le_quietest x, fun y hy => hwByte_strictAnti hx hy⟩

/-! ## The channel inputs (R202) -/

theorem leftInput_cast (v : Nat) (b : Int) : (leftInput v b : Int) = if b > 0 then max 0 (v - b) else (v : Int) := by
  unfold leftInput
  split
  · exact Int.toNat_of_nonneg (le_max_left _ _)
  · rfl

theorem rightInput_cast (v : Nat) (b : Int) :
    (rightInput v b : Int) = if b < 0 then min 100 (v + |b|) else (v : Int) := by
  rw [rightInput_eq]
  split
  · push_cast
    rfl
  · rfl

theorem leftInput_of_nonpos {b : Int} (h : b ≤ 0) (v : Nat) : leftInput v b = v := if_neg (Int.not_lt.2 h)

theorem rightInput_of_nonneg {b : Int} (h : 0 ≤ b) (v : Nat) : rightInput v b = v := if_neg (Int.not_lt.2 h)

theorem leftInput_le (v : Nat) (b : Int) : leftInput v b ≤ v := by
  unfold leftInput
  split <;> omega

theorem rightInput_le {v : Nat} (hv : v ≤ 100) (b : Int) : rightInput v b ≤ 100 := by
  rw [rightInput_eq]
  split <;> omega

theorem le_rightInput {v : Nat} (hv : v ≤ 100) (b : Int) : v ≤ rightInput v b := by
  rw [rightInput_eq]
  split <;> omega

/-! ## The packed value (R204, R208) -/

/-- Settles O29: the two inputs as integers, and their ranges. -/
theorem volumeModelPacking : Obligations.VolumeModelPacking :=
  fun v b hv _ _ => ⟨leftInput v b, rightInput v b, (leftInput_le v b).trans hv, rightInput_le hv b, rfl,
    leftInput_cast v b, rightInput_cast v b⟩

theorem volumeModel_left (v : Nat) (b : Int) : (volumeModel v b).extractLsb' 8 8 = hwByte (leftInput v b) :=
  BitVec.extractLsb'_append_eq_left

theorem volumeModel_right (v : Nat) (b : Int) : (volumeModel v b).extractLsb' 0 8 = hwByte (rightInput v b) :=
  BitVec.extractLsb'_append_eq_right

/-- Settles O30: a balance only lowers the left input and only raises the right one, and the byte falls as its input
rises. -/
theorem volumeModelProperties : Obligations.VolumeModelProperties := by
  refine ⟨fun v b hv _ _ => ?_, by decide, by decide, by decide, by decide⟩
  have hinputs : leftInput v b ≤ rightInput v b := (leftInput_le v b).trans (le_rightInput hv b)
  rw [volumeModel_left, volumeModel_right]
  exact ⟨hwByte_le_quietest _, hwByte_le_quietest _, fun hb => by rw [rightInput_of_nonneg hb],
    fun hb => by rw [leftInput_of_nonpos hb], fun _ => hwByte_anti hinputs, fun _ => hwByte_anti hinputs⟩

/-! ## The commands (R205 to R207) -/

/-- `VOL` takes the clamped operand before the write, which sends the model of the new value. -/
theorem exec_setVolume_of_idle {s : State} (h : s.Idle) (v : Byte) :
    exec (.setVolume v) s =
      .next (writeRegister s.spd .volume (volumeModel (min v.toNat 100) s.bal)
        { s with vol := min v.toNat 100 }).done.finish := by
  rw [exec, execSetVolume, whenIdle_of_idle h, answered]
  rfl

theorem exec_setVolume_of_not_idle {s : State} (h : ¬ s.Idle) (v : Byte) :
    exec (.setVolume v) s = .next (refuse .illegalState s) := by
  rw [exec, execSetVolume, whenIdle_of_not_idle h, answered]

/-- Settles O31: from `Idle` the command is a register write with `VOL` already assigned, whose completion and four stops
are known. -/
theorem setVolumeMeaning : Obligations.SetVolumeMeaning := by
  refine fun s v => ⟨fun hn => exec_setVolume_of_not_idle hn v, fun hidle => ?_⟩
  have hrun (evs : List Event) := exec_setVolume_of_idle (s := s.answering evs) hidle v
  exact ⟨fun t ht => (hrun _).trans
      (congrArg _ (writeRegister_finish (s := { s with vol := min v.toNat 100 }) hidle ht)),
    fun st hst => (hrun _).trans
      (congrArg _ (writeRegister_finish_stop (s := { s with vol := min v.toNat 100 }) hidle hst))⟩

theorem exec_setBalance_eq (b : Half) (s : State) :
    exec (.setBalance b) s = .next { s with bal := clampBal b.toInt, response := some ⟨.ok, 0⟩ } := rfl

/-- Settles O32: the stored balance is the clamped operand, on each of the three ranges. -/
theorem setBalanceMeaning : Obligations.SetBalanceMeaning := by
  intro s b
  refine ⟨clampBal b.toInt, exec_setBalance_eq b s, ?_⟩
  rw [clampBal_eq]
  exact ⟨fun _ => by omega, fun _ => by omega, fun _ _ => by omega⟩

theorem exec_getVolume_eq (s : State) :
    exec .getVolume s = .next { s with response := some ⟨.ok, BitVec.ofNat 16 s.vol⟩ } := rfl

/-- Settles O33: a stored volume of at most 100 fits the 16 bits of the response. -/
theorem getVolumeMeaning : Obligations.GetVolumeMeaning := by
  refine fun s => ⟨rfl, fun hvol => ⟨BitVec.ofNat 16 s.vol, exec_getVolume_eq s, ?_⟩, rfl⟩
  rw [BitVec.toNat_ofNat]
  omega

/-! ## What the assigning commands keep, whatever the environment answers (R205, R206, R228) -/

theorem Moves.sameRegisters {s t : State} {evs : List Event} (h : Moves s t evs) : SameRegisters s t :=
  ⟨h.spd, h.vol, h.bal, h.fill, h.lc, h.slowOk, h.fastOk⟩

theorem SameRegisters.refl (s : State) : SameRegisters s s := (Moves.refl s).sameRegisters

/-- A composite command's procedure and its answer write none of the seven registers. -/
theorem Clean.finish_sameRegisters {s : State} {r : Result Response} (h : Clean s r) : SameRegisters s r.finish := by
  obtain ⟨_, hm, _⟩ := h
  obtain ⟨resp, hr⟩ := finish_eq r
  rw [hr]
  exact hm.sameRegisters

/-- An admitted `SET_VOLUME` leaves the seven registers as they are once `VOL` is assigned. -/
theorem exec_setVolume_sameRegisters {s t : State} {v : Byte} (h : s.Idle) (he : exec (.setVolume v) s = .next t) :
    SameRegisters { s with vol := min v.toNat 100 } t := by
  rw [exec_setVolume_of_idle h] at he
  obtain rfl := Host.Outcome.next.inj he
  have hclean := writeRegister_clean (sp := s.spd) (r := .volume) (v := volumeModel (min v.toNat 100) s.bal)
    (s := { s with vol := min v.toNat 100 }) h
  exact hclean.done.finish_sameRegisters

theorem exec_begin_kept {s t : State} (he : exec .begin s = .next t) : Kept s t := by
  obtain ⟨resp, hbegin⟩ := exec_begin_eq s
  obtain rfl := Host.Outcome.next.inj (hbegin.symm.trans he)
  exact bringUp_kept s

/-- Settles O47: `SET_VOLUME` refused, or admitted with `VOL` assigned before the write; `SET_BALANCE` by its equation;
`BEGIN` by bring-up's cases. -/
theorem assigningCommandsFrame : Obligations.AssigningCommandsFrame := by
  refine fun s t => ⟨fun v he => ?_, fun b he => ?_, fun he => ?_⟩
  · by_cases hidle : s.Idle
    · have hsame := exec_setVolume_sameRegisters hidle he
      have ⟨_, hvol, _⟩ := hsame
      exact ⟨hvol ▸ hsame, fun _ => hvol, fun hn => absurd hidle hn⟩
    · rw [exec_setVolume_of_not_idle hidle] at he
      obtain rfl := Host.Outcome.next.inj he
      exact ⟨.refl s, fun h => absurd h hidle, fun _ => rfl⟩
  · rw [exec_setBalance_eq] at he
    obtain rfl := Host.Outcome.next.inj he
    exact ⟨.refl { s with bal := clampBal b.toInt }, rfl, rfl, rfl, rfl⟩
  · obtain ⟨_, hvol, hbal, _⟩ := exec_begin_kept he
    exact ⟨hvol, hbal⟩

end Sys2Proof.Machine

/-! SUPPORT. The Lifecycle Controller (46_lifecycle.md): the stages, ranges and latches along every step (R24, R27, R28,
R220, R261), `BEGIN` whatever the environment answers and under given answers (R221 to R223, R228), and the four commands
from `Idle` (R224 to R227). -/

namespace Sys2Proof.Machine

/-! ## The stages, the ranges and the latches along every step (R220, R261) -/

/-- The stage's registers, the ranges of `VOL` and `BAL`, and both latches asserted only in `Resetting`. -/
def RegistersOk (s : State) : Prop := StageOk s ∧ RangesOk s ∧ BothOnlyResetting s

/-- A procedure that moves latches, trace and answers leaves what the stage says. -/
theorem Moves.keeps_stage {s t : State} {evs : List Event} (h : Moves s t evs) (hs : StageOk s) : StageOk t := by
  unfold StageOk at *
  rw [h.lc, h.spd, h.slowOk, h.fastOk, h.fill, h.cfg]
  exact hs

/-- `VOL` and `BAL` are as they were, or clamped operands. -/
theorem Effect.keeps_ranges {i : Instr} {s u : State} {resp : Response} (he : Effect i s u resp) (h : RangesOk s) :
    RangesOk u := by
  obtain ⟨vol, bal, _, hm, _, _, hvol, hbal, _⟩ := he.moves
  obtain ⟨hv, hlow, hhigh⟩ := h
  have hvol' : vol ≤ 100 := by
    rcases hvol with rfl | ⟨v, _, rfl⟩
    · exact hv
    · exact min_le_right _ _
  have hbal' : -100 ≤ bal ∧ bal ≤ 100 := by
    rcases hbal with rfl | ⟨b, _, rfl⟩
    · exact ⟨hlow, hhigh⟩
    · rw [clampBal_eq]
      omega
  unfold RangesOk
  rw [hm.vol, hm.bal]
  exact ⟨hvol', hbal'⟩

theorem Effect.keeps_registersOk {i : Instr} {s u : State} {resp : Response} (he : Effect i s u resp)
    (h : RegistersOk s) : RegistersOk u := by
  obtain ⟨hstage, hranges, hboth⟩ := h
  obtain ⟨_, _, _, hm, _⟩ := he.moves
  refine ⟨hm.keeps_stage hstage, he.keeps_ranges hranges, fun hc hd => ?_⟩
  obtain ⟨hsc, hsd⟩ := he.latches hc hd
  exact hm.lc.trans (hboth hsc hsd)

theorem BringUpEnd.registersOk {s t : State} (he : BringUpEnd s t) (h : RangesOk s) : RegistersOk t := by
  obtain ⟨_, hvol, hbal, _⟩ := he.kept
  refine ⟨he.stage, ?_, he.latches⟩
  unfold RangesOk
  rw [hvol, hbal]
  exact h

/-- Bring-up meets the three whatever stage it starts from. -/
theorem bringUp_registersOk {s : State} (h : RangesOk s) : RegistersOk (bringUp s).state := by
  rcases bringUp_cases s with ⟨t, he, _, _, hend⟩ | ⟨f, t, he, _, _, hend⟩
  · rw [he]
    exact hend.registersOk h
  · rw [he]
    exact hend.registersOk h

theorem exec_keeps_registersOk {i : Instr} {s t : State} (h : RegistersOk s) (he : exec i s = .next t) :
    RegistersOk t := by
  by_cases hb : i = .begin
  · subst hb
    obtain ⟨_, hranges, _⟩ := h
    obtain ⟨resp, hbegin⟩ := exec_begin_eq s
    obtain rfl := Host.Outcome.next.inj (hbegin.symm.trans he)
    exact bringUp_registersOk hranges
  · obtain ⟨u, resp, heff⟩ := exec_effect s hb
    obtain rfl := Host.Outcome.next.inj (heff.answer.symm.trans he)
    exact heff.keeps_registersOk h

theorem runPacket_keeps_registersOk {p : Packet} {s t : State} (h : RegistersOk s) (hp : runPacket p s = .next t) :
    RegistersOk t := by
  rcases runPacket_cases hp with ⟨i, _, he⟩ | ⟨_, _, rfl⟩
  · exact exec_keeps_registersOk h he
  · exact h

/-- Settles O51: only an executed instruction writes a register; `BEGIN` ends in a stage whose registers are as the stage
says, and every other instruction leaves those of the stage, clamps what it stores, and asserts no second latch. -/
theorem stepKeepsStages : Obligations.StepKeepsStages := by
  intro s t hstage hranges hboth hs
  have h : RegistersOk s := ⟨hstage, hranges, hboth⟩
  rcases step_cases hs with ⟨_, rfl⟩ | ⟨_, _, _, _, rfl⟩ | ⟨p, _, _, hp⟩
  · exact h
  · exact h
  · exact runPacket_keeps_registersOk (s := s.take) h hp

/-! ## How `BEGIN` ends, whatever the environment answers (R221, R229) -/

section
variable {s t : State}

/-- `BEGIN` is bring-up without an admission check; its value is the data. -/
theorem exec_begin_of_ok {v : Half} (h : bringUp s = .ok v t) :
    exec .begin s = .next { t with response := some ⟨.ok, v⟩ } := by
  rw [exec, execBegin, answered, h, answer_ok, finish_ok]

theorem exec_begin_of_raised {f : AbortReason} (h : bringUp s = .raised f 0 t) :
    exec .begin s = .next { t with response := some ⟨f.status, 0⟩ } := by
  rw [exec, execBegin, answered, h, answer_raised, finish_raised]

theorem StageOk.isSome_fill_of_ready (h : StageOk s) (hl : s.lc = .ready) : s.fill.isSome = true := by
  rw [StageOk, hl] at h
  exact Option.isSome_iff_ne_none.2 h.1

end

/-- Bits 0 and 1 of `BEGIN`'s data are the flags, and it has no other (R221). -/
theorem bringUpFlags_bits (slowOk fastOk : Bool) :
    (bringUpFlags slowOk fastOk).getLsbD 0 = slowOk ∧ (bringUpFlags slowOk fastOk).getLsbD 1 = fastOk ∧
    (bringUpFlags slowOk fastOk).toNat < 4 := by
  cases slowOk <;> cases fastOk <;> decide

/-- Settles O37: bring-up ends in `Ready`, whose registers latch `FILL`, or with one of the three faults before it. -/
theorem beginOutcomes : Obligations.BeginOutcomes := by
  intro s t he
  obtain ⟨_, hvol, hbal, _⟩ := exec_begin_kept he
  refine ⟨hvol, hbal, ?_⟩
  rcases bringUp_cases s with ⟨u, hrun, hready, hidle, hend⟩ | ⟨f, u, hrun, hready, hfill, _⟩
  · obtain rfl := Host.Outcome.next.inj ((exec_begin_of_ok hrun).symm.trans he)
    obtain ⟨h0, h1, hlt⟩ := bringUpFlags_bits u.slowOk u.fastOk
    exact .inl ⟨_, rfl, h0, h1, hlt, hready, hend.stage.isSome_fill_of_ready hready, hidle⟩
  · obtain rfl := Host.Outcome.next.inj ((exec_begin_of_raised hrun).symm.trans he)
    refine .inr ⟨?_, hready, hfill⟩
    cases f with
    | pinFault => exact .inl rfl
    | busFault => exact .inr (.inl rfl)
    | dataTimeout => exact .inr (.inr rfl)

/-! ## `BEGIN` under given answers (R221 to R223, R228) -/

/-- Reset signalling stops, with the registers as assigned at entry. -/
theorem bringUp_stop_reset (s : State) (st : ResetStop) :
    bringUp (s.answering (st.events s.cfg)) =
      .raised .pinFault 0
        ((((beginEntry s).after (st.events s.cfg)).setLatch .dat (st.csd s.csd)).setLatch .cmd (st.csc s.csc)) := by
  have hstop := resetSignalling_stop (beginEntry s) [] st
  rw [List.append_nil, answering_nil] at hstop
  rw [bringUp, beginEntry_answering]
  exact congrArg (Result.andThen · _) hstop

/-- Settles O35: `BEGIN` ends with the stop of reset signalling, at each of its four drives. -/
theorem beginResetStops : Obligations.BeginResetStops :=
  fun s st => exec_begin_of_raised (bringUp_stop_reset s st)

/-- The state `BEGIN` comes to after reset signalling: these events, both lines released, no filler latched, and the
registers as assigned so far (R221). -/
def begunState (s : State) (evs : List Event) (spd : Speed) (lc : Lifecycle) (slowOk fastOk : Bool) : State :=
  { s.after evs with
    csc := .released, csd := .released, spd := spd, fill := none, lc := lc, slowOk := slowOk, fastOk := fastOk }

theorem begunState_after (s : State) (evs evs' : List Event) (spd : Speed) (lc : Lifecycle) (slowOk fastOk : Bool) :
    (begunState s evs spd lc slowOk fastOk).after evs' = begunState s (evs ++ evs') spd lc slowOk fastOk := by
  simp [begunState, State.after, Nat.add_assoc]

section
variable (c : Config) (w : Option Nat) (slow fast : TestRun) (clock : Turn)

/-- The events between the slow self-test and the final probe: none, or the clock write and the fast self-test the binding
asks for (R221, R223). -/
def boostEvents : List Event :=
  if slow.pass c .slowProbe then
    registerEvents .slow (writeFrame c .clock c.clockBoostValue) clock.rx clock.k ++
    (if c.runFastSelfTest then fast.events c .fast .fastProbe else [])
  else []

/-- The speed of the final probe. -/
def probeSpeed : Speed := if slow.pass c .slowProbe then .fast else .slow

/-- The stage in which the final probe is made. -/
def probeStage : Lifecycle :=
  if slow.pass c .slowProbe then (if c.runFastSelfTest then .fastSelfTest else .clockBoosted) else .slowSelfTest

/-- `FASTOK` at the final probe. -/
def fastPassed : Bool := slow.pass c .slowProbe && c.runFastSelfTest && fast.pass c .fastProbe

/-- The state in which the final probe is made. -/
def probeState (s : State) : State :=
  begunState s (slowPhaseEvents s.cfg w slow ++ boostEvents s.cfg slow fast clock) (probeSpeed s.cfg slow)
    (probeStage s.cfg slow) (slow.pass s.cfg .slowProbe) (fastPassed s.cfg slow fast)

end

section
variable {s : State} {w : Option Nat} {slow fast : TestRun} {clock : Turn} {st : RegisterStop} {x : TestStop}
variable (hw : AwaitingOk w) (hslow : slow.Ok s.cfg .slowProbe)

include hw

theorem bringUp_stop_slowTest (hx : x.Ok s.cfg .slowProbe) :
    bringUp (s.answering (resetEvents s.cfg ++ (awaitingEvents w ++ x.events s.cfg .slow .slowProbe))) =
      .raised x.st.stop.reason 0 ((begunState s
        (resetEvents s.cfg ++ (awaitingEvents w ++ x.events s.cfg .slow .slowProbe)) .slow .slowSelfTest false
        false).setLatch .cmd x.st.stop.csc) := by
  have hstop := bringUp_stopSlow s [] x hw hx
  rw [List.append_nil] at hstop
  exact hstop

include hslow

/-- The slow self-test passed, the clock boost follows. -/
theorem bringUp_of_slowPassed (hpass : slow.pass s.cfg .slowProbe = true) (evs : List Event) :
    bringUp (s.answering (slowPhaseEvents s.cfg w slow ++ evs)) =
      afterSlow true ((begunState s (slowPhaseEvents s.cfg w slow) .slow .slowSelfTest true false).answering evs) := by
  rw [bringUp_slowPhase s evs hw hslow, hpass]
  rfl

theorem bringUp_stop_clockWrite (hpass : slow.pass s.cfg .slowProbe = true) (hst : st.Ok) :
    bringUp (s.answering (slowPhaseEvents s.cfg w slow ++
        st.events .slow (writeFrame s.cfg .clock s.cfg.clockBoostValue))) =
      .raised st.reason 0 ((begunState s (slowPhaseEvents s.cfg w slow ++
        st.events .slow (writeFrame s.cfg .clock s.cfg.clockBoostValue)) .slow .slowSelfTest true false).setLatch .cmd
        st.csc) := by
  have hstop := boostStage_stopClock (begunState s (slowPhaseEvents s.cfg w slow) .slow .slowSelfTest true false) [] st
    rfl hst
  rw [List.append_nil, answering_nil, begunState_after] at hstop
  rw [bringUp_of_slowPassed hw hslow hpass, afterSlow]
  exact congrArg (Result.andThen · _) hstop

theorem bringUp_stop_fastTest (hpass : slow.pass s.cfg .slowProbe = true) (hclock : clock.Ok 4)
    (hrun : s.cfg.runFastSelfTest = true) (hx : x.Ok s.cfg .fastProbe) :
    bringUp (s.answering (slowPhaseEvents s.cfg w slow ++
        (registerEvents .slow (writeFrame s.cfg .clock s.cfg.clockBoostValue) clock.rx clock.k ++
          x.events s.cfg .fast .fastProbe))) =
      .raised x.st.stop.reason 0 ((begunState s (slowPhaseEvents s.cfg w slow ++
        (registerEvents .slow (writeFrame s.cfg .clock s.cfg.clockBoostValue) clock.rx clock.k ++
          x.events s.cfg .fast .fastProbe)) .fast .fastSelfTest true false).setLatch .cmd x.st.stop.csc) := by
  have hstop := boostStage_stopFast (begunState s (slowPhaseEvents s.cfg w slow) .slow .slowSelfTest true false) [] x
    rfl hclock hrun hx
  rw [List.append_nil, answering_nil] at hstop
  rw [bringUp_of_slowPassed hw hslow hpass, afterSlow, ← begunState_after]
  exact congrArg (Result.andThen · _) hstop

variable (hfast : fast.Ok s.cfg .fastProbe) (hclock : clock.Ok 4)
include hfast hclock

/-- Either way the self-tests went, the final probe follows, and its value is no part of the data (R223). -/
theorem bringUp_of_probe (evs : List Event) :
    bringUp (s.answering (slowPhaseEvents s.cfg w slow ++ boostEvents s.cfg slow fast clock ++ evs)) =
      (finalProbe ((probeState w slow fast clock s).answering evs)).andThen fun _ s =>
        .ok (bringUpFlags s.slowOk s.fastOk) s :=
  bringUp_probe s evs hw hslow hfast hclock

/-- A stop of the final probe is `BEGIN`'s. -/
theorem bringUp_stop_of_probe {f : AbortReason} {level : Level} {evs : List Event}
    (hstop : finalProbe ((probeState w slow fast clock s).answering evs) =
      .raised f 0 (((probeState w slow fast clock s).after evs).setLatch .cmd level)) :
    bringUp (s.answering (slowPhaseEvents s.cfg w slow ++ boostEvents s.cfg slow fast clock ++ evs)) =
      .raised f 0 ((begunState s (slowPhaseEvents s.cfg w slow ++ boostEvents s.cfg slow fast clock ++ evs)
        (probeSpeed s.cfg slow) (probeStage s.cfg slow) (slow.pass s.cfg .slowProbe)
        (fastPassed s.cfg slow fast)).setLatch .cmd level) := by
  rw [bringUp_of_probe hw hslow hfast hclock, hstop, andThen_raised, probeState, begunState_after]

theorem bringUp_stop_pointerWrite (hst : st.Ok) :
    let evs := st.events (probeSpeed s.cfg slow) (writeFrame s.cfg .scratchAddr s.cfg.saEndFill)
    bringUp (s.answering (slowPhaseEvents s.cfg w slow ++ boostEvents s.cfg slow fast clock ++ evs)) =
      .raised st.reason 0 ((begunState s (slowPhaseEvents s.cfg w slow ++ boostEvents s.cfg slow fast clock ++ evs)
        (probeSpeed s.cfg slow) (probeStage s.cfg slow) (slow.pass s.cfg .slowProbe)
        (fastPassed s.cfg slow fast)).setLatch .cmd st.csc) := by
  have hstop := finalProbe_stopPointer (probeState w slow fast clock s) [] st rfl rfl hst
  rw [List.append_nil, answering_nil] at hstop
  exact bringUp_stop_of_probe hw hslow hfast hclock hstop

theorem bringUp_stop_probeRead {ptr : Turn} (hptr : ptr.Ok 4) (hst : st.Ok) :
    let evs := registerEvents (probeSpeed s.cfg slow) (writeFrame s.cfg .scratchAddr s.cfg.saEndFill) ptr.rx ptr.k ++
      st.events (probeSpeed s.cfg slow) (readFrame s.cfg .scratchData)
    bringUp (s.answering (slowPhaseEvents s.cfg w slow ++ boostEvents s.cfg slow fast clock ++ evs)) =
      .raised st.reason 0 ((begunState s (slowPhaseEvents s.cfg w slow ++ boostEvents s.cfg slow fast clock ++ evs)
        (probeSpeed s.cfg slow) (probeStage s.cfg slow) (slow.pass s.cfg .slowProbe)
        (fastPassed s.cfg slow fast)).setLatch .cmd st.csc) := by
  have hstop := finalProbe_stopRead (probeState w slow fast clock s) [] st rfl rfl hptr hst
  rw [List.append_nil, answering_nil] at hstop
  exact bringUp_stop_of_probe hw hslow hfast hclock hstop

/-- The final probe completes: `FILL` is the value read, and the stage is `Ready`. -/
theorem bringUp_completes {probe : ProbeTurns} (hprobe : probe.Ok) :
    let evs := slowPhaseEvents s.cfg w slow ++ boostEvents s.cfg slow fast clock ++
      probe.events s.cfg (probeSpeed s.cfg slow)
    bringUp (s.answering evs) =
      .ok (bringUpFlags (slow.pass s.cfg .slowProbe) (fastPassed s.cfg slow fast))
        { begunState s evs (probeSpeed s.cfg slow) .ready (slow.pass s.cfg .slowProbe) (fastPassed s.cfg slow fast) with
          fill := some (readValue probe.read.rx) } := by
  have hrun := finalProbe_answering (probeState w slow fast clock s) [] rfl rfl hprobe
  rw [List.append_nil, answering_nil] at hrun
  dsimp only
  rw [bringUp_of_probe hw hslow hfast hclock, ← begunState_after]
  exact congrArg (Result.andThen · _) hrun

end

theorem bringUpFlags_eq_add (slowOk fastOk : Bool) :
    bringUpFlags slowOk fastOk = (if slowOk then 1 else 0) + (if fastOk then 2 else 0) := by
  cases slowOk <;> cases fastOk <;> rfl

/-- Settles O34: the slow phase leads to the final probe, with the boost between them after a pass, and the probe
completes. -/
theorem beginCompletes : Obligations.BeginCompletes := by
  intro s w slow fast clock probe hw hslow hfast hclock hprobe
  dsimp only
  rw [← List.append_assoc, ← bringUpFlags_eq_add]
  exact exec_begin_of_ok (bringUp_completes hw hslow hfast hclock hprobe)

/-- Settles O36: the stops of the slow self-test, of the clock write and of the fast self-test, and the two of the final
probe that the slow phase and the boost lead to. -/
theorem beginLaterStops : Obligations.BeginLaterStops := by
  intro s w slow fast clock ptr st x hw hslow hfast hclock hptr hst
  dsimp only
  simp only [← reason_status]
  exact ⟨fun hx => exec_begin_of_raised (bringUp_stop_slowTest hw hx),
    fun hpass => exec_begin_of_raised (bringUp_stop_clockWrite hw hslow hpass hst),
    fun hpass hrun hx => exec_begin_of_raised (bringUp_stop_fastTest hw hslow hpass hclock hrun hx),
    exec_begin_of_raised (bringUp_stop_pointerWrite hw hslow hfast hclock hst),
    exec_begin_of_raised (bringUp_stop_probeRead hw hslow hfast hclock hptr hst)⟩

/-! ## One register write, then what follows it (R152, R155, R260) -/

section
variable {s : State} {sp : Speed} {r : ChipReg} {v : Half}

/-- The write completes, and what follows goes on with the events left. -/
theorem writeRegister_andThen {α : Type} {t : Turn} (h : s.Idle) (ht : t.Ok 4) (evs : List Event)
    (k : Unit → State → Result α) :
    (writeRegister sp r v (s.answering (registerEvents sp (writeFrame s.cfg r v) t.rx t.k ++ evs))).andThen k =
      k () ((s.after (registerEvents sp (writeFrame s.cfg r v) t.rx t.k)).answering evs) := by
  rw [writeRegister_answering s evs h.1 ht.1 ht.2, andThen_ok]

/-- The write stops, and nothing follows. -/
theorem writeRegister_stop_andThen {α : Type} {st : RegisterStop} (h : s.Idle) (hst : st.Ok)
    (k : Unit → State → Result α) :
    (writeRegister sp r v (s.answering (st.events sp (writeFrame s.cfg r v)))).andThen k =
      .raised st.reason 0 ((s.after (st.events sp (writeFrame s.cfg r v))).setLatch .cmd st.csc) := by
  have hstop := writeRegister_stop s [] st h.1 hst (sp := sp) (r := r) (v := v)
  rw [List.append_nil, answering_nil] at hstop
  rw [hstop, andThen_raised]

/-- Whatever the environment answers, a completed write leaves both lines released and the configuration as it was, so
only there does it matter what follows. -/
theorem writeRegister_andThen_congr {α : Type} {k k' : Unit → State → Result α} (h : s.Idle)
    (hk : ∀ t : State, t.Idle → t.cfg = s.cfg → k () t = k' () t) :
    (writeRegister sp r v s).andThen k = (writeRegister sp r v s).andThen k' := by
  rcases writeRegister_cases (sp := sp) (r := r) (v := v) h.1 with ⟨_, _, t, _, _, hrun, hends⟩ | ⟨st, t, _, hrun, _⟩
  · rw [hrun, andThen_ok, andThen_ok, hk t (hends.idle h) hends.cfg]
  · rw [hrun, andThen_raised, andThen_raised]

end

/-! ## The last ready-wait, with both lines released (R224, R225) -/

/-- The ready-wait that ends a soft reset. -/
def lastWait (s : State) : Result Unit := awaitOrRaise Config.readyPollBound 0 id s

/-- After the events of what came before, the wait succeeds. -/
theorem lastWait_finish {k : Nat} (hk : k < 2000) (s : State) (evs : List Event) :
    (lastWait ((s.after evs).answering (waitEvents k))).done.finish =
      { s.after (evs ++ waitEvents k) with response := some ⟨.ok, 0⟩ } := by
  have hwait := awaitOrRaise_wait (s.after evs) [] hk 0 id
  rw [List.append_nil, answering_nil, after_after] at hwait
  rw [lastWait, Config.readyPollBound, hwait, done_ok, finish_ok]

/-- After the events of what came before, the wait times out. -/
theorem lastWait_finish_timeout (s : State) (evs : List Event) :
    (lastWait ((s.after evs).answering (timeoutEvents 2000))).done.finish =
      { s.after (evs ++ timeoutEvents 2000) with response := some ⟨.dataTimeout, 0⟩ } := by
  have htimeout := awaitOrRaise_timeout (s.after evs) [] 2000 0 id
  rw [List.append_nil, answering_nil, after_after] at htimeout
  rw [lastWait, Config.readyPollBound, htimeout, done_raised, finish_raised, id, AbortReason.status]

/-- The answer and the latch where a register transaction stops a command (R155). -/
theorem finish_registerStop (s : State) (st : RegisterStop) (evs : List Event) :
    (Result.raised st.reason 0 ((s.after evs).setLatch .cmd st.csc)).finish =
      { s.after evs with csc := st.csc, response := some ⟨st.status, 0⟩ } := by
  rw [finish_raised, reason_status]
  rfl

/-! ## `SOFT_RESET` (R224) -/

section
variable {s : State}

theorem exec_softReset_of_idle (h : s.Idle) : exec .softReset s = .next (softReset s).done.finish := by
  rw [exec, execSoftReset, whenIdle_of_idle h, answered]

theorem exec_softReset_of_not_idle (h : ¬ s.Idle) : exec .softReset s = .next (refuse .illegalState s) := by
  rw [exec, execSoftReset, whenIdle_of_not_idle h, answered]

/-- The mode write completes, and the last wait follows. -/
theorem softReset_of_write {t : Turn} (h : s.Idle) (ht : t.Ok 4) (evs : List Event) :
    softReset (s.answering
        (registerEvents s.spd (writeFrame s.cfg .mode s.cfg.modeSoftResetValue) t.rx t.k ++ evs)) =
      lastWait ((s.after
        (registerEvents s.spd (writeFrame s.cfg .mode s.cfg.modeSoftResetValue) t.rx t.k)).answering evs) :=
  writeRegister_andThen h ht evs _

theorem softReset_finish_stop {st : RegisterStop} (h : s.Idle) (hst : st.Ok) :
    (softReset (s.answering (st.events s.spd (writeFrame s.cfg .mode s.cfg.modeSoftResetValue)))).done.finish =
      { s.after (st.events s.spd (writeFrame s.cfg .mode s.cfg.modeSoftResetValue)) with
        csc := st.csc, response := some ⟨st.status, 0⟩ } := by
  rw [softReset, answering_spd, answering_cfg, writeRegister_stop_andThen h hst, done_raised, finish_registerStop]

end

/-- R8 has the reset bit set in the value written. -/
theorem modeSoftResetValue_resetBit (c : Config) : c.modeSoftResetValue.getLsbD 2 = true := by
  obtain ⟨_, _, _, _, _, _, hbit, _⟩ := c.ok
  exact hbit

/-- Settles O38: from `Idle` the write completes and the last wait decides, or the write stops. -/
theorem softResetMeaning : Obligations.SoftResetMeaning := by
  refine fun s => ⟨modeSoftResetValue_resetBit s.cfg, exec_softReset_of_not_idle, fun hidle => ?_⟩
  have hexec (evs : List Event) := exec_softReset_of_idle (s := s.answering evs) hidle
  refine ⟨fun t k ht hk => ?_, fun t ht => ?_, fun st hst => ?_⟩
  · dsimp only
    rw [hexec, softReset_of_write hidle ht, lastWait_finish hk]
  · dsimp only
    rw [hexec, softReset_of_write hidle ht, lastWait_finish_timeout]
  · rw [hexec, softReset_finish_stop hidle hst]

/-! ## `SWITCH_TO_MP3_MODE` as five register writes (R225) -/

/-- The register of write `j`. -/
def mp3Register : Nat → ChipReg
  | 0 => .scratchAddr
  | 1 => .scratchData
  | 2 => .scratchAddr
  | 3 => .scratchData
  | _ => .mode

/-- The value of write `j`. -/
def mp3Value (c : Config) : Nat → Half
  | 0 => c.saGpioDir
  | 1 => c.gpioDirValue
  | 2 => c.saGpioData
  | 3 => c.gpioDataValue
  | _ => c.modeSoftResetValue

/-- The state in which write `j` begins: the delay stands before the fifth. -/
def mp3Pause (j : Nat) (s : State) : State := if j = 4 then delay s.cfg.tMp3SwitchMs s else s

/-- The last `left` of the five writes, from write `j` on, each at `SPD`, then the last ready-wait. -/
def mp3Writes : (left j : Nat) → State → Result Unit
  | 0, _, s => lastWait s
  | left + 1, j, s =>
    (writeRegister (mp3Pause j s).spd (mp3Register j) (mp3Value s.cfg j) (mp3Pause j s)).andThen fun _ s =>
      mp3Writes left (j + 1) s

theorem mp3Frame_eq (c : Config) (j : Nat) : mp3Frame c j = writeFrame c (mp3Register j) (mp3Value c j) := by
  match j with
  | 0 | 1 | 2 | 3 | _ + 4 => rfl

/-- A scratch write is its two register writes, whatever follows (R153). -/
theorem scratchWrite_andThen {α : Type} (a d : Half) (s : State) (k : Unit → State → Result α) :
    (scratchWrite a d s).andThen k =
      (writeRegister s.spd .scratchAddr a s).andThen fun _ t => (writeRegister t.spd .scratchData d t).andThen k := by
  rw [scratchWrite]
  cases writeRegister s.spd .scratchAddr a s <;> rfl

section
variable {s : State} {t : Nat → Turn}

theorem exec_switchToMp3Mode_of_not_idle (h : ¬ s.Idle) :
    exec .switchToMp3Mode s = .next (refuse .illegalState s) := by
  rw [exec, execSwitchToMp3Mode, whenIdle_of_not_idle h, answered]

/-- From `Idle` the command is the five writes and the wait: the configuration each write reads is the one before it. -/
theorem exec_switchToMp3Mode_of_idle (h : s.Idle) :
    exec .switchToMp3Mode s = .next (mp3Writes 5 0 s).done.finish := by
  rw [exec, execSwitchToMp3Mode, whenIdle_of_idle h, answered]
  congr 3
  rw [scratchWrite_andThen]
  refine writeRegister_andThen_congr h fun s1 h1 hc1 => ?_
  rw [← hc1]
  refine writeRegister_andThen_congr h1 fun s2 h2 _ => ?_
  rw [scratchWrite_andThen]
  refine writeRegister_andThen_congr h2 fun s3 _ hc3 => ?_
  rw [← hc3]
  rfl

theorem mp3Pause_answering (s : State) (j : Nat) (evs : List Event) :
    mp3Pause j (s.answering (mp3Delay s.cfg j ++ evs)) = (s.after (mp3Delay s.cfg j)).answering evs := by
  unfold mp3Pause mp3Delay
  split
  · exact delay_answering s evs _
  · rw [List.nil_append, after_nil]

/-- The pause of write `j` made, the write itself follows. -/
theorem mp3Writes_succ (s : State) (left j : Nat) (evs : List Event) :
    mp3Writes (left + 1) j (s.answering (mp3Delay s.cfg j ++ evs)) =
      (writeRegister s.spd (mp3Register j) (mp3Value s.cfg j) ((s.after (mp3Delay s.cfg j)).answering evs)).andThen
        fun _ s => mp3Writes left (j + 1) s := by
  rw [mp3Writes, mp3Pause_answering]
  rfl

/-- Write `j` completes, and the sequence goes on with the next. -/
theorem mp3Writes_of_write {left j : Nat} {t : Turn} (h : s.Idle) (ht : t.Ok 4) (evs : List Event) :
    mp3Writes (left + 1) j (s.answering
        (mp3Delay s.cfg j ++ registerEvents s.spd (mp3Frame s.cfg j) t.rx t.k ++ evs)) =
      mp3Writes left (j + 1) ((s.after
        (mp3Delay s.cfg j ++ registerEvents s.spd (mp3Frame s.cfg j) t.rx t.k)).answering evs) := by
  rw [List.append_assoc, mp3Writes_succ, mp3Frame_eq, ← after_after]
  exact writeRegister_andThen (s := s.after _) h ht evs _

/-- Write `j` stops, and the sequence with it. -/
theorem mp3Writes_stop {left j : Nat} {st : RegisterStop} (h : s.Idle) (hst : st.Ok) :
    mp3Writes (left + 1) j (s.answering (mp3Delay s.cfg j ++ st.events s.spd (mp3Frame s.cfg j))) =
      .raised st.reason 0
        ((s.after (mp3Delay s.cfg j ++ st.events s.spd (mp3Frame s.cfg j))).setLatch .cmd st.csc) := by
  rw [mp3Writes_succ, mp3Frame_eq, ← after_after]
  exact writeRegister_stop_andThen (s := s.after _) h hst _

theorem mp3Events_succ (c : Config) (sp : Speed) (t : Nat → Turn) (n : Nat) :
    mp3Events c sp t (n + 1) =
      mp3Events c sp t n ++ (mp3Delay c n ++ registerEvents sp (mp3Frame c n) (t n).rx (t n).k) :=
  eventsUpTo_succ n _

/-- The first `n` writes complete, and the sequence goes on with write `n`. -/
theorem mp3Writes_of_completed (h : s.Idle) (n : Nat) :
    ∀ {left : Nat}, (∀ j < n, (t j).Ok 4) → ∀ evs : List Event,
      mp3Writes (left + n) 0 (s.answering (mp3Events s.cfg s.spd t n ++ evs)) =
        mp3Writes left n ((s.after (mp3Events s.cfg s.spd t n)).answering evs) := by
  induction n with
  | zero => intro left _ evs; rw [mp3Events, eventsUpTo_zero, List.nil_append, after_nil, Nat.add_zero]
  | succ n ih =>
    intro left ht evs
    rw [mp3Events_succ, List.append_assoc, Nat.add_comm n 1, ← Nat.add_assoc,
      ih fun j hj => ht j (Nat.lt_succ_of_lt hj), ← after_after, Nat.add_comm 1 n]
    exact mp3Writes_of_write (s := s.after _) h (ht n n.lt_succ_self) evs

/-- The writes before complete, and the next one stops. -/
theorem mp3Writes_finish_stop {n left : Nat} {st : RegisterStop} (h : s.Idle) (ht : ∀ j < n, (t j).Ok 4)
    (hst : st.Ok) :
    let evs := mp3Events s.cfg s.spd t n ++ (mp3Delay s.cfg n ++ st.events s.spd (mp3Frame s.cfg n))
    (mp3Writes (left + 1 + n) 0 (s.answering evs)).done.finish =
      { s.after evs with csc := st.csc, response := some ⟨st.status, 0⟩ } := by
  dsimp only
  have hstop := mp3Writes_stop (s := s.after (mp3Events s.cfg s.spd t n)) (left := left) (j := n) h hst
  rw [after_cfg, after_spd, after_after] at hstop
  rw [mp3Writes_of_completed h n ht, hstop, done_raised, finish_registerStop]

end

/-- Settles O39: from `Idle` the five writes complete and the last wait decides, or the writes before write `n` complete and
it stops. -/
theorem switchToMp3ModeMeaning : Obligations.SwitchToMp3ModeMeaning := by
  refine fun s t => ⟨exec_switchToMp3Mode_of_not_idle, fun hidle => ?_⟩
  have hexec (evs : List Event) := exec_switchToMp3Mode_of_idle (s := s.answering evs) hidle
  refine ⟨fun k hk ht => ?_, fun ht => ?_, fun n hn ht st hst => ?_⟩
  · dsimp only
    rw [hexec, mp3Writes_of_completed (left := 0) hidle 5 ht, mp3Writes, lastWait_finish hk]
  · dsimp only
    rw [hexec, mp3Writes_of_completed (left := 0) hidle 5 ht, mp3Writes, lastWait_finish_timeout]
  · refine (hexec _).trans (congrArg _ ?_)
    have hstop := mp3Writes_finish_stop (left := 4 - n) hidle ht hst
    rwa [show 4 - n + 1 + n = 5 by omega] at hstop

/-! ## The status queries (R226, R227) -/

section
variable {s : State} (f : Half → Response)

/-- A query that answers from one register read, which completes. -/
theorem query_finish {r : ChipReg} {rx : List Byte} {k : Nat} (h : s.Idle) (hr : rx.length = 4) (hk : k < 2000) :
    ((readRegister r (s.answering (registerEvents s.spd (readFrame s.cfg r) rx k))).andThen fun v s =>
        .ok (f v) s).finish =
      { s.after (registerEvents s.spd (readFrame s.cfg r) rx k) with response := some (f (readValue rx)) } := by
  have hrun := readRegister_answering s [] h.1 rfl hr hk (r := r)
  rw [List.append_nil, answering_nil] at hrun
  rw [hrun, andThen_ok, finish_ok]

/-- A query whose register read stops. -/
theorem query_finish_stop {r : ChipReg} {st : RegisterStop} (h : s.Idle) (hst : st.Ok) :
    ((readRegister r (s.answering (st.events s.spd (readFrame s.cfg r)))).andThen fun v s => .ok (f v) s).finish =
      { s.after (st.events s.spd (readFrame s.cfg r)) with csc := st.csc, response := some ⟨st.status, 0⟩ } := by
  have hstop := readRegister_stop s [] st h.1 rfl hst (r := r)
  rw [List.append_nil, answering_nil] at hstop
  rw [hstop, andThen_raised, finish_registerStop]

end

theorem joinBytes_inj {hi lo hi' lo' : Byte} : joinBytes hi lo = joinBytes hi' lo' ↔ hi = hi' ∧ lo = lo' := by
  refine ⟨fun h => ⟨?_, ?_⟩, fun ⟨h1, h2⟩ => by rw [h1, h2]⟩
  · have := congrArg (BitVec.extractLsb' 8 8) h
    rwa [joinBytes, joinBytes, BitVec.extractLsb'_append_eq_left, BitVec.extractLsb'_append_eq_left] at this
  · have := congrArg (BitVec.extractLsb' 0 8) h
    rwa [joinBytes, joinBytes, BitVec.extractLsb'_append_eq_right, BitVec.extractLsb'_append_eq_right] at this

/-- The two absence patterns, byte by byte (R36). -/
theorem statusAbsent_joinBytes (hi lo : Byte) :
    statusAbsent (joinBytes hi lo) = true ↔ (hi = 0x00 ∧ lo = 0x00) ∨ (hi = 0xFF ∧ lo = 0xFF) := by
  rw [statusAbsent, Bool.or_eq_true, beq_iff_eq, beq_iff_eq, ← joinBytes_inj, ← joinBytes_inj]
  rfl

/-- Bits 7:4 are the upper half of the low byte (R36). -/
theorem versionOf_joinBytes (hi lo : Byte) : versionOf (joinBytes hi lo) = BitVec.ofNat 16 (lo.toNat / 16) := by
  have hbits : (joinBytes hi lo).extractLsb' 4 4 = lo.extractLsb' 4 4 :=
    BitVec.extractLsb'_append_eq_of_add_le (by decide)
  apply BitVec.eq_of_toNat_eq
  change (((joinBytes hi lo).extractLsb' 4 4).setWidth 16).toNat = _
  rw [hbits, BitVec.toNat_setWidth, BitVec.extractLsb'_toNat, Nat.shiftRight_eq_div_pow, BitVec.toNat_ofNat]
  omega

section
variable {s : State}

theorem exec_isChipConnected_of_idle (h : s.Idle) :
    exec .isChipConnected s =
      .next ((readRegister .status s).andThen fun v s => .ok (connectedResponse v) s).finish := by
  rw [exec, execIsChipConnected, whenIdle_of_idle h, answered]

theorem exec_isChipConnected_of_not_idle (h : ¬ s.Idle) :
    exec .isChipConnected s = .next (refuse .illegalState s) := by
  rw [exec, execIsChipConnected, whenIdle_of_not_idle h, answered]

theorem exec_getChipVersion_of_idle (h : s.Idle) :
    exec .getChipVersion s =
      .next ((readRegister .status s).andThen fun v s => .ok (okResponse (versionOf v)) s).finish := by
  rw [exec, execGetChipVersion, whenIdle_of_idle h, answered]

theorem exec_getChipVersion_of_not_idle (h : ¬ s.Idle) :
    exec .getChipVersion s = .next (refuse .illegalState s) := by
  rw [exec, execGetChipVersion, whenIdle_of_not_idle h, answered]

end

/-- Settles O40: from `Idle` the answer is that of the status read, by its two bytes, or the read's stop. -/
theorem isChipConnectedMeaning : Obligations.IsChipConnectedMeaning := by
  refine fun s => ⟨exec_isChipConnected_of_not_idle, fun hidle => ?_⟩
  have hexec (evs : List Event) := exec_isChipConnected_of_idle (s := s.answering evs) hidle
  refine ⟨fun b0 b1 hi lo k hk => ?_, fun st hst => (hexec _).trans (congrArg _ (query_finish_stop _ hidle hst))⟩
  rw [hexec, query_finish _ hidle rfl hk, readValue, connectedResponse]
  simp only [statusAbsent_joinBytes, okResponse]

/-- Settles O41: from `Idle` the data is the version field of the status read, whatever its value, or the read's stop. -/
theorem getChipVersionMeaning : Obligations.GetChipVersionMeaning := by
  refine fun s => ⟨rfl, exec_getChipVersion_of_not_idle, fun hidle => ?_⟩
  have hexec (evs : List Event) := exec_getChipVersion_of_idle (s := s.answering evs) hidle
  refine ⟨fun b0 b1 hi lo k hk => ?_, fun st hst => (hexec _).trans (congrArg _ (query_finish_stop _ hidle hst))⟩
  rw [hexec, query_finish _ hidle rfl hk, readValue, versionOf_joinBytes, okResponse]

end Sys2Proof.Machine

/-! SUPPORT. Admission (60_exceptions.md section 1, R257): which precondition each instruction answers `IllegalState` by; the
registers of the commands that assign none (R20, R261); and the values construction leaves (R45, R290). -/

namespace Sys2Proof.Machine

/-! ## Admission (R257) -/

/-- The instruction answers a next state, and it is refused there with `IllegalState` exactly when `p` does not hold. -/
def AdmittedIff (i : Instr) (s : State) (p : Prop) : Prop :=
  ∃ t, exec i s = .next t ∧ ((∃ d, t.response = some ⟨.illegalState, d⟩) ↔ ¬ p)

/-- What the definition says of the next state a statement names. -/
theorem AdmittedIff.refused_iff {i : Instr} {s t : State} {p : Prop} (h : AdmittedIff i s p) (he : exec i s = .next t) :
    (∃ d, t.response = some ⟨.illegalState, d⟩) ↔ ¬ p := by
  obtain ⟨u, hu, hiff⟩ := h
  obtain rfl := Host.Outcome.next.inj (hu.symm.trans he)
  exact hiff

theorem AdmittedIff.of_refused {i : Instr} {s : State} {p : Prop} (hp : ¬ p)
    (h : exec i s = .next (refuse .illegalState s)) : AdmittedIff i s p :=
  ⟨_, h, fun _ => hp, fun _ => ⟨0, rfl⟩⟩

/-- A procedure that ran to its end answers no refusal: neither a fault nor a returned status is one. -/
theorem Returns.finish_not_refused {i : Instr} {r : Result Response} (h : Returns i r) (d : Half) :
    r.finish.response ≠ some ⟨.illegalState, d⟩ := by
  obtain ⟨st, d', hresp, hst⟩ := h.finish_response
  rw [hresp]
  rintro ⟨⟩
  rcases hst with ⟨f, hf⟩ | h | ⟨h, _⟩ | ⟨h, _⟩
  · obtain ⟨_, hs, _⟩ := abortStatus_not_refusal_nor_advisory f
    exact hs hf.symm
  · cases h
  · cases h
  · cases h

theorem AdmittedIff.of_ran {i : Instr} {s : State} {p : Prop} {r : Result Response} (hp : p) (hr : Returns i r)
    (h : exec i s = .next r.finish) : AdmittedIff i s p :=
  ⟨_, h, fun ⟨d, hd⟩ => absurd hd (hr.finish_not_refused d), fun hn => absurd hp hn⟩

/-- The check of the composite commands. -/
theorem AdmittedIff.whenIdle {i : Instr} {s : State} {k : State → Result Response} (hr : Returns i (k s))
    (h : exec i s = .next (whenIdle k s)) : AdmittedIff i s s.Idle := by
  by_cases hi : s.Idle
  · exact .of_ran hi hr (by rw [h, whenIdle_of_idle hi])
  · exact .of_refused hi (by rw [h, whenIdle_of_not_idle hi])

/-- The check of the commands that send fillers. -/
theorem AdmittedIff.whenIdleFilled {i : Instr} {s : State} {k : Half → State → Result Response}
    (hr : ∀ v, Returns i (k v s)) (h : exec i s = .next (whenIdleFilled k s)) :
    AdmittedIff i s (s.Idle ∧ s.fill ≠ none) := by
  by_cases hi : s.Idle
  · obtain hf | ⟨v, hf⟩ := Option.eq_none_or_eq_some s.fill
    · exact .of_refused (fun hp => hp.2 hf) (by rw [h, whenIdleFilled_none hf])
    · exact .of_ran ⟨hi, by rw [hf]; exact nofun⟩ (hr v) (by rw [h, whenIdleFilled_some hf, whenIdle_of_idle hi])
  · exact .of_refused (fun hp => hi hp.1) (by rw [h, whenIdleFilled_of_not_idle hi])

section
variable (s : State)

theorem selectCommand_admittedIff : AdmittedIff .selectCommand s (s.csd = .released) := by
  cases h : s.csd with
  | released => exact .of_ran rfl (.done _ _) (exec_selectCommand_of_released h)
  | asserted => exact .of_refused nofun (exec_selectCommand_of_asserted h)

theorem selectData_admittedIff : AdmittedIff .selectData s (s.csc = .released) := by
  cases h : s.csc with
  | released => exact .of_ran rfl (.done _ _) (exec_selectData_of_released h)
  | asserted => exact .of_refused nofun (exec_selectData_of_asserted h)

theorem flushWithFillers_admittedIff (n : Half) :
    AdmittedIff (.flushWithFillers n) s (s.Idle ∧ s.fill ≠ none) :=
  .whenIdleFilled (fun _ => .done _ _) rfl

theorem stop_admittedIff : AdmittedIff .stop s (s.Idle ∧ s.fill ≠ none) :=
  .whenIdleFilled (fun _ => .map (fun _ => .inl rfl) _) rfl

theorem wireFillerUnit_admittedIff (v : Half) : AdmittedIff (.wireFillerUnit v) s (s.Idle ∧ s.fill = some v) := by
  by_cases hp : s.Idle ∧ s.fill = some v
  · exact .of_ran hp (.done _ _) (exec_wireFillerUnit_of_idle hp.2 hp.1)
  · exact .of_refused hp (exec_wireFillerUnit_refused (not_and_or.1 hp))

/-- The composite instructions that need no more of the state than `Idle`. -/
theorem composite_admittedIff {i : Instr} (hw : WellFormed i) (hc : i.composite = true)
    (hflush : ∀ n, i ≠ .flushWithFillers n) (hstop : i ≠ .stop) (hunit : ∀ v, i ≠ .wireFillerUnit v) :
    AdmittedIff i s s.Idle := by
  cases i with
  | readRegister r => exact .whenIdle (.answer _ _) rfl
  | writeRegister sp r v => exact .whenIdle (.done _ _) rfl
  | scratchWrite a d => exact .whenIdle (.done _ _) rfl
  | scratchRead a => exact .whenIdle (.answer _ _) rfl
  | selfTest p => exact .whenIdle (.map (fun _ => mayReturn_selfTestResponse ..) _) rfl
  | writeStream l n => exact .whenIdle (.done _ _) (congrArg Host.Outcome.next (if_pos hw))
  | flushWithFillers n => exact absurd rfl (hflush n)
  | stop => exact absurd rfl hstop
  | setVolume v => exact .whenIdle (.done _ _) rfl
  | switchToMp3Mode => exact .whenIdle (.done _ _) rfl
  | softReset => exact .whenIdle (.done _ _) rfl
  | isChipConnected => exact .whenIdle (.map mayReturn_connectedResponse _) rfl
  | getChipVersion => exact .whenIdle (.map (fun _ => .inl rfl) _) rfl
  | wireReadFrame r => exact .whenIdle (.map (fun _ => .inl rfl) _) rfl
  | wireWriteFrame r v => exact .whenIdle (.map (fun _ => .inl rfl) _) rfl
  | wireDataChunk bytes => exact .whenIdle (.done _ _) (congrArg Host.Outcome.next (if_pos hw))
  | wireFillerUnit v => exact absurd rfl (hunit v)
  | _ => cases hc

/-- The commands without an admission check. -/
theorem unchecked_admittedIff {i : Instr}
    (h : i = .deselectCommand ∨ i = .deselectData ∨ (∃ n, i = .awaitReady n) ∨ (∃ b, i = .setBalance b) ∨
      i = .getVolume ∨ i = .begin) : AdmittedIff i s True := by
  rcases h with rfl | rfl | ⟨n, rfl⟩ | ⟨b, rfl⟩ | rfl | rfl
  · exact .of_ran trivial (.done _ _) rfl
  · exact .of_ran trivial (.done _ _) rfl
  · exact .of_ran trivial (.done _ _) rfl
  · exact .of_ran trivial (.pure (.inl rfl) _) rfl
  · exact .of_ran trivial (.pure (.inl rfl) _) rfl
  · exact .of_ran trivial (.answer _ _) rfl

end

/-- Settles O45: the admission check of each instruction, read off the state it leads to. -/
theorem admissionTable : Obligations.AdmissionTable := by
  intro i s t he hw
  refine ⟨?_, ?_, fun hc hflush hstop hunit => ?_, ?_, ?_, fun h d hd => ?_⟩
  · rintro rfl
    exact (selectCommand_admittedIff s).refused_iff he
  · rintro rfl
    exact (selectData_admittedIff s).refused_iff he
  · exact (composite_admittedIff s hw hc hflush hstop hunit).refused_iff he
  · rintro (⟨n, rfl⟩ | rfl)
    · exact (flushWithFillers_admittedIff s n).refused_iff he
    · exact (stop_admittedIff s).refused_iff he
  · rintro v rfl
    exact (wireFillerUnit_admittedIff s v).refused_iff he
  · exact ((unchecked_admittedIff s h).refused_iff he).1 ⟨d, hd⟩ trivial

/-! ## The commands that assign no register (R20, R261) -/

/-- Of the seven registers an instruction's effect may differ in `VOL` and `BAL` alone, each by its one command. -/
theorem Effect.sameRegisters {i : Instr} {s u : State} {resp : Response} (h : Effect i s u resp)
    (ha : i.assignsRegisters = false) : SameRegisters s u := by
  obtain ⟨vol, bal, evs, hm, _, _, hvol, hbal, _⟩ := h.moves
  rcases hvol with rfl | ⟨v, rfl, _⟩
  · rcases hbal with rfl | ⟨b, rfl, _⟩
    · exact hm.sameRegisters
    · cases ha
  · cases ha

/-- Settles O46: such an instruction is not `BEGIN`, so it has an effect, and it is neither of the commands that assign
`VOL` or `BAL`. -/
theorem othersAssignNoRegister : Obligations.OthersAssignNoRegister := by
  intro i s t ha he
  have hb : i ≠ .begin := by
    rintro rfl
    cases ha
  obtain ⟨u, resp, heff⟩ := exec_effect s hb
  obtain rfl := Host.Outcome.next.inj (heff.answer.symm.trans he)
  exact heff.sameRegisters ha

/-! ## The values of construction (R45, R290) -/

/-- Settles O8: each register by definition, `VOL` and `BAL` in the ranges of the binding's `VOL_RESET` and `BAL_RESET`. -/
theorem constructionValues : Obligations.ConstructionValues := by
  intro c
  obtain ⟨hvol, hlow, hhigh⟩ := construct_rangesOk c
  exact ⟨_, rfl, rfl, rfl, rfl, rfl, rfl, rfl, rfl, rfl, rfl, rfl, hvol, rfl, hlow, hhigh, rfl, rfl, rfl⟩

end Sys2Proof.Machine
